-- ==== Sys2Proof/Word.lean ====
section
/-! DEFINITION. The widths of E2XCVR (00_scope.md R6, R7): register words, bytes, nibbles, the 33-bit
elapsed counters, and line levels. -/

namespace Sys2Proof

/-- A host register (`REG_WIDTH`, R6). -/
abbrev Word := BitVec 32

/-- A byte of the wire or of the command word (R7). -/
abbrev Byte := BitVec 8

/-- A 4-bit field: the opcode, the main-command nibble, the bit index (R31, R69). -/
abbrev Nibble := BitVec 4

/-- An elapsed counter `n` or `acc` (`CNT_WIDTH`, R6). -/
abbrev Count := BitVec 33

/-- A line level: `true` is high, or released when driven; `false` is low, or pulled low (R11). -/
abbrev Level := Bool

end Sys2Proof
end

