-- ==== Sys2Proof/Config.lean ====
section
/-! DEFINITION. The implementation parameters of 00_scope.md R6. The parameters the spec gives are
definitions; those it leaves OPEN, and the free draws of the bus environment, are opaque constants: nothing
can be proved of their values. -/

namespace Sys2Proof.Config

/-- `T_CLK_MIN`, R6: the least legal T_LOW and T_HIGH, in µs. -/
def tClkMin : Word := 100#32

/-- `T_HOLD_MIN`, R6: the least legal hold time, in µs. -/
def tHoldMin : Word := 4#32

/-- `DEV_ADDR_MAX`, R6. -/
def devAddrMax : Byte := 7#8

/-- `RECOVERY_PULSES`, R6. -/
def recoveryPulses : Nat := 9

/-- `POLL_US`, R6, R92: µs between two samples of SCL in a bounded wait. -/
def pollUs : Count := 1#33

/-- `DATA_SETUP_US`, R6, OPEN: a natural number of µs (log 3). -/
opaque dataSetupUs : Nat

/-- `WIRED_AND`, R6, R29, OPEN: whether a line the block pulls low always reads 0 (log 2). -/
opaque wiredAnd : Bool

/-- Which block of 0x40 bytes of the host's map holds the register window (R48, OPEN, log 4). -/
opaque windowIndex : Nat

/-- `BASE`, R6, R48: a multiple of 0x40 chosen by the platform. -/
def base : Nat := 0x40 * windowIndex

/-- The free draw of SCL_I number `k` (R29, log 1). -/
opaque sclDraw : Nat → Level

/-- The free draw of SDA_I number `k` (R29, log 1). -/
opaque sdaDraw : Nat → Level

end Sys2Proof.Config
end

