-- ==== Sys2Proof/Machine/State.lean ====
section
/-! DEFINITION. The state of E2XCVR (10_state.md R18): the host-visible registers, the two line outputs, the
line trace and the internal engine state; beside them the model's inputs and output, which the spec does not
count as state of the block: the samples the bus environment has in store, the turns still to come, and what
the host bus last returned. -/

namespace Sys2Proof.Machine

/-- The error kinds and the success kind (60_exceptions.md R149). Code 15 is reserved and no kind. -/
inductive Kind where
  | ok
  | notInitialized
  | invalidConfig
  | busError
  | timeout
  | invalidParam
  | deviceNotFound
  | checksumMismatch
  | nack
  | busy
  | inProgress
  | busStuck
  | alreadyInitialized
  | outOfRange
  | notSupported
deriving DecidableEq, Repr

/-- The fields of STATUS (10_state.md R23); its other bits read 0. -/
structure Status where
  busy : Bool
  cfg : Bool
  ovr : Bool
  kind : Kind
  lastop : Nibble
deriving DecidableEq, Repr

/-- The fields of RESULT (10_state.md R24); bits 31:24 read 0. -/
structure Result where
  data : Byte := 0#8
  aux : Byte := 0#8
  ctrl : Byte := 0#8
deriving DecidableEq, Repr

/-- The configuration registers (10_state.md R27); bits 31:8 of DEV_ADDR are RAZ/WI. -/
structure Conf where
  tLow : Word
  tHigh : Word
  tStartHold : Word
  tStopHold : Word
  tBitTo : Word
  tByteTo : Word
  devAddr : Byte
deriving DecidableEq, Repr

/-- A line event with its argument or the value it sampled (00_scope.md R9, 10_state.md R30). -/
inductive LineEvent where
  | driveSCL (v : Level)
  | driveSDA (v : Level)
  | sampleSCL (v : Level)
  | sampleSDA (v : Level)
  | delay (us : Nat)
deriving DecidableEq, Repr

/-- The named delays of 40_framing_engine.md R92 and the two halves of T_HIGH of 41_serdes.md R107. -/
inductive Hold where
  | low
  | high
  | startHold
  | stopHold
  | setup
  | halfHigh
  | restHigh
deriving DecidableEq, Repr

/-- What a bounded wait that fails is reported as: `Timeout` with the elapsed µs (40_framing_engine.md R93),
or `BusStuck` with a step number inside RECOVER (43_control_recovery.md R140). -/
inductive FailAs where
  | timeout
  | stuck (step : Nat)
deriving DecidableEq, Repr

/-- Which frame byte a received byte becomes: the data byte `d` or the checksum byte `c` (10_state.md R31). -/
inductive FrameByte where
  | d
  | c
deriving DecidableEq, Repr

/-- One engine step of a command's sequence of line events (40_framing_engine.md R91), with the changes of
internal engine state that go with it (log 9). `wait` and `pollDelay` are the two events of the loop of R93. -/
inductive Micro where
  /-- `DriveSCL(v)`. -/
  | driveSCL (v : Level)
  /-- `DriveSDA(v)`. -/
  | driveSDA (v : Level)
  /-- `DriveSCL(1)` before a bounded wait: `n <- 0`, and `acc <- 0` where the wait has a fresh accumulator. -/
  | releaseSCL (fresh : Bool)
  /-- `SampleSCL()` of `WAIT_SCL_HIGH` (R93). -/
  | wait (f : FailAs)
  /-- `Delay(POLL_US)` of `WAIT_SCL_HIGH` (R93). -/
  | pollDelay (f : FailAs)
  /-- `Delay` of a named time. -/
  | hold (h : Hold)
  /-- First event of a byte or single bit to send: `acc <- 0`, `sr <- x`, index `i`, `DriveSDA(x[i])`. For a single
  bit R108 and R115 name `acc` only: that `sr` and `i` are written too is the model's choice (log 10). -/
  | openWrite (x : Byte) (i : Nibble)
  /-- First event of the next bit to send: index `i`, `DriveSDA(sr[i])`. -/
  | nextWrite (i : Nibble)
  /-- First event of a byte or single bit to read: `acc <- 0`, `sr <- 0`, index `i`, `DriveSDA(1)`. For a single
  bit R109 and R115 name `acc` only: that `sr` and `i` are written too is the model's choice (log 10). -/
  | openRead (i : Nibble)
  /-- First event of the next bit to read: index `i`, `DriveSDA(1)`. -/
  | nextRead (i : Nibble)
  /-- `SampleSDA()` at the midpoint of a read bit: `sr[i] <- v`. For a byte R110 assigns it after READ_BIT_SEQ has
  returned, for a single bit no rule does: that it happens in this step is the model's choice (logs 9 and 10). -/
  | sampleBit
  /-- `Delay(T_LOW)` that ends the ACK cycle after byte `k` of a frame; a NACK fails with `Nack` and `k`, an
  ACK is counted in `acked` where `counted`. -/
  | closeAck (k : Nat) (counted : Bool)
  /-- `Delay(T_LOW)` that ends a received frame byte, which is then kept in `d` or `c`. -/
  | closeByte (dst : FrameByte)
  /-- `SampleSCL()` of the idle check: `sr <- l << 1`. -/
  | senseSCL
  /-- `SampleSDA()` of the idle check: `sr <- (m << 2) | (l << 1) | (l & m)`. -/
  | senseSDA
deriving DecidableEq, Repr

/-- What a command's `finish` reports: the RESULT fields and the kind its rule names. -/
inductive Report where
  /-- RESULT <- 0 (START, STOP, WBIT, WBYTE, SACK). -/
  | plain
  /-- RESULT.DATA <- the bit or byte received (RBIT, RBYTE). -/
  | received
  /-- RESULT.DATA <- the ACK flag (RACK). -/
  | ackFlag
  /-- The frame fields, and the checksum test (RFRAME). -/
  | readFrame
  /-- The frame fields (WFRAME). -/
  | writeFrame
  /-- The idle bits, `BusStuck` if not idle (RECOVER). -/
  | recovery
  /-- The idle bits (IDLE). -/
  | idleBits
  /-- The eight checks (CONFIG). -/
  | configCheck
  /-- STATUS.CFG <- 0 (DECONFIG). -/
  | unconfigure
deriving DecidableEq, Repr

/-- The engine's position (10_state.md R31 `phase`, log 8): idle; about to decode; or running, with the line
events still to come (`todo`), those that follow them even after a failure (`after`: a frame's STOP), and the
`finish` at the end. -/
inductive Phase where
  | idle
  | decode
  | run (todo after : List Micro) (report : Report)
deriving DecidableEq, Repr

/-- A failure: its kind and its 32-bit detail (10_state.md R31 `err`). -/
structure Failure where
  kind : Kind
  detail : Word
deriving DecidableEq, Repr

/-- The internal engine state (10_state.md R31). -/
structure Engine where
  phase : Phase
  op : Nibble
  nib : Nibble
  a : Byte
  b : Byte
  n : Count
  acc : Count
  sr : Byte
  i : Nibble
  ctrl : Byte
  d : Byte
  c : Byte
  acked : BitVec 3
  err : Option Failure
deriving DecidableEq, Repr

/-- The bus environment's draws (10_state.md R29, log 1): the samples in store for each line, first to come
first, and how many free draws were taken after a store ran out. The MODEL's own field. -/
structure Env where
  scl : List Level
  sda : List Level
  drawn : Nat
deriving DecidableEq, Repr

/-- A host access: a host address, a width in bytes, and the value written (20_memory.md R51). -/
inductive Access where
  | read (addr width : Nat)
  | write (addr width : Nat) (v : Word)
deriving DecidableEq, Repr

/-- One turn of the total order of 20_memory.md R60 (log 6): a host access, one engine step, an undisturbed
run of the engine to the end of its command (log 7), or an assertion of RST. -/
inductive Turn where
  | host (a : Access)
  | engine
  | run
  | rst
deriving DecidableEq, Repr

/-- What the host bus returned for the last access that completed. The MODEL's own field. -/
inductive Response where
  | none
  | readData (v : Word)
  | writeDone
  /-- The address is outside the window: the access did not reach the block (R48). -/
  | notSelected
  /-- The access was a host bus error, which the block signals to the host bus (R51). -/
  | busError
deriving DecidableEq, Repr

/-- The state of the machine (10_state.md R18) and the model's inputs and output. -/
structure State where
  cmd : Word
  status : Status
  result : Result
  detail : Word
  conf : Conf
  sclO : Level
  sdaO : Level
  trace : List LineEvent
  eng : Engine
  env : Env
  sched : List Turn
  rsp : Response
deriving DecidableEq, Repr

/-- The ways a step can fault. -/
inductive Fault where
  /-- A host bus error (20_memory.md R51, R153): raised by the host port on an access to the window that is
  not 32 bits wide or not at a multiple of 4. It is a fault of the host agent, not of the block: `block` is the
  state in which the block goes on, a running command with it (R153), with nothing of the block changed (log 18).
  Safe. -/
  | hostBusError (addr width : Nat) (block : State)
deriving DecidableEq, Repr

/-- The ways a step can be refused. -/
inductive Refusal where
  /-- Raised by `exec` for a command with no meaning yet: none is left. Safe. -/
  | notModelled (mnemonic : String)
deriving DecidableEq, Repr

/-- The machine right after reset (10_state.md R36); the model's own fields hold nothing (logs 1, 6). -/
def State.reset : State where
  cmd := 0#32
  status := { busy := false, cfg := false, ovr := false, kind := .ok, lastop := 0#4 }
  result := { data := 0#8, aux := 0#8, ctrl := 0#8 }
  detail := 0#32
  conf :=
    { tLow := 0#32, tHigh := 0#32, tStartHold := 0#32, tStopHold := 0#32, tBitTo := 0#32, tByteTo := 0#32,
      devAddr := 0#8 }
  sclO := true
  sdaO := true
  trace := []
  eng :=
    { phase := .idle, op := 0#4, nib := 0#4, a := 0#8, b := 0#8, n := 0#33, acc := 0#33, sr := 0#8, i := 0#4,
      ctrl := 0#8, d := 0#8, c := 0#8, acked := 0#3, err := none }
  env := { scl := [], sda := [], drawn := 0 }
  sched := []
  rsp := .none

end Sys2Proof.Machine
end

