-- ==== Sys2Proof/Machine/Flags.lean ====
section
/-! DEFINITION. The fields of STATUS and RESULT as register words (10_state.md R23, R24), the codes of the
error kinds (60_exceptions.md R149), the idle bits (43_control_recovery.md R143) and the mask of failed
configuration checks (10_state.md R28). -/

namespace Sys2Proof.Machine

/-- The 4-bit code of a kind (R149). -/
def Kind.code : Kind → Nibble
  | .ok => 0#4
  | .notInitialized => 1#4
  | .invalidConfig => 2#4
  | .busError => 3#4
  | .timeout => 4#4
  | .invalidParam => 5#4
  | .deviceNotFound => 6#4
  | .checksumMismatch => 7#4
  | .nack => 8#4
  | .busy => 9#4
  | .inProgress => 10#4
  | .busStuck => 11#4
  | .alreadyInitialized => 12#4
  | .outOfRange => 13#4
  | .notSupported => 14#4

/-- A flag as a bit. -/
def flagBit (v : Bool) : BitVec 1 := if v then 1#1 else 0#1

/-- The STATUS word: BUSY 0, CFG 1, OVR 2, bit 3 zero, KIND 7:4, LASTOP 11:8, bits 31:12 zero (R23). -/
def statusWord (st : Status) : Word :=
  0#20 ++ st.lastop ++ st.kind.code ++ 0#1 ++ flagBit st.ovr ++ flagBit st.cfg ++ flagBit st.busy

/-- The RESULT word: DATA 7:0, AUX 15:8, CTRL 23:16, bits 31:24 zero (R24). -/
def resultWord (r : Result) : Word := 0#8 ++ r.ctrl ++ r.aux ++ r.data

/-- The LINE word: SCL_O, SDA_O, SCL_I, SDA_I in bits 0 to 3, bits 31:4 zero (10_state.md R26). -/
def lineWord (sclO sdaO sclI sdaI : Level) : Word :=
  0#28 ++ flagBit sdaI ++ flagBit sclI ++ flagBit sdaO ++ flagBit sclO

/-- The idle bits `(m << 2) | (l << 1) | (l & m)` of an SCL level `l` and an SDA level `m` (R140, R143). -/
def idleBits (l m : Level) : Byte := 0#5 ++ flagBit m ++ flagBit l ++ flagBit (l && m)

/-- The mask of failed checks (R28, 43_control_recovery.md R136): bit k is 1 when check k fails. -/
def configFaults (c : Conf) : Byte :=
  flagBit (decide (Config.devAddrMax < c.devAddr))
    ++ flagBit (decide (c.tByteTo < c.tBitTo))
    ++ flagBit (decide (c.tByteTo = 0#32))
    ++ flagBit (decide (c.tBitTo = 0#32))
    ++ flagBit (decide (c.tStopHold < Config.tHoldMin))
    ++ flagBit (decide (c.tStartHold < Config.tHoldMin))
    ++ flagBit (decide (c.tHigh < Config.tClkMin))
    ++ flagBit (decide (c.tLow < Config.tClkMin))

/-- DETAIL of an elapsed time: a value above 0xFFFF_FFFF is written as 0xFFFF_FFFF (10_state.md R25). -/
def saturate (x : Count) : Word := if x.getLsbD 32 then 0xFFFFFFFF#32 else x.truncate 32

end Sys2Proof.Machine
end

