-- ==== Sys2Proof/Syntax.lean ====
section
/-! DEFINITION. The commands of E2XCVR, one constructor per row of spec/opcode_table.json (30_encoding.md
R71), with the operand fields of the command word as R69 and R72 name them. -/

namespace Sys2Proof

/-- A command (R68, R71). WBIT and SACK carry the whole operand byte A, of which they use bit 0 (R69); the
others carry exactly the fields their row uses. -/
inductive Instr where
  | config
  | deconfig
  | start
  | stop
  | wbit (a : Byte)
  | rbit
  | wbyte (x : Byte)
  | rbyte
  | rack
  | sack (a : Byte)
  | rframe (nib : Nibble)
  | wframe (nib : Nibble) (addr data : Byte)
  | recover
  | idle
deriving DecidableEq, Repr

/-- The opcode field OP of a command (R71). -/
def Instr.opcode : Instr → Nibble
  | .config => 0x1#4
  | .deconfig => 0x2#4
  | .start => 0x3#4
  | .stop => 0x4#4
  | .wbit _ => 0x5#4
  | .rbit => 0x6#4
  | .wbyte _ => 0x7#4
  | .rbyte => 0x8#4
  | .rack => 0x9#4
  | .sack _ => 0xA#4
  | .rframe _ => 0xB#4
  | .wframe _ _ _ => 0xC#4
  | .recover => 0xD#4
  | .idle => 0xE#4

end Sys2Proof
end

