-- ==== Sys2Proof/WellFormed.lean ====
section
/-! DEFINITION. Which commands are well formed: the unused bits A[7:1] of WBIT and SACK are 0
(30_encoding.md R70, R71; 41_serdes.md R108, R118). Every value of every other operand is legal (R72). -/

namespace Sys2Proof

/-- The bits of operand byte A that a one-bit operand leaves unused are 0 (R71, mask 0xFFFF_FEFF). -/
def oneBitOperand (a : Byte) : Bool := (a &&& 0xFE#8) == 0#8

/-- A command whose word sets no unused bit (R70, R73). -/
def Instr.wellFormed : Instr → Bool
  | .config => true
  | .deconfig => true
  | .start => true
  | .stop => true
  | .wbit a => oneBitOperand a
  | .rbit => true
  | .wbyte _ => true
  | .rbyte => true
  | .rack => true
  | .sack a => oneBitOperand a
  | .rframe _ => true
  | .wframe _ _ _ => true
  | .recover => true
  | .idle => true

end Sys2Proof
end

