-- ==== Sys2Proof/Decode.lean ====
section
/-! DEFINITION. The command word (30_encoding.md R67 to R75): its fields, the opcode map, the decoder and the
encoder. -/

namespace Sys2Proof

/-- OP, bits 3:0 of a command word (R69). -/
def opOf (w : Word) : Nibble := w.extractLsb' 0 4

/-- NIB, bits 7:4 (R69). -/
def nibOf (w : Word) : Nibble := w.extractLsb' 4 4

/-- Operand byte A, bits 15:8 (R69). -/
def aOf (w : Word) : Byte := w.extractLsb' 8 8

/-- Operand byte B, bits 23:16 (R69). -/
def bOf (w : Word) : Byte := w.extractLsb' 16 8

/-- RSV, bits 31:24 (R69). -/
def rsvOf (w : Word) : Byte := w.extractLsb' 24 8

/-- A row of the opcode map (R71): `mask` has a 1 for every bit the decoder tests. -/
structure OpcodeRow where
  op : Nibble
  value : Word
  mask : Word
deriving DecidableEq, Repr

/-- The opcode map (R71, spec/opcode_table.json): one row per command, no row for 0x0 and 0xF. -/
def opcodeRows : List OpcodeRow :=
  [ ⟨0x1#4, 0x00000001#32, 0xFFFFFFFF#32⟩,   -- CONFIG
    ⟨0x2#4, 0x00000002#32, 0xFFFFFFFF#32⟩,   -- DECONFIG
    ⟨0x3#4, 0x00000003#32, 0xFFFFFFFF#32⟩,   -- START
    ⟨0x4#4, 0x00000004#32, 0xFFFFFFFF#32⟩,   -- STOP
    ⟨0x5#4, 0x00000005#32, 0xFFFFFEFF#32⟩,   -- WBIT
    ⟨0x6#4, 0x00000006#32, 0xFFFFFFFF#32⟩,   -- RBIT
    ⟨0x7#4, 0x00000007#32, 0xFFFF00FF#32⟩,   -- WBYTE
    ⟨0x8#4, 0x00000008#32, 0xFFFFFFFF#32⟩,   -- RBYTE
    ⟨0x9#4, 0x00000009#32, 0xFFFFFFFF#32⟩,   -- RACK
    ⟨0xA#4, 0x0000000A#32, 0xFFFFFEFF#32⟩,   -- SACK
    ⟨0xB#4, 0x0000000B#32, 0xFFFFFF0F#32⟩,   -- RFRAME
    ⟨0xC#4, 0x0000000C#32, 0xFF00000F#32⟩,   -- WFRAME
    ⟨0xD#4, 0x0000000D#32, 0xFFFFFFFF#32⟩,   -- RECOVER
    ⟨0xE#4, 0x0000000E#32, 0xFFFFFFFF#32⟩ ]  -- IDLE

/-- The row whose OP is the word's OP (R70). -/
def rowFor (w : Word) : Option OpcodeRow := opcodeRows.find? fun r => r.op == opOf w

/-- Why the decoder refuses a word (R70, R73). The block then finishes `InvalidParam`. -/
inductive DecodeError where
  /-- OP is 0x0 or 0xF. -/
  | reservedOpcode
  /-- A bit outside the command's fields is 1, RSV included. -/
  | unusedBits
deriving DecidableEq, Repr

/-- The operands of a word that matches the row of its opcode (R72). -/
def instrOf (w : Word) : Option Instr :=
  match (opOf w).toNat with
  | 0x1 => some .config
  | 0x2 => some .deconfig
  | 0x3 => some .start
  | 0x4 => some .stop
  | 0x5 => some (.wbit (aOf w))
  | 0x6 => some .rbit
  | 0x7 => some (.wbyte (aOf w))
  | 0x8 => some .rbyte
  | 0x9 => some .rack
  | 0xA => some (.sack (aOf w))
  | 0xB => some (.rframe (nibOf w))
  | 0xC => some (.wframe (nibOf w) (aOf w) (bOf w))
  | 0xD => some .recover
  | 0xE => some .idle
  | _ => none

/-- The decoder (R70, R71): total on every word; a word that matches no row is refused by name. -/
def decode (w : Word) : Except DecodeError Instr :=
  match rowFor w with
  | none => .error .reservedOpcode
  | some r =>
    if (w &&& r.mask) = r.value then
      match instrOf w with
      | some i => .ok i
      | none => .error .reservedOpcode
    else .error .unusedBits

/-- A command word laid out from its fields, RSV = 0 (R69). -/
def layout (op nib : Nibble) (a b : Byte) : Word := 0#8 ++ b ++ a ++ nib ++ op

/-- The encoder (R71, R75). -/
def encode : Instr → Word
  | .config => layout 0x1#4 0#4 0#8 0#8
  | .deconfig => layout 0x2#4 0#4 0#8 0#8
  | .start => layout 0x3#4 0#4 0#8 0#8
  | .stop => layout 0x4#4 0#4 0#8 0#8
  | .wbit a => layout 0x5#4 0#4 a 0#8
  | .rbit => layout 0x6#4 0#4 0#8 0#8
  | .wbyte x => layout 0x7#4 0#4 x 0#8
  | .rbyte => layout 0x8#4 0#4 0#8 0#8
  | .rack => layout 0x9#4 0#4 0#8 0#8
  | .sack a => layout 0xA#4 0#4 a 0#8
  | .rframe nib => layout 0xB#4 nib 0#8 0#8
  | .wframe nib addr data => layout 0xC#4 nib addr data
  | .recover => layout 0xD#4 0#4 0#8 0#8
  | .idle => layout 0xE#4 0#4 0#8 0#8

/-- The command word whose low `nbits` bits are those of `w` and whose other bits are 0: a command is one
32-bit word (R67). -/
def tableWord (nbits w : Nat) : Word := BitVec.ofNat 32 (w % 2 ^ nbits)

/-- What the decoder reads from an instruction whose bits are `w`, numbered as spec/opcode_table.json
numbers them. -/
def decodeTableWord (nbits w : Nat) : Option Instr :=
  match decode (tableWord nbits w) with
  | .ok i => some i
  | .error _ => none

/-- Byte lane `k` of a register word: bits [8k+7:8k] (20_memory.md R52, little-endian). -/
def byteLane (w : Word) (k : Nat) : Byte := w.extractLsb' (8 * k) 8

/-- The word whose byte lanes 0 to 3 are the four bytes (R52). -/
def wordOfLanes (b0 b1 b2 b3 : Byte) : Word := b3 ++ b2 ++ b1 ++ b0

end Sys2Proof
end

