-- ==== Sys2Proof/Machine/Operands.lean ====
section
/-! DEFINITION. Operand assembly (30_encoding.md R72, R80, R82; 41_serdes.md R110, R115): bits of the shift
register, the control byte, and the two checksums over frame bytes. -/

namespace Sys2Proof.Machine

/-- Bit `i` of the shift register (R110 `sr[i]`). -/
def srBit (x : Byte) (i : Nibble) : Level := x.getLsbD i.toNat

/-- The shift register with bit `i` set to `v` (R110 `sr[i] <- v`). -/
def setSrBit (x : Byte) (i : Nibble) (v : Level) : Byte :=
  (x &&& ~~~(1#8 <<< i.toNat)) ||| ((if v then 1#8 else 0#8) <<< i.toNat)

/-- The byte a one-bit operand is sent from: bit 0 is the bit (R108 `a[0]`). -/
def bitOperand (a : Byte) : Byte := a &&& 1#8

/-- The bit that an ACK cycle drives: 0 (SDA low) to send ACK, 1 to send NACK (R115). -/
def ackOperand (a : Byte) : Byte := if a.getLsbD 0 then 0#8 else 1#8

/-- The control byte `(nib << 4) | (DEV_ADDR[2:0] << 1) | rw` (R80, R82). -/
def controlByte (nib : Nibble) (devAddr : Byte) (rw : Bool) : Byte :=
  (nib.zeroExtend 8 <<< 4) ||| ((devAddr &&& 7#8) <<< 1) ||| (if rw then 1#8 else 0#8)

/-- The read checksum (42_checksum_frames.md R121): the low 8 bits of a 9-bit sum. -/
def checksumRead (ctrl d : Byte) : Byte := (ctrl.zeroExtend 9 + d.zeroExtend 9).truncate 8

/-- The write checksum (42_checksum_frames.md R122): the low 8 bits of a 10-bit sum. -/
def checksumWrite (ctrl addr data : Byte) : Byte :=
  (ctrl.zeroExtend 10 + addr.zeroExtend 10 + data.zeroExtend 10).truncate 8

end Sys2Proof.Machine
end

