-- ==== Sys2Proof/Machine/Ops.lean ====
section
/-! DEFINITION. The shared operations of the block: line events (00_scope.md R9), samples as draws
(10_state.md R29), the failure that a command keeps, `finish` and error completion (00_scope.md R10,
60_exceptions.md R155), acceptance of a command word (10_state.md R22) and reset (70_reset_and_hazards.md
R171). -/

namespace Sys2Proof.Machine

/-- Append an event to the line trace (10_state.md R30). -/
def State.record (e : LineEvent) (s : State) : State := { s with trace := s.trace ++ [e] }

/-- The line event `DriveSCL(v)` (R9, R32). -/
def State.setSCL (v : Level) (s : State) : State := ({ s with sclO := v }).record (.driveSCL v)

/-- The line event `DriveSDA(v)` (R9, R32). -/
def State.setSDA (v : Level) (s : State) : State := ({ s with sdaO := v }).record (.driveSDA v)

/-- The line event `Delay(us)` (R9); `Delay(0)` is recorded like any other (40_framing_engine.md R92). -/
def State.pause (us : Nat) (s : State) : State := s.record (.delay us)

/-- A draw of SCL_I: the next sample in store, else a free draw (R29, log 1). -/
def drawSCL (s : State) : Level × State :=
  match s.env.scl with
  | v :: vs => (v, { s with env := { s.env with scl := vs } })
  | [] => (Config.sclDraw s.env.drawn, { s with env := { s.env with drawn := s.env.drawn + 1 } })

/-- A draw of SDA_I: the next sample in store, else a free draw (R29, log 1). -/
def drawSDA (s : State) : Level × State :=
  match s.env.sda with
  | v :: vs => (v, { s with env := { s.env with sda := vs } })
  | [] => (Config.sdaDraw s.env.drawn, { s with env := { s.env with drawn := s.env.drawn + 1 } })

/-- The level of SCL_I at this moment: a draw, but 0 on a pulled-low line under `WIRED_AND` (R29, log 2). -/
def levelSCL (s : State) : Level × State :=
  if s.sclO then drawSCL s else if Config.wiredAnd then (false, s) else drawSCL s

/-- The level of SDA_I at this moment: a draw, but 0 on a pulled-low line under `WIRED_AND` (R29, log 2). -/
def levelSDA (s : State) : Level × State :=
  if s.sdaO then drawSDA s else if Config.wiredAnd then (false, s) else drawSDA s

/-- The line event `SampleSCL()` (R9). -/
def sampleSCL (s : State) : Level × State :=
  let r := levelSCL s
  (r.1, r.2.record (.sampleSCL r.1))

/-- The line event `SampleSDA()` (R9). -/
def sampleSDA (s : State) : Level × State :=
  let r := levelSDA s
  (r.1, r.2.record (.sampleSDA r.1))

/-- The µs of a named delay (40_framing_engine.md R92; 41_serdes.md R107 for the halves of T_HIGH). -/
def Hold.us (h : Hold) (c : Conf) : Nat :=
  match h with
  | .low => c.tLow.toNat
  | .high => c.tHigh.toNat
  | .startHold => c.tStartHold.toNat
  | .stopHold => c.tStopHold.toNat
  | .setup => Config.dataSetupUs
  | .halfHigh => c.tHigh.toNat / 2
  | .restHigh => c.tHigh.toNat - c.tHigh.toNat / 2

/-- Update the internal engine state. -/
def State.setEng (e : Engine) (s : State) : State := { s with eng := e }

/-- Move the engine to a phase (10_state.md R31). -/
def State.setPhase (p : Phase) (s : State) : State := { s with eng := { s.eng with phase := p } }

/-- Keep a failure, unless an earlier one is kept already: the first failure is the one reported
(42_checksum_frames.md R126, 60_exceptions.md R154; log 10). -/
def State.keepFailure (f : Failure) (s : State) : State :=
  match s.eng.err with
  | some _ => s
  | none => { s with eng := { s.eng with err := some f } }

/-- The failure of a bounded wait of `x` µs (40_framing_engine.md R93; 43_control_recovery.md R140 in RECOVER). -/
def FailAs.failure (f : FailAs) (x : Count) : Failure :=
  match f with
  | .timeout => { kind := .timeout, detail := saturate x }
  | .stuck step => { kind := .busStuck, detail := BitVec.ofNat 32 step }

/-- `finish(kind, detail)` with the RESULT fields of the command's rule (00_scope.md R10, 20_memory.md R55):
one step that writes KIND, LASTOP, DETAIL and RESULT and clears BUSY. With a kind other than `Ok` it is the
block's error completion, its counterpart of taking an exception (60_exceptions.md R155): CFG, OVR, the
configuration, CMD, the lines and the trace keep their values, and so does the rest of the engine (log 11). -/
def finish (k : Kind) (detail : Word) (r : Result) (s : State) : State :=
  { s with
    status := { s.status with busy := false, kind := k, lastop := s.eng.op }
    result := r
    detail := detail
    eng := { s.eng with phase := .idle, err := none } }

/-- Write STATUS.CFG (R136, R138), in the same step as the `finish` that follows. -/
def State.setCfg (v : Bool) (s : State) : State := { s with status := { s.status with cfg := v } }

/-- Accept a command word (10_state.md R22, 30_encoding.md R69): CMD and the engine's fields latch it, BUSY is
set, and the engine is about to decode. -/
def State.accept (w : Word) (s : State) : State :=
  { s with
    cmd := w
    status := { s.status with busy := true }
    eng := { s.eng with phase := .decode, op := opOf w, nib := nibOf w, a := aOf w, b := bOf w } }

/-- An assertion of RST (70_reset_and_hazards.md R171): every piece of state takes its reset value; the bus
environment, the turns to come and the host's last response are not state of the block (log 14). -/
def State.assertRst (s : State) : State :=
  { State.reset with env := s.env, sched := s.sched, rsp := s.rsp }

/-- The word the engine decodes: the one latched at acceptance (20_memory.md R64). -/
def State.fetch (s : State) : Except DecodeError Instr := decode s.cmd

/-- The commands that run whether or not the block is configured (30_encoding.md R70). -/
def needsConfigured : Instr → Bool
  | .config => false
  | .deconfig => false
  | .start => true
  | .stop => true
  | .wbit _ => true
  | .rbit => true
  | .wbyte _ => true
  | .rbyte => true
  | .rack => true
  | .sack _ => true
  | .rframe _ => true
  | .wframe _ _ _ => true
  | .recover => true
  | .idle => true

/-- The refusals of 30_encoding.md R70 in their order (60_exceptions.md R154): a kind and a detail, or none when
the command runs. The first concerns only operands that the decoder never produces (log 17). -/
def gate (i : Instr) (s : State) : Option Failure :=
  if i.wellFormed = false then some { kind := .invalidParam, detail := s.cmd }
  else if i = .config ∧ s.status.cfg = true then some { kind := .alreadyInitialized, detail := 0#32 }
  else if needsConfigured i = true ∧ s.status.cfg = false then
    some { kind := .notInitialized, detail := 0#32 }
  else none

/-- A word the decoder refuses finishes `InvalidParam` with the word as detail and RESULT 0
(30_encoding.md R70, 43_control_recovery.md R145). -/
def refuseWord (s : State) : State := finish .invalidParam s.cmd {} s

end Sys2Proof.Machine
end

