-- ==== Sys2Proof/Machine/Sequencer.lean ====
section
/-! DEFINITION. The sequencer: what each engine step of a command does (40_framing_engine.md R91), the bounded
wait for SCL to rise (R93), and the run of a command's line events to its `finish`. -/

namespace Sys2Proof.Machine

/-- What one engine step of a sub-operation leads to: it is done, it goes on with another step of its own
(the loop of R93), or it fails (R10 `FAIL`). -/
inductive Fired where
  | done (s : State)
  | again (m : Micro) (s : State)
  | failed (s : State)
deriving DecidableEq, Repr

/-- What a run of line events leads to: all performed, or stopped at a failure (R95). -/
inductive Ran where
  | ok (s : State)
  | failed (s : State)
deriving DecidableEq, Repr

/-- The state a run leaves. -/
def Ran.state : Ran → State
  | .ok s => s
  | .failed s => s

/-- The sample of `WAIT_SCL_HIGH` (R93): high ends the wait and adds `n` to `acc`; low fails when the per-bit
budget is spent, else the poll delay follows. -/
def poll (f : FailAs) (s : State) : Fired :=
  match sampleSCL s with
  | (true, s') => .done (s'.setEng { s'.eng with acc := s'.eng.acc + s'.eng.n })
  | (false, s') =>
    if s'.conf.tBitTo.zeroExtend 33 ≤ s'.eng.n then .failed (s'.keepFailure (f.failure s'.eng.n))
    else .again (.pollDelay f) s'

/-- The poll delay of `WAIT_SCL_HIGH` (R93): it counts, and fails when the per-byte budget is exceeded, else the
next sample follows. -/
def pollPause (f : FailAs) (s : State) : Fired :=
  let s1 := s.pause Config.pollUs.toNat
  let s2 := s1.setEng { s1.eng with n := s1.eng.n + Config.pollUs }
  if s2.conf.tByteTo.zeroExtend 33 < s2.eng.acc + s2.eng.n then
    .failed (s2.keepFailure (f.failure (s2.eng.acc + s2.eng.n)))
  else .again (.wait f) s2

/-- The end of the ACK cycle after byte `k` of a frame (42_checksum_frames.md R127, R130): a sampled 1 is a
NACK (R79) and fails with `Nack` and `k`. -/
def endAck (k : Nat) (counted : Bool) (s : State) : Fired :=
  let s1 := s.pause (Hold.low.us s.conf)
  if srBit s1.eng.sr 0#4 then
    .failed (s1.keepFailure { kind := .nack, detail := BitVec.ofNat 32 k })
  else if counted then .done (s1.setEng { s1.eng with acked := s1.eng.acked + 1#3 })
  else .done s1

/-- One engine step: one line event, with the changes of internal state that go with it (R91, log 9). -/
def fire : Micro → State → Fired
  | .driveSCL v, s => .done (s.setSCL v)
  | .driveSDA v, s => .done (s.setSDA v)
  | .releaseSCL fresh, s =>
    .done ((s.setEng { s.eng with n := 0#33, acc := if fresh then 0#33 else s.eng.acc }).setSCL true)
  | .wait f, s => poll f s
  | .pollDelay f, s => pollPause f s
  | .hold h, s => .done (s.pause (h.us s.conf))
  | .openWrite x i, s => .done ((s.setEng { s.eng with acc := 0#33, sr := x, i := i }).setSDA (srBit x i))
  | .nextWrite i, s => .done ((s.setEng { s.eng with i := i }).setSDA (srBit s.eng.sr i))
  | .openRead i, s => .done ((s.setEng { s.eng with acc := 0#33, sr := 0#8, i := i }).setSDA true)
  | .nextRead i, s => .done ((s.setEng { s.eng with i := i }).setSDA true)
  | .sampleBit, s =>
    let r := sampleSDA s
    .done (r.2.setEng { r.2.eng with sr := setSrBit r.2.eng.sr r.2.eng.i r.1 })
  | .closeAck k counted, s => endAck k counted s
  | .closeByte .d, s =>
    let s1 := s.pause (Hold.low.us s.conf)
    .done (s1.setEng { s1.eng with d := s1.eng.sr })
  | .closeByte .c, s =>
    let s1 := s.pause (Hold.low.us s.conf)
    .done (s1.setEng { s1.eng with c := s1.eng.sr })
  | .senseSCL, s =>
    let r := sampleSCL s
    .done (r.2.setEng { r.2.eng with sr := idleBits r.1 false })
  | .senseSDA, s =>
    let r := sampleSDA s
    .done (r.2.setEng { r.2.eng with sr := idleBits (srBit r.2.eng.sr 1#4) r.1 })

/-- A whole sub-operation: its engine steps until it is done or fails. Only a bounded wait takes more than one
step, and `fuel` bounds its steps (R94). -/
def runMicro : Nat → Micro → State → Ran
  | 0, _, s => .failed s
  | fuel + 1, m, s =>
    match fire m s with
    | .done s' => .ok s'
    | .failed s' => .failed s'
    | .again m' s' => runMicro fuel m' s'

/-- Enough engine steps for any bounded wait: at most `T_BIT_TO + 1` samples and `T_BIT_TO` delays (R94,
log 13). -/
def waitFuel (s : State) : Nat := 2 * s.conf.tBitTo.toNat + 2

/-- A sequence of sub-operations, which stops at the first failure (R95). -/
def runSeq : List Micro → State → Ran
  | [], s => .ok s
  | m :: rest, s =>
    match runMicro (waitFuel s) m s with
    | .ok s' => runSeq rest s'
    | .failed s' => .failed s'

/-- The line events of a command, those that follow even after a failure (a frame's STOP, 42_checksum_frames.md
R126), and what its `finish` reports. -/
structure Job where
  todo : List Micro
  after : List Micro
  report : Report
deriving DecidableEq, Repr

/-- Finish with the failure that the command kept, if any (R10, R154), else as `onOk` says. -/
def concludeWith (failedResult : Result) (s : State) (onOk : State) : State :=
  match s.eng.err with
  | some e => finish e.kind e.detail failedResult s
  | none => onOk

/-- The RESULT fields of RFRAME (42_checksum_frames.md R127). -/
def readFrameResult (e : Engine) : Result := { data := e.d, aux := e.c, ctrl := e.ctrl }

/-- The RESULT fields of WFRAME (42_checksum_frames.md R130). -/
def writeFrameResult (e : Engine) : Result := { data := e.acked.zeroExtend 8, aux := e.c, ctrl := e.ctrl }

/-- The last engine step of a command: its `finish` (R10), with the kind, detail and RESULT of its rule. -/
def complete : Report → State → State
  | .plain, s => concludeWith {} s (finish .ok 0#32 {} s)
  | .received, s => concludeWith {} s (finish .ok 0#32 { data := s.eng.sr } s)
  | .ackFlag, s =>
    concludeWith {} s (finish .ok 0#32 { data := if srBit s.eng.sr 0#4 then 0#8 else 1#8 } s)
  | .readFrame, s =>
    concludeWith (readFrameResult s.eng) s
      (if s.eng.c = checksumRead s.eng.ctrl s.eng.d then finish .ok 0#32 (readFrameResult s.eng) s
       else finish .checksumMismatch (s.eng.c.zeroExtend 32) (readFrameResult s.eng) s)
  | .writeFrame, s =>
    concludeWith (writeFrameResult s.eng) s (finish .ok 0#32 (writeFrameResult s.eng) s)
  | .recovery, s =>
    concludeWith {} s
      (if srBit s.eng.sr 0#4 then finish .ok 0#32 { data := s.eng.sr } s
       else finish .busStuck 11#32 { data := s.eng.sr } s)
  | .idleBits, s => concludeWith {} s (finish .ok 0#32 { data := s.eng.sr } s)
  | .configCheck, s =>
    if configFaults s.conf = 0#8 then finish .ok 0#32 {} (s.setCfg true)
    else finish .invalidConfig ((configFaults s.conf).zeroExtend 32) {} s
  | .unconfigure, s => finish .ok 0#32 {} (s.setCfg false)

/-- A command's line events and its `finish`: `todo` up to its first failure, then `after` whatever came of it,
then the report (R126, R91). -/
def runJob (j : Job) (s : State) : State :=
  complete j.report (runSeq j.after (runSeq j.todo s).state).state

/-- A command as a whole: refused by the gate of R70, or run to its `finish`. `c` is the state the command
starts its line events in, and its job. -/
def runGated (g : Option Failure) (c : State × Job) (s : State) : Host.Outcome State Fault Refusal :=
  match g with
  | some f => .next (finish f.kind f.detail {} s)
  | none => .next (runJob c.2 c.1)

/-- After a step of `todo` or `after`: where the engine stands. A failure skips what is left of the list it
occurred in. -/
def settle (r : Fired) (rest after : List Micro) (report : Report) : State :=
  match r with
  | .done s => s.setPhase (.run rest after report)
  | .again m s => s.setPhase (.run (m :: rest) after report)
  | .failed s => s.setPhase (.run after [] report)

/-- One engine step of a running command (R91): a line event, or the `finish` when none is left. -/
def advance (todo after : List Micro) (report : Report) (s : State) : State :=
  match todo with
  | m :: rest => settle (fire m s) rest after report
  | [] =>
    match after with
    | m :: rest => settle (fire m s) rest [] report
    | [] => complete report s

/-- The `Delay` time of a trace, in µs (70_reset_and_hazards.md R184 to R186). -/
def elapsed : List LineEvent → Nat
  | [] => 0
  | .delay us :: es => us + elapsed es
  | .driveSCL _ :: es => elapsed es
  | .driveSDA _ :: es => elapsed es
  | .sampleSCL _ :: es => elapsed es
  | .sampleSDA _ :: es => elapsed es

end Sys2Proof.Machine
end

