-- ==== Sys2Proof/Machine/Framing.lean ====
section
/-! DEFINITION. START and STOP (40_framing_engine.md R98 to R102). -/

namespace Sys2Proof.Machine

/-- `START_SEQ()` (R98). -/
def startSeq : List Micro :=
  [ .driveSDA true,         -- release data line
    .releaseSCL true,       -- "drive clock high"
    .wait .timeout,
    .hold .startHold,
    .driveSDA false,        -- START condition
    .driveSCL false,
    .hold .low ]

/-- `STOP_SEQ()` (R101), its failed wait reported as `f` says. -/
def stopSeq (f : FailAs) : List Micro :=
  [ .driveSDA false,        -- "ensure data low"
    .hold .stopHold,
    .releaseSCL true,       -- "raise clock"
    .wait f,
    .hold .stopHold,
    .driveSDA true,         -- STOP condition
    .hold .stopHold ]

/-- The state a command starts its line events in: no failure kept, the frame bytes as they are. It is reached in the
decode step, by the model's choice (log 9). -/
def State.beginCommand (s : State) : State := s.setEng { s.eng with err := none }

/-- START (R99). -/
def startCommand (s : State) : State × Job :=
  (s.beginCommand, { todo := startSeq, after := [], report := .plain })

/-- STOP (R102). -/
def stopCommand (s : State) : State × Job :=
  (s.beginCommand, { todo := stopSeq .timeout, after := [], report := .plain })

/-- The meaning of START (R99). -/
def execStart (s : State) : Host.Outcome State Fault Refusal :=
  runGated (gate .start s) (startCommand s) s

/-- The meaning of STOP (R102). -/
def execStop (s : State) : Host.Outcome State Fault Refusal :=
  runGated (gate .stop s) (stopCommand s) s

end Sys2Proof.Machine
end

