-- ==== Sys2Proof/Machine/Control.lean ====
section
/-! DEFINITION. CONFIG, DECONFIG, RECOVER and IDLE (43_control_recovery.md R135 to R145). -/

namespace Sys2Proof.Machine

/-- One recovery pulse (R140); a clock that does not rise is `BusStuck` with the pulse number. -/
def pulseSeq (p : Nat) : List Micro :=
  [.releaseSCL true, .wait (.stuck p), .hold .high, .driveSCL false, .hold .low]

/-- The two samples of the idle check (R143). -/
def senseSeq : List Micro := [.senseSCL, .senseSDA]

/-- The line events of RECOVER (R140, R141): data released, nine pulses, STOP (step 10), idle check. -/
def recoverSeq : List Micro :=
  .driveSDA true ::
    ((List.range Config.recoveryPulses).flatMap fun p => pulseSeq (p + 1)) ++
    stopSeq (.stuck (Config.recoveryPulses + 1)) ++ senseSeq

/-- CONFIG (R136): no line event; its one step checks the configuration and finishes. -/
def configCommand (s : State) : State × Job :=
  (s.beginCommand, { todo := [], after := [], report := .configCheck })

/-- DECONFIG (R138): release SCL, then SDA, then clear CFG (log 12). -/
def deconfigCommand (s : State) : State × Job :=
  (s.beginCommand, { todo := [.driveSCL true, .driveSDA true], after := [], report := .unconfigure })

/-- RECOVER (R140). -/
def recoverCommand (s : State) : State × Job :=
  (s.beginCommand, { todo := recoverSeq, after := [], report := .recovery })

/-- IDLE (R143). -/
def idleCommand (s : State) : State × Job :=
  (s.beginCommand, { todo := senseSeq, after := [], report := .idleBits })

/-- The meaning of CONFIG (R136). -/
def execConfig (s : State) : Host.Outcome State Fault Refusal :=
  runGated (gate .config s) (configCommand s) s

/-- The meaning of DECONFIG (R138). -/
def execDeconfig (s : State) : Host.Outcome State Fault Refusal :=
  runGated (gate .deconfig s) (deconfigCommand s) s

/-- The meaning of RECOVER (R140). -/
def execRecover (s : State) : Host.Outcome State Fault Refusal :=
  runGated (gate .recover s) (recoverCommand s) s

/-- The meaning of IDLE (R143). -/
def execIdle (s : State) : Host.Outcome State Fault Refusal :=
  runGated (gate .idle s) (idleCommand s) s

end Sys2Proof.Machine
end

