-- ==== Sys2Proof/Machine/Serdes.lean ====
section
/-! DEFINITION. Bit cells, bytes and ACK cycles (41_serdes.md R107 to R118). -/

namespace Sys2Proof.Machine

/-- `WRITE_BIT_SEQ` (R107) after its first event, which drives SDA. -/
def clockOut : List Micro :=
  [ .hold .setup, .releaseSCL false, .wait .timeout, .hold .high, .driveSCL false, .hold .low ]

/-- `WRITE_BIT_SEQ` (R107); `first` is its `DriveSDA(bit)`. -/
def writeCell (first : Micro) : List Micro := first :: clockOut

/-- `READ_BIT_SEQ` (R107); `first` is its `DriveSDA(1)` and `last` its `Delay(T_LOW)`. -/
def readCell (first last : Micro) : List Micro :=
  [ first, .hold .setup, .releaseSCL false, .wait .timeout, .hold .halfHigh, .sampleBit, .hold .restHigh,
    .driveSCL false, last ]

/-- A single bit sent with a fresh accumulator: bit 0 of `x` (R108), which the model keeps in `sr`, with index 0, while
it is sent (log 10). -/
def writeBitSeq (x : Byte) : List Micro := writeCell (.openWrite x 0#4)

/-- A single bit read with a fresh accumulator, into bit 0 of `sr` (R109); `last` ends it. -/
def readBitSeq (last : Micro) : List Micro := readCell (.openRead 0#4) last

/-- `WRITE_BYTE_SEQ(x)` (R110): bits 7 down to 0, one accumulator for the byte (R111). -/
def writeByteSeq (x : Byte) : List Micro :=
  writeCell (.openWrite x 7#4) ++
    [6#4, 5#4, 4#4, 3#4, 2#4, 1#4, 0#4].flatMap fun i => writeCell (.nextWrite i)

/-- `READ_BYTE_SEQ()` (R110): bits 7 down to 0, one accumulator for the byte (R111); `last` ends bit 0. -/
def readByteSeq (last : Micro) : List Micro :=
  readCell (.openRead 7#4) (.hold .low) ++
    ([6#4, 5#4, 4#4, 3#4, 2#4, 1#4].flatMap fun i => readCell (.nextRead i) (.hold .low)) ++
    readCell (.nextRead 0#4) last

/-- `READ_ACK_SEQ()` of a frame, after its byte `k` (R115, 42_checksum_frames.md R130). -/
def frameAckSeq (k : Nat) (counted : Bool) : List Micro := readBitSeq (.closeAck k counted)

/-- `SEND_ACK_SEQ(ack)` (R115), `ack` in bit 0 of `a`. -/
def sendAckSeq (a : Byte) : List Micro := writeBitSeq (ackOperand a)

/-- WBIT (R108). -/
def wbitCommand (a : Byte) (s : State) : State × Job :=
  (s.beginCommand, { todo := writeBitSeq (bitOperand a), after := [], report := .plain })

/-- RBIT (R109). -/
def rbitCommand (s : State) : State × Job :=
  (s.beginCommand, { todo := readBitSeq (.hold .low), after := [], report := .received })

/-- WBYTE (R112). -/
def wbyteCommand (x : Byte) (s : State) : State × Job :=
  (s.beginCommand, { todo := writeByteSeq x, after := [], report := .plain })

/-- RBYTE (R113). -/
def rbyteCommand (s : State) : State × Job :=
  (s.beginCommand, { todo := readByteSeq (.hold .low), after := [], report := .received })

/-- RACK (R117): `READ_ACK_SEQ()`, the flag in RESULT.DATA bit 0. -/
def rackCommand (s : State) : State × Job :=
  (s.beginCommand, { todo := readBitSeq (.hold .low), after := [], report := .ackFlag })

/-- SACK (R118). -/
def sackCommand (a : Byte) (s : State) : State × Job :=
  (s.beginCommand, { todo := sendAckSeq a, after := [], report := .plain })

/-- The meaning of WBIT (R108). -/
def execWbit (a : Byte) (s : State) : Host.Outcome State Fault Refusal :=
  runGated (gate (.wbit a) s) (wbitCommand a s) s

/-- The meaning of RBIT (R109). -/
def execRbit (s : State) : Host.Outcome State Fault Refusal :=
  runGated (gate .rbit s) (rbitCommand s) s

/-- The meaning of WBYTE (R112). -/
def execWbyte (x : Byte) (s : State) : Host.Outcome State Fault Refusal :=
  runGated (gate (.wbyte x) s) (wbyteCommand x s) s

/-- The meaning of RBYTE (R113). -/
def execRbyte (s : State) : Host.Outcome State Fault Refusal :=
  runGated (gate .rbyte s) (rbyteCommand s) s

/-- The meaning of RACK (R117). -/
def execRack (s : State) : Host.Outcome State Fault Refusal :=
  runGated (gate .rack s) (rackCommand s) s

/-- The meaning of SACK (R118). -/
def execSack (a : Byte) (s : State) : Host.Outcome State Fault Refusal :=
  runGated (gate (.sack a) s) (sackCommand a s) s

end Sys2Proof.Machine
end

