-- ==== Sys2Proof/Machine/Frames.lean ====
section
/-! DEFINITION. The frame commands RFRAME and WFRAME (42_checksum_frames.md R124 to R131). Both end with
STOP_SEQ, whether or not an earlier sub-operation failed; the first failure is the one reported (R126). -/

namespace Sys2Proof.Machine

/-- The line events of RFRAME before its STOP (R127): START, control byte, ACK read, data byte, ACK sent,
checksum byte, NACK sent. -/
def readFrameSeq (ctrl : Byte) : List Micro :=
  startSeq ++ writeByteSeq ctrl ++ frameAckSeq 0 false ++ readByteSeq (.closeByte .d) ++ sendAckSeq 1#8 ++
    readByteSeq (.closeByte .c) ++ sendAckSeq 0#8

/-- The line events of WFRAME before its STOP (R130): START, then four bytes, each with its ACK read. -/
def writeFrameSeq (ctrl addr data chk : Byte) : List Micro :=
  startSeq ++ (writeByteSeq ctrl ++ frameAckSeq 0 true) ++ (writeByteSeq addr ++ frameAckSeq 1 true) ++
    (writeByteSeq data ++ frameAckSeq 2 true) ++ (writeByteSeq chk ++ frameAckSeq 3 true)

/-- RFRAME (R127): the control byte is formed at the command's start (30_encoding.md R82). That `ctrl`, `d` and `c` are
written in the decode step, before the frame's first event, is the model's choice (log 9). -/
def rframeCommand (nib : Nibble) (s : State) : State × Job :=
  let ctrl := controlByte nib s.conf.devAddr true
  (s.setEng { s.eng with err := none, ctrl := ctrl, d := 0#8, c := 0#8 },
    { todo := readFrameSeq ctrl, after := stopSeq .timeout, report := .readFrame })

/-- WFRAME (R130): the control byte and the checksum are formed at the command's start. That `ctrl`, `c` and `acked` are
written in the decode step, before the frame's first event, is the model's choice (log 9). -/
def wframeCommand (nib : Nibble) (addr data : Byte) (s : State) : State × Job :=
  let ctrl := controlByte nib s.conf.devAddr false
  let chk := checksumWrite ctrl addr data
  (s.setEng { s.eng with err := none, ctrl := ctrl, c := chk, acked := 0#3 },
    { todo := writeFrameSeq ctrl addr data chk, after := stopSeq .timeout, report := .writeFrame })

/-- The meaning of RFRAME (R127). -/
def execRframe (nib : Nibble) (s : State) : Host.Outcome State Fault Refusal :=
  runGated (gate (.rframe nib) s) (rframeCommand nib s) s

/-- The meaning of WFRAME (R130). -/
def execWframe (nib : Nibble) (addr data : Byte) (s : State) : Host.Outcome State Fault Refusal :=
  runGated (gate (.wframe nib addr data) s) (wframeCommand nib addr data s) s

end Sys2Proof.Machine
end

