-- ==== Sys2Proof/Machine/Dispatch.lean ====
section
/-! DEFINITION. One arm per command: each calls its own meaning, which runs the command from its decode to its
`finish`. -/

namespace Sys2Proof.Machine

def exec (i : Instr) (s : State) : Host.Outcome State Fault Refusal :=
  match i with
  | .config => Sys2Proof.Machine.execConfig s
  | .deconfig => Sys2Proof.Machine.execDeconfig s
  | .start => Sys2Proof.Machine.execStart s
  | .stop => Sys2Proof.Machine.execStop s
  | .wbit a => Sys2Proof.Machine.execWbit a s
  | .rbit => Sys2Proof.Machine.execRbit s
  | .wbyte x => Sys2Proof.Machine.execWbyte x s
  | .rbyte => Sys2Proof.Machine.execRbyte s
  | .rack => Sys2Proof.Machine.execRack s
  | .sack a => Sys2Proof.Machine.execSack a s
  | .rframe nib => Sys2Proof.Machine.execRframe nib s
  | .wframe nib addr data => Sys2Proof.Machine.execWframe nib addr data s
  | .recover => Sys2Proof.Machine.execRecover s
  | .idle => Sys2Proof.Machine.execIdle s

end Sys2Proof.Machine
end

