-- ==== Sys2Proof/Machine/HostPort.lean ====
section
/-! DEFINITION. The host register port (10_state.md R21 to R27; 20_memory.md R48, R51, R55, R56): every read
and write of the 16-word window, the configuration lock, and the host bus error. -/

namespace Sys2Proof.Machine

/-- The word index of a host address: bits [5:2] (R48). -/
def wordIndex (addr : Nat) : Nat := addr / 4 % 16

/-- The access is inside the window at BASE (R48). Its first address alone decides: R48 does not say what an access
is that starts outside the window and reaches into it, and the model's choice is that it is outside (log 5). -/
def inWindow (addr : Nat) : Bool := decide (addr / 0x40 = Config.windowIndex)

/-- The access is 32 bits wide and at a multiple of 4 (R51). -/
def legalAccess (addr width : Nat) : Bool := decide (width = 4) && decide (addr % 4 = 0)

/-- RW/L registers take writes only while CFG = 0 and BUSY = 0 (R21, R27). -/
def locked (s : State) : Bool := s.status.cfg || s.status.busy

/-- A read of LINE (10_state.md R26): the outputs, and a draw of each input, SCL first (log 16); no line event. -/
def readLine (s : State) : Word × State :=
  let l := levelSCL s
  let m := levelSDA l.2
  (lineWord s.sclO s.sdaO l.1 m.1, m.2)

/-- A read of word `idx` of the window, with the state it leaves (R21, R56): only LINE has a side effect. -/
def readWindow (idx : Nat) (s : State) : Word × State :=
  match idx with
  | 0 => (s.cmd, s)
  | 1 => (statusWord s.status, s)
  | 2 => (resultWord s.result, s)
  | 3 => (s.detail, s)
  | 4 => readLine s
  | 8 => (s.conf.tLow, s)
  | 9 => (s.conf.tHigh, s)
  | 10 => (s.conf.tStartHold, s)
  | 11 => (s.conf.tStopHold, s)
  | 12 => (s.conf.tBitTo, s)
  | 13 => (s.conf.tByteTo, s)
  | 14 => (s.conf.devAddr.zeroExtend 32, s)
  | _ => (0#32, s)

/-- A write to CMD (10_state.md R22): accepted while BUSY = 0, else dropped with OVR set. -/
def writeCmd (w : Word) (s : State) : State :=
  if s.status.busy then { s with status := { s.status with ovr := true } } else s.accept w

/-- A write to STATUS (10_state.md R23): a 1 in bit 2 clears OVR, and nothing else changes. -/
def writeStatus (w : Word) (s : State) : State :=
  if w.getLsbD 2 then { s with status := { s.status with ovr := false } } else s

/-- The configuration registers after a write to word `idx` (10_state.md R27). -/
def writeConf (idx : Nat) (w : Word) (c : Conf) : Conf :=
  match idx with
  | 8 => { c with tLow := w }
  | 9 => { c with tHigh := w }
  | 10 => { c with tStartHold := w }
  | 11 => { c with tStopHold := w }
  | 12 => { c with tBitTo := w }
  | 13 => { c with tByteTo := w }
  | 14 => { c with devAddr := w.truncate 8 }
  | _ => c

/-- A write to word `idx` of the window (R21, R56): RESULT, DETAIL, LINE and reserved words ignore it. -/
def writeWindow (idx : Nat) (w : Word) (s : State) : State :=
  match idx with
  | 0 => writeCmd w s
  | 1 => writeStatus w s
  | _ => if locked s then s else { s with conf := writeConf idx w s.conf }

/-- The host bus error (R51, R153): the access does not complete, the error is signalled to the host bus, and the
block goes on as it was (log 18). -/
def hostBusError (addr width : Nat) (s : State) : Host.Outcome State Fault Refusal :=
  .fault (.hostBusError addr width { s with rsp := .busError })

/-- One host access (R48, R51, R56). Outside the window it does not reach the block (log 5); a bad width or
alignment is a host bus error. -/
def hostAccess (a : Access) (s : State) : Host.Outcome State Fault Refusal :=
  match a with
  | .read addr width =>
    if inWindow addr = false then .next { s with rsp := .notSelected }
    else if legalAccess addr width = false then hostBusError addr width s
    else
      let r := readWindow (wordIndex addr) s
      .next { r.2 with rsp := .readData r.1 }
  | .write addr width v =>
    if inWindow addr = false then .next { s with rsp := .notSelected }
    else if legalAccess addr width = false then hostBusError addr width s
    else .next { writeWindow (wordIndex addr) v s with rsp := .writeDone }

end Sys2Proof.Machine
end

