-- ==== Sys2Proof/Machine/Turns.lean ====
section
/-! DEFINITION. The turns of the total order (20_memory.md R60; 40_framing_engine.md R91): one engine step, an
undisturbed run of the engine to the end of its command, a host access, an assertion of RST. -/

namespace Sys2Proof.Machine

/-- The state a decoded command starts its line events in, and its job. -/
def commandOf : Instr → State → State × Job
  | .config, s => configCommand s
  | .deconfig, s => deconfigCommand s
  | .start, s => startCommand s
  | .stop, s => stopCommand s
  | .wbit a, s => wbitCommand a s
  | .rbit, s => rbitCommand s
  | .wbyte x, s => wbyteCommand x s
  | .rbyte, s => rbyteCommand s
  | .rack, s => rackCommand s
  | .sack a, s => sackCommand a s
  | .rframe nib, s => rframeCommand nib s
  | .wframe nib addr data, s => wframeCommand nib addr data s
  | .recover, s => recoverCommand s
  | .idle, s => idleCommand s

/-- The decode step (30_encoding.md R70): it finishes a refused word or command, else the command's line events
are next. What a command's rule assigns before its first event is assigned in this step, by the model's choice
(log 9). -/
def decodeStep (s : State) : State :=
  match s.fetch with
  | .error _ => refuseWord s
  | .ok i =>
    match gate i s with
    | some f => finish f.kind f.detail {} s
    | none =>
      let c := commandOf i s
      c.1.setPhase (.run c.2.todo c.2.after c.2.report)

/-- One engine step (R91): only while BUSY = 1. -/
def engineStep (s : State) : State :=
  if s.status.busy then
    match s.eng.phase with
    | .idle => s
    | .decode => decodeStep s
    | .run todo after report => advance todo after report s
  else s

/-- The engine runs undisturbed to the `finish` of its command (log 7): a command about to be decoded runs as
`exec` says, one under way goes on from where it is. -/
def runTurn (s : State) : Host.Outcome State Fault Refusal :=
  if s.status.busy then
    match s.eng.phase with
    | .idle => .next s
    | .decode =>
      match s.fetch with
      | .error _ => .next (refuseWord s)
      | .ok i => exec i s
    | .run todo after report => .next (runJob { todo := todo, after := after, report := report } s)
  else .next s

/-- One turn. -/
def takeTurn (t : Turn) (s : State) : Host.Outcome State Fault Refusal :=
  match t with
  | .host a => hostAccess a s
  | .engine => .next (engineStep s)
  | .run => runTurn s
  | .rst => .next s.assertRst

/-- The next turn in `sched`; when none is left, the engine runs undisturbed (log 6). -/
def nextTurn (s : State) : Host.Outcome State Fault Refusal :=
  match s.sched with
  | [] => runTurn s
  | t :: ts => takeTurn t { s with sched := ts }

/-- The state in which the machine goes on after an outcome from `s`: a host bus error is a fault of the host agent,
and the block goes on (60_exceptions.md R153, log 18). -/
def afterOutcome (s : State) : Host.Outcome State Fault Refusal → State
  | .next t => t
  | .fault (.hostBusError _ _ block) => block
  | .refused _ => s

/-- The next turn, whatever its outcome: the turns after a host bus error are taken as if the access had not been
(R153). -/
def proceed (s : State) : State := afterOutcome s (nextTurn s)

/-- A command word accepted and nothing else scheduled: the very next step decodes and runs it. -/
def placeCommand (w : Word) (s : State) : State := ({ s with sched := [] }).accept w

end Sys2Proof.Machine
end

