-- ==== Sys2Proof/Machine/HostProgram.lean ====
section
/-! DEFINITION. Host programs as turns (30_encoding.md R75, R76): the block sees only these accesses. Branches
on a result are the host's own (60_exceptions.md R167). -/

namespace Sys2Proof.Machine

/-- `WR off, v` (R75). -/
def wr (off : Nat) (v : Word) : Turn := .host (.write (Config.base + off) 4 v)

/-- `RD off` (R75). -/
def rd (off : Nat) : Turn := .host (.read (Config.base + off) 4)

/-- `WAIT` (R75): the engine runs until BUSY = 0, and the host reads STATUS (log 15). -/
def waitIdle : List Turn := [.run, rd 0x04]

/-- A command mnemonic: `WR 0x00, <word>` followed by `WAIT` (R75). -/
def issue (i : Instr) : List Turn := wr 0x00 (encode i) :: waitIdle

/-- `SETCFG` (R76): the seven configuration registers, then CONFIG. -/
def setCfg (c : Conf) : List Turn :=
  [ wr 0x20 c.tLow, wr 0x24 c.tHigh, wr 0x28 c.tStartHold, wr 0x2C c.tStopHold, wr 0x30 c.tBitTo,
    wr 0x34 c.tByteTo, wr 0x38 (c.devAddr.zeroExtend 32) ] ++ issue .config

/-- The commands of `RFRAME_RAW n` (R76), `ctrl` being the control byte the host forms. -/
def rframeRawCommands (ctrl : Byte) : List Instr :=
  [.start, .wbyte ctrl, .rack, .rbyte, .sack 1#8, .rbyte, .sack 0#8, .stop]

/-- `RFRAME_RAW n` (R76) for the device address `dev`. -/
def rframeRaw (nib : Nibble) (dev : Byte) : List Turn :=
  (rframeRawCommands (controlByte nib dev true)).flatMap issue

/-- `RU16 lo, hi` (R76): the low command first. -/
def ru16 (lo hi : Nibble) : List Turn :=
  issue (.rframe lo) ++ [rd 0x08] ++ issue (.rframe hi) ++ [rd 0x08]

/-- The value of `RU16` from its two data bytes: `L | (H << 8)` (R76, 20_memory.md R53). -/
def ru16Value (l h : Byte) : BitVec 16 := h ++ l

/-- Turns taken one after another, up to the first fault or refusal. -/
def perform : List Turn → State → Host.Outcome State Fault Refusal
  | [], s => .next s
  | t :: ts, s =>
    match takeTurn t s with
    | .next s' => perform ts s'
    | .fault r => .fault r
    | .refused r => .refused r

/-- Go on with a host program after the outcome of its first part. -/
def andThen (o : Host.Outcome State Fault Refusal) (f : State → Host.Outcome State Fault Refusal) :
    Host.Outcome State Fault Refusal :=
  match o with
  | .next s => f s
  | .fault r => .fault r
  | .refused r => .refused r

/-- The idle flag that IDLE and RECOVER leave in RESULT.DATA bit 0 (43_control_recovery.md R143). -/
def reportsIdle (s : State) : Bool := s.result.data.getLsbD 0

/-- `IDLE_OR_RECOVER` (R76, 43_control_recovery.md R146): IDLE; if not idle, RECOVER and IDLE. -/
def idleOrRecover (s : State) : Host.Outcome State Fault Refusal :=
  andThen (perform (issue .idle) s) fun t =>
    if reportsIdle t then .next t else perform (issue .recover ++ issue .idle) t

/-- Steps 1 to 4 of the boot sequence (70_reset_and_hazards.md R174): SETCFG; if it finished `Ok`,
IDLE_OR_RECOVER; if the bus is still not idle, DECONFIG. -/
def boot (c : Conf) (s : State) : Host.Outcome State Fault Refusal :=
  andThen (perform (setCfg c) s) fun t =>
    if t.status.kind = .ok then
      andThen (idleOrRecover t) fun u => if reportsIdle u then .next u else perform (issue .deconfig) u
    else .next t

end Sys2Proof.Machine
end

