-- ==== Sys2Proof/Machine/Wire.lean ====
section
/-! DEFINITION. What a command's rule puts on the line trace, in the shorthands of 95_test_vectors.md (`ST`,
`SP`, `W(b)`, `R(v)`, `WB(x)`, `RB(x)`, `P`), each with the number of poll delays its wait takes; and what the
bus environment must have in store for it. The model does not use these: claims do. -/

namespace Sys2Proof.Machine

/-- A bounded wait that sees SCL high after `k` poll delays (40_framing_engine.md R93, R94). -/
def waitTrace (k : Nat) : List LineEvent :=
  (List.replicate k [LineEvent.sampleSCL false, LineEvent.delay 1]).flatten ++ [LineEvent.sampleSCL true]

/-- A bounded wait that samples SCL low `k + 1` times, with `k` poll delays between (R106). -/
def stuckTrace (k : Nat) : List LineEvent :=
  (List.replicate k [LineEvent.sampleSCL false, LineEvent.delay 1]).flatten ++ [LineEvent.sampleSCL false]

/-- A bounded wait cut off by the per-byte budget after its `k`-th poll delay (41_serdes.md R114). -/
def overrunTrace (k : Nat) : List LineEvent :=
  (List.replicate k [LineEvent.sampleSCL false, LineEvent.delay 1]).flatten

/-- The samples of SCL in store for waits that see it high after `ks` poll delays, one wait after another. -/
def stretched (ks : List Nat) : List Level := ks.flatMap fun k => List.replicate k false ++ [true]

/-- A wait with a fresh accumulator that takes `k` poll delays stays within both budgets (R93). -/
def waitFits (c : Conf) (k : Nat) : Prop := k ≤ c.tBitTo.toNat ∧ k ≤ c.tByteTo.toNat

/-- The eight waits of a byte stay within the per-bit and the per-byte budget (R93, 41_serdes.md R111). -/
def byteFits (c : Conf) (ks : List Nat) : Prop :=
  ks.length = 8 ∧ (∀ k ∈ ks, k ≤ c.tBitTo.toNat) ∧ ks.sum ≤ c.tByteTo.toNat

/-- The bits of a byte in wire order, most significant first (20_memory.md R50). -/
def wireBits (x : Byte) : List Level :=
  [ x.getLsbD 7, x.getLsbD 6, x.getLsbD 5, x.getLsbD 4, x.getLsbD 3, x.getLsbD 2, x.getLsbD 1, x.getLsbD 0 ]

/-- The events of START before its wait (R98). -/
def startHead : List LineEvent := [LineEvent.driveSDA true, LineEvent.driveSCL true]

/-- `ST` (R98). -/
def startTrace (c : Conf) (k : Nat) : List LineEvent :=
  startHead ++ waitTrace k ++
    [LineEvent.delay c.tStartHold.toNat, LineEvent.driveSDA false, LineEvent.driveSCL false,
      LineEvent.delay c.tLow.toNat]

/-- The events of STOP before its wait (R101). -/
def stopHead (c : Conf) : List LineEvent :=
  [LineEvent.driveSDA false, LineEvent.delay c.tStopHold.toNat, LineEvent.driveSCL true]

/-- The events of STOP after its wait (R101). -/
def stopTail (c : Conf) : List LineEvent :=
  [LineEvent.delay c.tStopHold.toNat, LineEvent.driveSDA true, LineEvent.delay c.tStopHold.toNat]

/-- `SP` (R101). -/
def stopTrace (c : Conf) (k : Nat) : List LineEvent := stopHead c ++ waitTrace k ++ stopTail c

/-- The events of a bit cell before its wait, SDA driven to `b` (R107). -/
def cellHead (b : Level) : List LineEvent :=
  [LineEvent.driveSDA b, LineEvent.delay Config.dataSetupUs, LineEvent.driveSCL true]

/-- `W(b)` (R107). -/
def writeCellTrace (c : Conf) (k : Nat) (b : Level) : List LineEvent :=
  cellHead b ++ waitTrace k ++
    [LineEvent.delay c.tHigh.toNat, LineEvent.driveSCL false, LineEvent.delay c.tLow.toNat]

/-- `R(v)` (R107): the sample stands `floor(T_HIGH / 2)` µs after SCL was seen high. -/
def readCellTrace (c : Conf) (k : Nat) (v : Level) : List LineEvent :=
  cellHead true ++ waitTrace k ++
    [LineEvent.delay (c.tHigh.toNat / 2), LineEvent.sampleSDA v,
      LineEvent.delay (c.tHigh.toNat - c.tHigh.toNat / 2), LineEvent.driveSCL false,
      LineEvent.delay c.tLow.toNat]

/-- `WB(x)` (R110), with the poll delays of its eight waits. -/
def writeByteTrace (c : Conf) (ks : List Nat) (x : Byte) : List LineEvent :=
  (List.zipWith (writeCellTrace c) ks (wireBits x)).flatten

/-- `RB(x)` (R110), with the poll delays of its eight waits. -/
def readByteTrace (c : Conf) (ks : List Nat) (x : Byte) : List LineEvent :=
  (List.zipWith (readCellTrace c) ks (wireBits x)).flatten

/-- `P` (43_control_recovery.md R140). -/
def pulseTrace (c : Conf) (k : Nat) : List LineEvent :=
  [LineEvent.driveSCL true] ++ waitTrace k ++
    [LineEvent.delay c.tHigh.toNat, LineEvent.driveSCL false, LineEvent.delay c.tLow.toNat]

/-- The event is a sample of SDA. -/
def LineEvent.isSampleSDA : LineEvent → Bool
  | .sampleSDA _ => true
  | .driveSCL _ => false
  | .driveSDA _ => false
  | .sampleSCL _ => false
  | .delay _ => false

/-- Along a trace that starts with SCL at `scl`, every drive of SDA happens while SCL is driven low
(30_encoding.md R77). -/
def sdaDrivenLow : Level → List LineEvent → Bool
  | _, [] => true
  | _, .driveSCL v :: es => sdaDrivenLow v es
  | scl, .driveSDA _ :: es => !scl && sdaDrivenLow scl es
  | scl, .sampleSCL _ :: es => sdaDrivenLow scl es
  | scl, .sampleSDA _ :: es => sdaDrivenLow scl es
  | scl, .delay _ :: es => sdaDrivenLow scl es

/-- The SDA samples of a trace, in order (10_state.md R30). -/
def sdaSamples : List LineEvent → List Level
  | [] => []
  | .sampleSDA v :: es => v :: sdaSamples es
  | .driveSCL _ :: es => sdaSamples es
  | .driveSDA _ :: es => sdaSamples es
  | .sampleSCL _ :: es => sdaSamples es
  | .delay _ :: es => sdaSamples es

/-- How many poll delays a trace has (40_framing_engine.md R97): `Delay` right after a low sample of SCL. No other
`Delay` stands there (R93). -/
def pollDelays : List LineEvent → Nat
  | .sampleSCL false :: .delay _ :: es => pollDelays es + 1
  | _ :: es => pollDelays es
  | [] => 0

/-- What one sample of a line takes from the bus environment (10_state.md R29, logs 1 and 2): nothing where it is
forced, else the next sample in store, else free draw number `n`. -/
def Sampled (free : Nat → Level) (forced : Bool) (store store' : List Level) (n n' : Nat) (v : Level) : Prop :=
  if forced then v = false ∧ store' = store ∧ n' = n
  else
    match store with
    | x :: xs => v = x ∧ store' = xs ∧ n' = n
    | [] => v = free n ∧ store' = [] ∧ n' = n + 1

/-- The detail of a wait that exceeds the per-byte budget: `T_BYTE_TO + 1` (40_framing_engine.md R94), saturated
(10_state.md R25). -/
def overrunDetail (c : Conf) : Word :=
  if c.tByteTo = 0xFFFFFFFF#32 then 0xFFFFFFFF#32 else c.tByteTo + 1#32

/-- How many times SCL is sampled in a trace (40_framing_engine.md R94). -/
def sclSamples : List LineEvent → Nat
  | [] => 0
  | .sampleSCL _ :: es => sclSamples es + 1
  | .driveSCL _ :: es => sclSamples es
  | .driveSDA _ :: es => sclSamples es
  | .sampleSDA _ :: es => sclSamples es
  | .delay _ :: es => sclSamples es

/-- The levels of SDA driven in a trace, in order (41_serdes.md R120). -/
def sdaLevels : List LineEvent → List Level
  | [] => []
  | .driveSDA v :: es => v :: sdaLevels es
  | .driveSCL _ :: es => sdaLevels es
  | .sampleSCL _ :: es => sdaLevels es
  | .sampleSDA _ :: es => sdaLevels es
  | .delay _ :: es => sdaLevels es

end Sys2Proof.Machine
end

