-- ==== Sys2Proof/Safety.lean ====
section
/-! DEFINITION. What claims say of a state: the kinds the block writes, the legal configuration, what a command
leaves alone, and the invariant every step keeps. -/

namespace Sys2Proof.Machine

/-- The kinds the block writes (60_exceptions.md R149, R150). -/
def Kind.written : Kind → Bool
  | .ok => true
  | .notInitialized => true
  | .invalidConfig => true
  | .busError => false
  | .timeout => true
  | .invalidParam => true
  | .deviceNotFound => false
  | .checksumMismatch => true
  | .nack => true
  | .busy => false
  | .inProgress => false
  | .busStuck => true
  | .alreadyInitialized => true
  | .outOfRange => false
  | .notSupported => false

/-- A legal configuration (10_state.md R28), over the registers' numeric values. -/
def ConfigLegal (c : Conf) : Prop :=
  100 ≤ c.tLow.toNat ∧ 100 ≤ c.tHigh.toNat ∧ 4 ≤ c.tStartHold.toNat ∧ 4 ≤ c.tStopHold.toNat ∧
    0 < c.tBitTo.toNat ∧ 0 < c.tByteTo.toNat ∧ c.tBitTo.toNat ≤ c.tByteTo.toNat ∧ c.devAddr.toNat ≤ 7

/-- The completion record that a `finish` leaves (00_scope.md R10, 60_exceptions.md R155): KIND, LASTOP, DETAIL,
RESULT, and BUSY cleared. -/
def State.withRecord (s : State) (k : Kind) (detail : Word) (r : Result) : State :=
  { s with
    status := { s.status with busy := false, kind := k, lastop := s.eng.op }, result := r, detail := detail }

/-- The engine after a `finish`: idle, no failure kept, the fields of the command word as latched (R31). -/
def Engine.Settled (e before : Engine) : Prop :=
  e.phase = .idle ∧ e.err = none ∧ e.op = before.op ∧ e.nib = before.nib ∧ e.a = before.a ∧ e.b = before.b

/-- The frame bytes of the engine are as before: only frame commands change them (R31). -/
def Engine.KeepsFrameBytes (e before : Engine) : Prop :=
  e.ctrl = before.ctrl ∧ e.d = before.d ∧ e.c = before.c ∧ e.acked = before.acked

/-- Commands executed one after another, each from the state the one before left, as long as each finishes
`Ok`. -/
def execAll : List Instr → State → Option State
  | [], s => some s
  | i :: is, s =>
    match exec i s with
    | .next t => if t.status.kind = .ok then execAll is t else none
    | .fault _ => none
    | .refused _ => none

/-- What no command changes: CMD, OVR, the configuration registers, the turns to come, the host's response. -/
def HostSideKept (s t : State) : Prop :=
  t.cmd = s.cmd ∧ t.status.ovr = s.status.ovr ∧ t.conf = s.conf ∧ t.sched = s.sched ∧ t.rsp = s.rsp

/-- What a command's failure may be while its line events run (60_exceptions.md R154 item 4). -/
def Kind.ofLineEvents : Kind → Bool
  | .ok => false
  | .notInitialized => false
  | .invalidConfig => false
  | .busError => false
  | .timeout => true
  | .invalidParam => false
  | .deviceNotFound => false
  | .checksumMismatch => false
  | .nack => true
  | .busy => false
  | .inProgress => false
  | .busStuck => true
  | .alreadyInitialized => false
  | .outOfRange => false
  | .notSupported => false

/-- Where the engine may stand in a command that runs: CONFIG has no line event and an unconfigured block;
DECONFIG releases SCL, then SDA; every other command has a configured block. -/
def RunCoherent (s : State) (todo after : List Micro) (report : Report) : Prop :=
  match report with
  | .configCheck => todo = [] ∧ after = [] ∧ s.status.cfg = false
  | .unconfigure =>
    after = [] ∧
      (todo = [.driveSCL true, .driveSDA true] ∨ (todo = [.driveSDA true] ∧ s.sclO = true) ∨
        (todo = [] ∧ s.sclO = true ∧ s.sdaO = true))
  | _ => s.status.cfg = true

/-- The engine's phase agrees with BUSY, with the failure kept, and with CFG (10_state.md R23, R31). -/
def PhaseCoherent (s : State) : Prop :=
  match s.eng.phase with
  | .idle => s.status.busy = false ∧ s.eng.err = none
  | .decode => s.status.busy = true ∧ s.eng.err = none
  | .run todo after report => s.status.busy = true ∧ RunCoherent s todo after report

/-- The invariant of the block: the phase is coherent; a configured block has a legal configuration
(30_encoding.md R82); an unconfigured block has released both lines (43_control_recovery.md R139); KIND is one
the block writes (60_exceptions.md R150), and so is a failure kept. -/
structure Inv (s : State) : Prop where
  phase : PhaseCoherent s
  legal : s.status.cfg = true → ConfigLegal s.conf
  released : s.status.cfg = false → s.sclO = true ∧ s.sdaO = true
  kind : s.status.kind.written = true
  failure : ∀ f, s.eng.err = some f → f.kind.ofLineEvents = true

end Sys2Proof.Machine
end

