-- ==== Sys2Proof/Certificates/Slice0/Obligations.lean ====
section
/-! DEFINITION. The statements for the provers, from the numbered rules of spec/. A statement about a command
says what `exec` answers from a state in which the command's word has been accepted; `{ s.withRecord … with … }`
says that every field it does not name is as in `s`. In every statement, what is said of the engine's internal
fields after a `finish` (`Engine.Settled`, `Engine.KeepsFrameBytes`) rests on log 11, and what is said of the
samples in store (`env`), of the turns to come (`sched`) and of the host's response (`rsp`) on logs 1, 2 and 6:
these clauses are the model's choice and formalise no rule. -/

open Sys2Proof Sys2Proof.Machine

/-! ### The command word -/

/-- R71, R75: every well-formed command is read back from its own word, with every operand. -/
def Obligations.DecodeInvertsEncode : Prop :=
  ∀ i : Instr, i.wellFormed = true → decode (encode i) = .ok i

/-- R71: a decoded word is the word of the well-formed command it decodes to, so no two words share a command. -/
def Obligations.DecodedWordIsItsEncoding : Prop :=
  ∀ (w : Word) (i : Instr), decode w = .ok i → i.wellFormed = true ∧ encode i = w

/-- R71, R73: a word is decoded exactly when it matches a row of the opcode map, refused as a reserved opcode
exactly when OP is 0x0 or 0xF, and refused for unused bits otherwise. -/
def Obligations.DecoderFollowsOpcodeMap : Prop :=
  ∀ w : Word,
    ((∃ i, decode w = .ok i) ↔ ∃ r ∈ opcodeRows, w &&& r.mask = r.value) ∧
    (decode w = .error .reservedOpcode ↔ opOf w = 0x0#4 ∨ opOf w = 0xF#4) ∧
    (decode w = .error .unusedBits ↔
      (opOf w ≠ 0x0#4 ∧ opOf w ≠ 0xF#4) ∧ ∀ r ∈ opcodeRows, w &&& r.mask ≠ r.value)

/-- Words of 95_test_vectors.md, one per family, decode to the commands they stand for. -/
def Obligations.WorkedWordsDecode : Prop :=
  decode 0x00000001#32 = .ok .config ∧ decode 0x00000003#32 = .ok .start ∧
  decode 0x00000105#32 = .ok (.wbit 1#8) ∧ decode 0x00007107#32 = .ok (.wbyte 0x71#8) ∧
  decode 0x0000010A#32 = .ok (.sack 1#8) ∧ decode 0x000000FB#32 = .ok (.rframe 0xF#4) ∧
  decode 0x0055101C#32 = .ok (.wframe 0x1#4 0x10#8 0x55#8) ∧ decode 0x0000000D#32 = .ok .recover

/-! ### Steps and words -/

/-- R22, R70: at an accepted word that decodes to `i`, the engine runs `i`. That ONE step, a run turn or a step with
nothing scheduled, is the whole of `exec i` is the model's choice (log 7, with the turns of log 6): an engine step
of the spec is one line event. With nothing scheduled, step is `exec i`; with a run turn scheduled first, it is
`exec i` from the state without that turn. -/
def Obligations.StepRunsDecodedCommand : Prop :=
  ∀ (s : State) (i : Instr), s.status.busy = true → s.eng.phase = .decode → decode s.cmd = .ok i →
    (s.sched = [] → step s = exec i s) ∧
    (∀ ts, s.sched = .run :: ts → step s = exec i { s with sched := ts })

/-- R145: a reserved opcode, or a word that matches no row, finishes `InvalidParam` with the word as DETAIL,
RESULT 0, no line event and CFG as before. -/
def Obligations.RefusedWordFinishesInvalidParam : Prop :=
  ∀ s : State, s.status.busy = true → s.eng.phase = .decode → s.sched = [] →
    ((opOf s.cmd = 0x0#4 ∨ opOf s.cmd = 0xF#4) ∨ ∀ r ∈ opcodeRows, s.cmd &&& r.mask ≠ r.value) →
    ∃ e : Engine, e.Settled s.eng ∧ e.KeepsFrameBytes s.eng ∧
      step s = .next { s.withRecord .invalidParam s.cmd {} with eng := e }

/-- R70, R73, R154, R175: what the gate refuses, in its order, each with RESULT 0 and no line event. A CONFIG of a
configured block finishes `AlreadyInitialized`, whatever the registers hold; a well-formed command other than CONFIG
and DECONFIG on a block that is not configured finishes `NotInitialized`. What `exec` says of WBIT and SACK with any
of A[7:1] set, `InvalidParam` with CMD as detail, configured or not, whatever word CMD holds, is the model's choice
(log 17): the decoder refuses every word with such an operand. -/
def Obligations.GateRefusesInOrder : Prop :=
  ∀ s : State, ∃ e : Engine, e.Settled s.eng ∧ e.KeepsFrameBytes s.eng ∧
    (∀ a : Byte, 2 ≤ a.toNat →
      exec (.wbit a) s = .next { s.withRecord .invalidParam s.cmd {} with eng := e } ∧
      exec (.sack a) s = .next { s.withRecord .invalidParam s.cmd {} with eng := e }) ∧
    (s.status.cfg = true →
      exec .config s = .next { s.withRecord .alreadyInitialized 0#32 {} with eng := e }) ∧
    (s.status.cfg = false → ∀ i : Instr, i.wellFormed = true → i ≠ .config → i ≠ .deconfig →
      exec i s = .next { s.withRecord .notInitialized 0#32 {} with eng := e })

/-! ### CONFIG and DECONFIG -/

/-- R136: CONFIG of an unconfigured block with a legal configuration sets CFG and finishes `Ok`. -/
def Obligations.ConfigAcceptsLegalConfiguration : Prop :=
  ∀ s : State, s.status.cfg = false → ConfigLegal s.conf →
    ∃ e : Engine, e.Settled s.eng ∧ e.KeepsFrameBytes s.eng ∧
      exec .config s =
        .next { s.withRecord .ok 0#32 {} with
          status := { busy := false, cfg := true, ovr := s.status.ovr, kind := .ok, lastop := s.eng.op }
          eng := e }

/-- R136: CONFIG of an unconfigured block with an illegal configuration leaves CFG 0 and finishes
`InvalidConfig` with the mask of ALL failed checks as detail. -/
def Obligations.ConfigReportsEveryFailedCheck : Prop :=
  ∀ s : State, s.status.cfg = false → ¬ ConfigLegal s.conf →
    ∃ (e : Engine) (f : Byte), e.Settled s.eng ∧ e.KeepsFrameBytes s.eng ∧
      (f.getLsbD 0 = true ↔ s.conf.tLow.toNat < 100) ∧ (f.getLsbD 1 = true ↔ s.conf.tHigh.toNat < 100) ∧
      (f.getLsbD 2 = true ↔ s.conf.tStartHold.toNat < 4) ∧ (f.getLsbD 3 = true ↔ s.conf.tStopHold.toNat < 4) ∧
      (f.getLsbD 4 = true ↔ s.conf.tBitTo.toNat = 0) ∧ (f.getLsbD 5 = true ↔ s.conf.tByteTo.toNat = 0) ∧
      (f.getLsbD 6 = true ↔ s.conf.tByteTo.toNat < s.conf.tBitTo.toNat) ∧
      (f.getLsbD 7 = true ↔ 7 < s.conf.devAddr.toNat) ∧
      exec .config s = .next { s.withRecord .invalidConfig (f.zeroExtend 32) {} with eng := e }

/-- R137: the corner cases of the checks, and the CONFIG right after reset. -/
def Obligations.ConfigCornerCases : Prop :=
  (∀ c : Conf,
    (c.tLow = 99#32 → (configFaults c).getLsbD 0 = true) ∧
    (c.tLow = 100#32 → (configFaults c).getLsbD 0 = false) ∧
    (c.tBitTo = c.tByteTo → (configFaults c).getLsbD 6 = false) ∧
    (c.tBitTo = 0#32 → c.tByteTo = 0#32 →
      (configFaults c).getLsbD 4 = true ∧ (configFaults c).getLsbD 5 = true ∧
        (configFaults c).getLsbD 6 = false) ∧
    (c.devAddr = 7#8 → (configFaults c).getLsbD 7 = false) ∧
    (c.devAddr = 8#8 → (configFaults c).getLsbD 7 = true)) ∧
  ∃ t, exec .config (State.reset.accept 0x00000001#32) = .next t ∧ t.status.kind = .invalidConfig ∧
    t.detail = 0x3F#32 ∧ t.status.cfg = false

/-- R138, R139: DECONFIG, configured or not, releases SCL, then SDA, clears CFG, keeps the configuration
registers, and finishes `Ok`. -/
def Obligations.DeconfigReleasesAndUnconfigures : Prop :=
  ∀ s : State, ∃ e : Engine, e.Settled s.eng ∧ e.KeepsFrameBytes s.eng ∧
    exec .deconfig s =
      .next { s.withRecord .ok 0#32 {} with
        status := { busy := false, cfg := false, ovr := s.status.ovr, kind := .ok, lastop := s.eng.op }
        sclO := true, sdaO := true
        trace := s.trace ++ [LineEvent.driveSCL true, LineEvent.driveSDA true]
        eng := e }

/-! ### START and STOP -/

/-- R98, R99: START whose clock rises after `k` poll delays within the budgets. -/
def Obligations.StartCompletes : Prop :=
  ∀ (s : State) (k : Nat) (rest : List Level), s.status.cfg = true → waitFits s.conf k →
    s.env.scl = stretched [k] ++ rest →
    ∃ e : Engine, e.Settled s.eng ∧ e.KeepsFrameBytes s.eng ∧
      exec .start s =
        .next { s.withRecord .ok 0#32 {} with
          sclO := false, sdaO := false
          trace := s.trace ++ startTrace s.conf k
          env := { s.env with scl := rest }, eng := e }

/-- R101, R102, R103: STOP whose clock rises after `k` poll delays within the budgets releases both lines. -/
def Obligations.StopCompletes : Prop :=
  ∀ (s : State) (k : Nat) (rest : List Level), s.status.cfg = true → waitFits s.conf k →
    s.env.scl = stretched [k] ++ rest →
    ∃ e : Engine, e.Settled s.eng ∧ e.KeepsFrameBytes s.eng ∧
      exec .stop s =
        .next { s.withRecord .ok 0#32 {} with
          sclO := true, sdaO := true
          trace := s.trace ++ stopTrace s.conf k
          env := { s.env with scl := rest }, eng := e }

/-- R93, R99, R102: START and STOP whose clock stays low for `T_BIT_TO` poll delays finish `Timeout` with detail
`T_BIT_TO`, SCL released, SDA as driven before the wait. -/
def Obligations.StartAndStopTimeOut : Prop :=
  ∀ (s : State) (rest : List Level), s.status.cfg = true → s.conf.tBitTo.toNat ≤ s.conf.tByteTo.toNat →
    s.env.scl = List.replicate (s.conf.tBitTo.toNat + 1) false ++ rest →
    ∃ e : Engine, e.Settled s.eng ∧ e.KeepsFrameBytes s.eng ∧
      exec .start s =
        .next { s.withRecord .timeout s.conf.tBitTo {} with
          sclO := true, sdaO := true
          trace := s.trace ++ (startHead ++ stuckTrace s.conf.tBitTo.toNat)
          env := { s.env with scl := rest }, eng := e } ∧
      exec .stop s =
        .next { s.withRecord .timeout s.conf.tBitTo {} with
          sclO := true, sdaO := false
          trace := s.trace ++ (stopHead s.conf ++
            stuckTrace s.conf.tBitTo.toNat)
          env := { s.env with scl := rest }, eng := e }

/-! ### Bits, bytes and ACK cycles -/

/-- R107, R108: WBIT sends bit 0 of its operand in one write cell and leaves SDA at it. -/
def Obligations.WbitCompletes : Prop :=
  ∀ (s : State) (a : Byte) (k : Nat) (rest : List Level), s.status.cfg = true → a.toNat < 2 →
    waitFits s.conf k → s.env.scl = stretched [k] ++ rest →
    ∃ e : Engine, e.Settled s.eng ∧ e.KeepsFrameBytes s.eng ∧
      exec (.wbit a) s =
        .next { s.withRecord .ok 0#32 {} with
          sclO := false, sdaO := a.getLsbD 0
          trace := s.trace ++ writeCellTrace s.conf k (a.getLsbD 0)
          env := { s.env with scl := rest }, eng := e }

/-- R107, R109: RBIT reports the SDA level sampled at the midpoint of the high phase. -/
def Obligations.RbitCompletes : Prop :=
  ∀ (s : State) (k : Nat) (v : Level) (rest rest' : List Level), s.status.cfg = true →
    waitFits s.conf k → s.env.scl = stretched [k] ++ rest → s.env.sda = v :: rest' →
    ∃ e : Engine, e.Settled s.eng ∧ e.KeepsFrameBytes s.eng ∧
      exec .rbit s =
        .next { s.withRecord .ok 0#32 { data := if v then 1#8 else 0#8 } with
          sclO := false, sdaO := true
          trace := s.trace ++ readCellTrace s.conf k v
          env := { s.env with scl := rest, sda := rest' }, eng := e }

/-- R110, R111, R112: WBYTE sends its byte most significant bit first; the eight waits share the per-byte
budget. -/
def Obligations.WbyteCompletes : Prop :=
  ∀ (s : State) (x : Byte) (ks : List Nat) (rest : List Level), s.status.cfg = true → byteFits s.conf ks →
    s.env.scl = stretched ks ++ rest →
    ∃ e : Engine, e.Settled s.eng ∧ e.KeepsFrameBytes s.eng ∧
      exec (.wbyte x) s =
        .next { s.withRecord .ok 0#32 {} with
          sclO := false, sdaO := x.getLsbD 0
          trace := s.trace ++ writeByteTrace s.conf ks x
          env := { s.env with scl := rest }, eng := e }

/-- R110, R111, R113: RBYTE reports the byte whose bits, most significant first, are the SDA samples. -/
def Obligations.RbyteCompletes : Prop :=
  ∀ (s : State) (x : Byte) (ks : List Nat) (rest rest' : List Level), s.status.cfg = true →
    byteFits s.conf ks → s.env.scl = stretched ks ++ rest → s.env.sda = wireBits x ++ rest' →
    ∃ e : Engine, e.Settled s.eng ∧ e.KeepsFrameBytes s.eng ∧
      exec .rbyte s =
        .next { s.withRecord .ok 0#32 { data := x } with
          sclO := false, sdaO := true
          trace := s.trace ++ readByteTrace s.conf ks x
          env := { s.env with scl := rest, sda := rest' }, eng := e }

/-- R79, R115, R117: RACK reports 1 for a sampled 0 (ACK) and 0 for a sampled 1 (NACK), and finishes `Ok` in
both cases. -/
def Obligations.RackCompletes : Prop :=
  ∀ (s : State) (k : Nat) (v : Level) (rest rest' : List Level), s.status.cfg = true →
    waitFits s.conf k → s.env.scl = stretched [k] ++ rest → s.env.sda = v :: rest' →
    ∃ e : Engine, e.Settled s.eng ∧ e.KeepsFrameBytes s.eng ∧
      exec .rack s =
        .next { s.withRecord .ok 0#32 { data := if v then 0#8 else 1#8 } with
          sclO := false, sdaO := true
          trace := s.trace ++ readCellTrace s.conf k v
          env := { s.env with scl := rest, sda := rest' }, eng := e }

/-- R115, R116, R118: SACK with A = 1 drives SDA low in the ninth clock and leaves it low; with A = 0 it leaves
SDA released. -/
def Obligations.SackCompletes : Prop :=
  ∀ (s : State) (a : Byte) (k : Nat) (rest : List Level), s.status.cfg = true → a.toNat < 2 →
    waitFits s.conf k → s.env.scl = stretched [k] ++ rest →
    ∃ e : Engine, e.Settled s.eng ∧ e.KeepsFrameBytes s.eng ∧
      exec (.sack a) s =
        .next { s.withRecord .ok 0#32 {} with
          sclO := false, sdaO := !a.getLsbD 0
          trace := s.trace ++ writeCellTrace s.conf k (!a.getLsbD 0)
          env := { s.env with scl := rest }, eng := e }

/-- R93, R95, R108, R109, R117, R118: a one-bit command whose clock stays low for `T_BIT_TO` poll delays
finishes `Timeout` with detail `T_BIT_TO` and RESULT 0, SCL released and SDA as driven; no STOP follows. -/
def Obligations.BitCommandsTimeOut : Prop :=
  ∀ (s : State) (a : Byte) (rest : List Level), s.status.cfg = true → a.toNat < 2 →
    s.conf.tBitTo.toNat ≤ s.conf.tByteTo.toNat →
    s.env.scl = List.replicate (s.conf.tBitTo.toNat + 1) false ++ rest →
    ∀ i b, (i, b) ∈ [(Instr.wbit a, a.getLsbD 0), (Instr.rbit, true), (Instr.rack, true),
        (Instr.sack a, !a.getLsbD 0)] →
      ∃ e : Engine, e.Settled s.eng ∧ e.KeepsFrameBytes s.eng ∧
        exec i s =
          .next { s.withRecord .timeout s.conf.tBitTo {} with
            sclO := true, sdaO := b
            trace := s.trace ++ (cellHead b ++
              stuckTrace s.conf.tBitTo.toNat)
            env := { s.env with scl := rest }, eng := e }

/-- R93, R94, R111, R112, R113: bits 7 to `8 - ks.length` of a byte are clocked, with `ks` poll delays; the next
bit's clock stays low until the sum passes `T_BYTE_TO`. The command finishes `Timeout` with detail
`T_BYTE_TO + 1` (0xFFFF_FFFF at most) and RESULT 0, SCL released, SDA at that bit. WBYTE does so whatever SDA
samples are in store; RBYTE has sampled the bits clocked. -/
def Obligations.ByteCommandsExceedTheByteBudget : Prop :=
  ∀ (s : State) (x : Byte) (ks : List Nat) (j : Nat) (rest : List Level), s.status.cfg = true →
    ks.length < 8 → (∀ k ∈ ks, k ≤ s.conf.tBitTo.toNat) →
    ks.sum + j = s.conf.tByteTo.toNat → j < s.conf.tBitTo.toNat →
    s.env.scl = stretched ks ++ List.replicate (j + 1) false ++ rest →
    (∃ e : Engine, e.Settled s.eng ∧ e.KeepsFrameBytes s.eng ∧
      exec (.wbyte x) s =
        .next { s.withRecord .timeout (overrunDetail s.conf) {} with
          sclO := true, sdaO := x.getLsbD (7 - ks.length)
          trace := s.trace ++ (writeByteTrace s.conf ks x ++
            cellHead (x.getLsbD (7 - ks.length)) ++
            overrunTrace (j + 1))
          env := { s.env with scl := rest }, eng := e }) ∧
    ∀ rest', s.env.sda = (wireBits x).take ks.length ++ rest' →
      ∃ e : Engine, e.Settled s.eng ∧ e.KeepsFrameBytes s.eng ∧
        exec .rbyte s =
          .next { s.withRecord .timeout (overrunDetail s.conf) {} with
            sclO := true, sdaO := true
            trace := s.trace ++ (readByteTrace s.conf ks x ++
              cellHead true ++ overrunTrace (j + 1))
            env := { s.env with scl := rest, sda := rest' }, eng := e }

/-- R93, R112, R113: as before, but the stuck bit runs into the per-bit budget first: detail `T_BIT_TO`. -/
def Obligations.ByteCommandsExceedTheBitBudget : Prop :=
  ∀ (s : State) (x : Byte) (ks : List Nat) (rest : List Level), s.status.cfg = true →
    ks.length < 8 → (∀ k ∈ ks, k ≤ s.conf.tBitTo.toNat) →
    ks.sum + s.conf.tBitTo.toNat ≤ s.conf.tByteTo.toNat →
    s.env.scl = stretched ks ++ List.replicate (s.conf.tBitTo.toNat + 1) false ++ rest →
    (∃ e : Engine, e.Settled s.eng ∧ e.KeepsFrameBytes s.eng ∧
      exec (.wbyte x) s =
        .next { s.withRecord .timeout s.conf.tBitTo {} with
          sclO := true, sdaO := x.getLsbD (7 - ks.length)
          trace := s.trace ++ (writeByteTrace s.conf ks x ++
            cellHead (x.getLsbD (7 - ks.length)) ++
            stuckTrace s.conf.tBitTo.toNat)
          env := { s.env with scl := rest }, eng := e }) ∧
    ∀ rest', s.env.sda = (wireBits x).take ks.length ++ rest' →
      ∃ e : Engine, e.Settled s.eng ∧ e.KeepsFrameBytes s.eng ∧
        exec .rbyte s =
          .next { s.withRecord .timeout s.conf.tBitTo {} with
            sclO := true, sdaO := true
            trace := s.trace ++ (readByteTrace s.conf ks x ++
              cellHead true ++
              stuckTrace s.conf.tBitTo.toNat)
            env := { s.env with scl := rest, sda := rest' }, eng := e }

/-- R178: the lines each primitive command leaves, on every draw: after `Ok`, and after a `Timeout`. -/
def Obligations.PrimitivesLeaveDefinedLines : Prop :=
  ∀ s : State, s.status.cfg = true →
    (∃ t, exec .start s = .next t ∧
      ((t.status.kind = .ok ∧ t.sclO = false ∧ t.sdaO = false) ∨
        (t.status.kind = .timeout ∧ t.sclO = true ∧ t.sdaO = true))) ∧
    (∃ t, exec .stop s = .next t ∧
      ((t.status.kind = .ok ∧ t.sclO = true ∧ t.sdaO = true) ∨
        (t.status.kind = .timeout ∧ t.sclO = true ∧ t.sdaO = false))) ∧
    (∀ a : Byte, a.toNat < 2 → ∃ t, exec (.wbit a) s = .next t ∧ t.sdaO = a.getLsbD 0 ∧
      ((t.status.kind = .ok ∧ t.sclO = false) ∨ (t.status.kind = .timeout ∧ t.sclO = true))) ∧
    (∀ a : Byte, a.toNat < 2 → ∃ t, exec (.sack a) s = .next t ∧ t.sdaO = !a.getLsbD 0 ∧
      ((t.status.kind = .ok ∧ t.sclO = false) ∨ (t.status.kind = .timeout ∧ t.sclO = true))) ∧
    (∀ x : Byte, ∃ t, exec (.wbyte x) s = .next t ∧
      ((t.status.kind = .ok ∧ t.sclO = false ∧ t.sdaO = x.getLsbD 0) ∨
        (t.status.kind = .timeout ∧ t.sclO = true ∧ ∃ k < 8, t.sdaO = x.getLsbD k))) ∧
    ∀ i ∈ [Instr.rbit, Instr.rbyte, Instr.rack], ∃ t, exec i s = .next t ∧ t.sdaO = true ∧
      ((t.status.kind = .ok ∧ t.sclO = false) ∨ (t.status.kind = .timeout ∧ t.sclO = true))

/-- R77, R104: on every draw, the bit, byte and ACK commands drive SDA only while SCL is driven low when they
start with SCL low; and no START, STOP, WBIT, WBYTE or SACK samples SDA. -/
def Obligations.WireDiscipline : Prop :=
  ∀ (s t : State) (i : Instr), exec i s = .next t →
    ∃ new, t.trace = s.trace ++ new ∧
      (s.sclO = false → (∃ a, i = .wbit a) ∨ i = .rbit ∨ (∃ x, i = .wbyte x) ∨ i = .rbyte ∨ i = .rack ∨
          (∃ a, i = .sack a) →
        sdaDrivenLow false new = true) ∧
      (i = .start ∨ i = .stop ∨ (∃ a, i = .wbit a) ∨ (∃ x, i = .wbyte x) ∨ (∃ a, i = .sack a) →
        ∀ ev ∈ new, ev.isSampleSDA = false)

/-- R94, R96, R97: on every draw, the poll delays of a command are at most those of R97's table, and its samples of
SCL exceed that bound by at most one for each wait (and, in RECOVER, the sample of the idle check). A byte
that passes `T_BYTE_TO` ends with a poll delay, not with a sample, so its samples are at most `T_BYTE_TO + 8`. -/
def Obligations.WaitsAreBounded : Prop :=
  ∀ (s t : State) (i : Instr), exec i s = .next t →
    ∃ new, t.trace = s.trace ++ new ∧
      (i = .start ∨ i = .stop ∨ (∃ a, i = .wbit a) ∨ i = .rbit ∨ i = .rack ∨ (∃ a, i = .sack a) →
        pollDelays new ≤ s.conf.tBitTo.toNat ∧ sclSamples new ≤ s.conf.tBitTo.toNat + 1) ∧
      ((∃ x, i = .wbyte x) ∨ i = .rbyte →
        pollDelays new ≤ s.conf.tByteTo.toNat + 1 ∧ sclSamples new ≤ s.conf.tByteTo.toNat + 8) ∧
      ((∃ n, i = .rframe n) →
        pollDelays new ≤ 5 * s.conf.tBitTo.toNat + 3 * (s.conf.tByteTo.toNat + 1) ∧
        sclSamples new ≤ 5 * (s.conf.tBitTo.toNat + 1) + 3 * (s.conf.tByteTo.toNat + 8)) ∧
      ((∃ n a d, i = .wframe n a d) →
        pollDelays new ≤ 6 * s.conf.tBitTo.toNat + 4 * (s.conf.tByteTo.toNat + 1) ∧
        sclSamples new ≤ 6 * (s.conf.tBitTo.toNat + 1) + 4 * (s.conf.tByteTo.toNat + 8)) ∧
      (i = .recover →
        pollDelays new ≤ 10 * s.conf.tBitTo.toNat ∧ sclSamples new ≤ 10 * (s.conf.tBitTo.toNat + 1) + 1)

/-- R50, R110, R120: on every draw, a WBYTE that finishes `Ok` drives SDA to the bits of its byte in order, most
significant first; for the source's two control bytes that is 0,1,1,1,0,0,0,1 and 1,1,1,1,0,1,0,1. -/
def Obligations.SerializerSendsMostSignificantBitFirst : Prop :=
  (∀ (s t : State) (x : Byte), exec (.wbyte x) s = .next t → t.status.kind = .ok →
    ∃ new, t.trace = s.trace ++ new ∧ sdaLevels new = wireBits x) ∧
  wireBits 0x71#8 = [false, true, true, true, false, false, false, true] ∧
  wireBits 0xF5#8 = [true, true, true, true, false, true, false, true]

/-- R94, R149: with a legal configuration, a `Timeout` of a primitive command has detail `T_BIT_TO`, or, in a
byte, `T_BYTE_TO + 1` (0xFFFF_FFFF at most), on every draw. -/
def Obligations.TimeoutDetailIsABudget : Prop :=
  ∀ (s t : State) (i : Instr), s.status.cfg = true → ConfigLegal s.conf → i.wellFormed = true →
    exec i s = .next t → t.status.kind = .timeout →
    (i = .start ∨ i = .stop ∨ (∃ a, i = .wbit a) ∨ i = .rbit ∨ i = .rack ∨ (∃ a, i = .sack a) →
      t.detail = s.conf.tBitTo) ∧
    ((∃ x, i = .wbyte x) ∨ i = .rbyte →
      t.detail = s.conf.tBitTo ∨
      t.detail = overrunDetail s.conf)

/-! ### Checksums and frames -/

/-- R80, R82, R87: the bits of the control byte, and the source's two worked control bytes. -/
def Obligations.ControlByteLayout : Prop :=
  (∀ (nib : Nibble) (dev : Byte) (rw : Bool), dev.toNat ≤ 7 →
    (controlByte nib dev rw).toNat = nib.toNat * 16 + dev.toNat * 2 + (if rw then 1 else 0)) ∧
  controlByte 0x7#4 0#8 true = 0x71#8 ∧ controlByte 0xF#4 2#8 true = 0xF5#8

/-- R121: the read checksum is the sum of its operands modulo 256. -/
def Obligations.ReadChecksumIsTheSum : Prop :=
  ∀ ctrl d : Byte, (checksumRead ctrl d).toNat = (ctrl.toNat + d.toNat) % 256

/-- R122: the write checksum is the sum of its operands modulo 256. -/
def Obligations.WriteChecksumIsTheSum : Prop :=
  ∀ ctrl a d : Byte, (checksumWrite ctrl a d).toNat = (ctrl.toNat + a.toNat + d.toNat) % 256

/-- R126 to R129: RFRAME whose control byte is ACKed sends and receives the whole read frame, ends with STOP,
and finishes `Ok` when the received checksum byte is `(ctrl + d) mod 256`, else `ChecksumMismatch` with the
received byte as detail; RESULT holds data, checksum and control byte in both cases. -/
def Obligations.RframeCompletes : Prop :=
  ∀ (s : State) (nib : Nibble) (d c : Byte) (kStart kAck kAck' kNack kStop : Nat)
    (ksCtrl ksData ksChk : List Nat) (rest rest' : List Level),
    s.status.cfg = true → s.conf.devAddr.toNat ≤ 7 →
    (∀ k ∈ [kStart, kAck, kAck', kNack, kStop], waitFits s.conf k) →
    (∀ ks ∈ [ksCtrl, ksData, ksChk], byteFits s.conf ks) →
    s.env.scl = stretched ([kStart] ++ ksCtrl ++ [kAck] ++ ksData ++ [kAck'] ++ ksChk ++ [kNack, kStop]) ++ rest →
    s.env.sda = false :: (wireBits d ++ wireBits c ++ rest') →
    ∃ (e : Engine) (ctrl : Byte), ctrl.toNat = nib.toNat * 16 + s.conf.devAddr.toNat * 2 + 1 ∧
      e.Settled s.eng ∧ e.ctrl = ctrl ∧ e.d = d ∧ e.c = c ∧ e.acked = s.eng.acked ∧
      exec (.rframe nib) s =
        .next { s.withRecord
            (if c.toNat = (ctrl.toNat + d.toNat) % 256 then .ok else .checksumMismatch)
            (if c.toNat = (ctrl.toNat + d.toNat) % 256 then 0#32 else c.zeroExtend 32)
            { data := d, aux := c, ctrl := ctrl } with
          sclO := true, sdaO := true
          trace := s.trace ++ (startTrace s.conf kStart ++ writeByteTrace s.conf ksCtrl ctrl ++
            readCellTrace s.conf kAck false ++ readByteTrace s.conf ksData d ++
            writeCellTrace s.conf kAck' false ++ readByteTrace s.conf ksChk c ++
            writeCellTrace s.conf kNack true ++ stopTrace s.conf kStop)
          env := { s.env with scl := rest, sda := rest' }, eng := e }

/-- R126, R129: RFRAME whose control byte is not ACKed sends no more bytes, ends with STOP, and finishes `Nack`
with detail 0 and only CTRL in RESULT. -/
def Obligations.RframeNackStops : Prop :=
  ∀ (s : State) (nib : Nibble) (kStart kAck kStop : Nat) (ksCtrl : List Nat) (rest rest' : List Level),
    s.status.cfg = true → s.conf.devAddr.toNat ≤ 7 →
    (∀ k ∈ [kStart, kAck, kStop], waitFits s.conf k) → byteFits s.conf ksCtrl →
    s.env.scl = stretched ([kStart] ++ ksCtrl ++ [kAck, kStop]) ++ rest → s.env.sda = true :: rest' →
    ∃ (e : Engine) (ctrl : Byte), ctrl.toNat = nib.toNat * 16 + s.conf.devAddr.toNat * 2 + 1 ∧
      e.Settled s.eng ∧ e.ctrl = ctrl ∧ e.d = 0#8 ∧ e.c = 0#8 ∧ e.acked = s.eng.acked ∧
      exec (.rframe nib) s =
        .next { s.withRecord .nack 0#32 { ctrl := ctrl } with
          sclO := true, sdaO := true
          trace := s.trace ++ (startTrace s.conf kStart ++ writeByteTrace s.conf ksCtrl ctrl ++
            readCellTrace s.conf kAck true ++ stopTrace s.conf kStop)
          env := { s.env with scl := rest, sda := rest' }, eng := e }

/-- R128: RFRAME whose final STOP times out finishes `Timeout`, whatever the checksum byte is; RESULT still
holds both received bytes. -/
def Obligations.RframeStopTimeoutOutranksChecksum : Prop :=
  ∀ (s : State) (nib : Nibble) (d c : Byte) (kStart kAck kAck' kNack : Nat)
    (ksCtrl ksData ksChk : List Nat) (rest rest' : List Level),
    s.status.cfg = true → s.conf.devAddr.toNat ≤ 7 → s.conf.tBitTo.toNat ≤ s.conf.tByteTo.toNat →
    (∀ k ∈ [kStart, kAck, kAck', kNack], waitFits s.conf k) →
    (∀ ks ∈ [ksCtrl, ksData, ksChk], byteFits s.conf ks) →
    s.env.scl = stretched ([kStart] ++ ksCtrl ++ [kAck] ++ ksData ++ [kAck'] ++ ksChk ++ [kNack]) ++
      List.replicate (s.conf.tBitTo.toNat + 1) false ++ rest →
    s.env.sda = false :: (wireBits d ++ wireBits c ++ rest') →
    ∃ (e : Engine) (ctrl : Byte), ctrl.toNat = nib.toNat * 16 + s.conf.devAddr.toNat * 2 + 1 ∧
      e.Settled s.eng ∧ e.ctrl = ctrl ∧ e.d = d ∧ e.c = c ∧ e.acked = s.eng.acked ∧
      exec (.rframe nib) s =
        .next { s.withRecord .timeout s.conf.tBitTo { data := d, aux := c, ctrl := ctrl } with
          sclO := true, sdaO := false
          trace := s.trace ++ (startTrace s.conf kStart ++ writeByteTrace s.conf ksCtrl ctrl ++
            readCellTrace s.conf kAck false ++ readByteTrace s.conf ksData d ++
            writeCellTrace s.conf kAck' false ++ readByteTrace s.conf ksChk c ++
            writeCellTrace s.conf kNack true ++
            (stopHead s.conf ++
              stuckTrace s.conf.tBitTo.toNat))
          env := { s.env with scl := rest, sda := rest' }, eng := e }

/-- R130: WFRAME whose four bytes are all ACKed sends control, address, data and the generated checksum, ends
with STOP, and finishes `Ok` with 4 ACKed bytes, the checksum and the control byte in RESULT. -/
def Obligations.WframeCompletes : Prop :=
  ∀ (s : State) (nib : Nibble) (addr data : Byte) (kStart k0 k1 k2 k3 kStop : Nat)
    (ks0 ks1 ks2 ks3 : List Nat) (rest rest' : List Level),
    s.status.cfg = true → s.conf.devAddr.toNat ≤ 7 →
    (∀ k ∈ [kStart, k0, k1, k2, k3, kStop], waitFits s.conf k) →
    (∀ ks ∈ [ks0, ks1, ks2, ks3], byteFits s.conf ks) →
    s.env.scl = stretched ([kStart] ++ ks0 ++ [k0] ++ ks1 ++ [k1] ++ ks2 ++ [k2] ++ ks3 ++ [k3, kStop]) ++ rest →
    s.env.sda = [false, false, false, false] ++ rest' →
    ∃ (e : Engine) (ctrl chk : Byte), ctrl.toNat = nib.toNat * 16 + s.conf.devAddr.toNat * 2 ∧
      chk.toNat = (ctrl.toNat + addr.toNat + data.toNat) % 256 ∧
      e.Settled s.eng ∧ e.ctrl = ctrl ∧ e.d = s.eng.d ∧ e.c = chk ∧ e.acked = 4#3 ∧
      exec (.wframe nib addr data) s =
        .next { s.withRecord .ok 0#32 { data := 4#8, aux := chk, ctrl := ctrl } with
          sclO := true, sdaO := true
          trace := s.trace ++ (startTrace s.conf kStart ++
            writeByteTrace s.conf ks0 ctrl ++ readCellTrace s.conf k0 false ++
            writeByteTrace s.conf ks1 addr ++ readCellTrace s.conf k1 false ++
            writeByteTrace s.conf ks2 data ++ readCellTrace s.conf k2 false ++
            writeByteTrace s.conf ks3 chk ++ readCellTrace s.conf k3 false ++ stopTrace s.conf kStop)
          env := { s.env with scl := rest, sda := rest' }, eng := e }

/-- R126, R130, R131: WFRAME stops at the first byte `k` that is not ACKed: `Nack` with detail `k`, `k` ACKed
bytes in RESULT, the later bytes not sent, and STOP run. Every byte, ACK cycle and the STOP sees SCL high at
once. -/
def Obligations.WframeNackStops : Prop :=
  ∀ (s : State) (nib : Nibble) (addr data : Byte) (k : Nat) (rest rest' : List Level),
    s.status.cfg = true → s.conf.devAddr.toNat ≤ 7 → k < 4 →
    s.env.scl = List.replicate (9 * (k + 1) + 2) true ++ rest →
    s.env.sda = List.replicate k false ++ true :: rest' →
    ∃ (e : Engine) (ctrl chk : Byte), ctrl.toNat = nib.toNat * 16 + s.conf.devAddr.toNat * 2 ∧
      chk.toNat = (ctrl.toNat + addr.toNat + data.toNat) % 256 ∧
      e.Settled s.eng ∧ e.ctrl = ctrl ∧ e.d = s.eng.d ∧ e.c = chk ∧ e.acked = BitVec.ofNat 3 k ∧
      exec (.wframe nib addr data) s =
        .next { s.withRecord .nack (BitVec.ofNat 32 k)
            { data := BitVec.ofNat 8 k, aux := chk, ctrl := ctrl } with
          sclO := true, sdaO := true
          trace := s.trace ++ (startTrace s.conf 0 ++
            (List.zipWith
              (fun x v => writeByteTrace s.conf (List.replicate 8 0) x ++ readCellTrace s.conf 0 v)
              [ctrl, addr, data, chk] (List.replicate k false ++ [true])).flatten ++
            stopTrace s.conf 0)
          env := { s.env with scl := rest, sda := rest' }, eng := e }

/-- R126: a frame whose START times out runs STOP_SEQ and reports the START's `Timeout`, whether the STOP's clock
rises (both lines then released) or times out too (SDA then left low); RFRAME has received nothing and WFRAME
counts 0 ACKed bytes. -/
def Obligations.FrameStartTimeoutStillStops : Prop :=
  ∀ (s : State) (nib : Nibble) (addr data : Byte) (kStop : Nat) (rest : List Level) (stuck : Bool),
    s.status.cfg = true → s.conf.devAddr.toNat ≤ 7 → s.conf.tBitTo.toNat ≤ s.conf.tByteTo.toNat →
    waitFits s.conf kStop →
    s.env.scl = List.replicate (s.conf.tBitTo.toNat + 1) false ++
      (if stuck then List.replicate (s.conf.tBitTo.toNat + 1) false else stretched [kStop]) ++ rest →
    ∃ (e e' : Engine) (ctrl ctrl' chk : Byte) (new : List LineEvent),
      new = startHead ++ stuckTrace s.conf.tBitTo.toNat ++
        (if stuck then stopHead s.conf ++
          stuckTrace s.conf.tBitTo.toNat
        else stopTrace s.conf kStop) ∧
      ctrl.toNat = nib.toNat * 16 + s.conf.devAddr.toNat * 2 + 1 ∧
      ctrl'.toNat = nib.toNat * 16 + s.conf.devAddr.toNat * 2 ∧
      chk.toNat = (ctrl'.toNat + addr.toNat + data.toNat) % 256 ∧
      e.Settled s.eng ∧ e'.Settled s.eng ∧
      exec (.rframe nib) s =
        .next { s.withRecord .timeout s.conf.tBitTo { ctrl := ctrl } with
          sclO := true, sdaO := !stuck, trace := s.trace ++ new
          env := { s.env with scl := rest }, eng := e } ∧
      exec (.wframe nib addr data) s =
        .next { s.withRecord .timeout s.conf.tBitTo { aux := chk, ctrl := ctrl' } with
          sclO := true, sdaO := !stuck, trace := s.trace ++ new
          env := { s.env with scl := rest }, eng := e' }

/-- R93, R103, R126, R155, R178: on every draw, a frame of a configured block ends with STOP_SEQ, the error path's STOP
included. SCL is released. SDA is released exactly when that STOP's clock rose, after a wait within both budgets, and
STOP_SEQ then ran to its end; else the frame ends with the wait that failed: `T_BIT_TO` poll delays and a last low
sample, or, where `T_BYTE_TO` is the lesser budget, `T_BYTE_TO + 1` poll delays. `Ok` and a checksum mismatch leave
both lines released. -/
def Obligations.FramesAlwaysRunStop : Prop :=
  ∀ (s : State) (i : Instr), s.status.cfg = true → (∃ n, i = .rframe n) ∨ (∃ n a d, i = .wframe n a d) →
    ∃ t pre, exec i s = .next t ∧ t.sclO = true ∧
      (t.status.kind = .ok ∨ t.status.kind = .checksumMismatch → t.sdaO = true) ∧
      (t.sdaO = true → ∃ k, waitFits s.conf k ∧ t.trace = s.trace ++ pre ++ stopTrace s.conf k) ∧
      (t.sdaO = false → ∃ w,
        (w = stuckTrace s.conf.tBitTo.toNat ∨
          (s.conf.tByteTo.toNat < s.conf.tBitTo.toNat ∧ w = overrunTrace (s.conf.tByteTo.toNat + 1))) ∧
        t.trace = s.trace ++ pre ++ stopHead s.conf ++ w)

/-- R133, R184, R186: with SCL high at every first sample and every ACK given, RFRAME is 237 events, WFRAME 274
and RECOVER 55, and their `Delay` times add up to the durations of the timing table. -/
def Obligations.EventCountsAndDurations : Prop :=
  ∀ (s t : State) (nib : Nibble) (addr data : Byte) (rest rest' : List Level), s.status.cfg = true →
    (s.env.scl = List.replicate 29 true ++ rest → s.env.sda = false :: rest' →
      exec (.rframe nib) s = .next t →
      t.trace.length = s.trace.length + 237 ∧
      elapsed t.trace = elapsed s.trace + s.conf.tStartHold.toNat + s.conf.tLow.toNat +
        27 * (Config.dataSetupUs + s.conf.tHigh.toNat + s.conf.tLow.toNat) + 3 * s.conf.tStopHold.toNat) ∧
    (s.env.scl = List.replicate 38 true ++ rest → s.env.sda = List.replicate 4 false ++ rest' →
      exec (.wframe nib addr data) s = .next t →
      t.trace.length = s.trace.length + 274 ∧
      elapsed t.trace = elapsed s.trace + s.conf.tStartHold.toNat + s.conf.tLow.toNat +
        36 * (Config.dataSetupUs + s.conf.tHigh.toNat + s.conf.tLow.toNat) + 3 * s.conf.tStopHold.toNat) ∧
    (s.env.scl = List.replicate 10 true ++ rest → exec .recover s = .next t →
      t.trace.length = s.trace.length + 55 ∧
      elapsed t.trace = elapsed s.trace + 9 * (s.conf.tHigh.toNat + s.conf.tLow.toNat) +
        3 * s.conf.tStopHold.toNat)

/-- R76 and program P4: whenever RFRAME receives its whole frame, the primitive commands of RFRAME_RAW from the
same state each finish `Ok` and leave the same line trace, lines and remaining draws. -/
def Obligations.PrimitivesReproduceReadFrame : Prop :=
  ∀ (s t : State) (nib : Nibble), s.status.cfg = true →
    exec (.rframe nib) s = .next t → t.status.kind = .ok ∨ t.status.kind = .checksumMismatch →
    ∃ u, execAll (rframeRawCommands (controlByte nib s.conf.devAddr true)) s = some u ∧
      u.trace = t.trace ∧ u.sclO = t.sclO ∧ u.sdaO = t.sdaO ∧ u.env = t.env ∧ u.result = {}

/-! ### RECOVER and IDLE -/

/-- R140, R142: RECOVER whose ten clocks rise clocks nine pulses, runs STOP, samples both lines, and finishes `Ok`
when both read high, else `BusStuck` with detail 11; RESULT.DATA has the idle bits in both cases. -/
def Obligations.RecoverCompletes : Prop :=
  ∀ (s : State) (ks : List Nat) (kStop : Nat) (l m : Level) (rest rest' : List Level),
    s.status.cfg = true → ks.length = 9 → (∀ k ∈ ks, waitFits s.conf k) → waitFits s.conf kStop →
    s.env.scl = stretched (ks ++ [kStop]) ++ l :: rest → s.env.sda = m :: rest' →
    ∃ e : Engine, e.Settled s.eng ∧ e.KeepsFrameBytes s.eng ∧
      exec .recover s =
        .next { s.withRecord (if l && m then .ok else .busStuck) (if l && m then 0#32 else 11#32)
            { data := BitVec.ofNat 8 (m.toNat * 4 + l.toNat * 2 + (l && m).toNat) } with
          sclO := true, sdaO := true
          trace := s.trace ++ ([LineEvent.driveSDA true] ++ (ks.map (pulseTrace s.conf)).flatten ++
            stopTrace s.conf kStop ++ [LineEvent.sampleSCL l, LineEvent.sampleSDA m])
          env := { s.env with scl := rest, sda := rest' }, eng := e }

/-- R140, R141: RECOVER whose clock does not rise in pulse `p` finishes `BusStuck` with detail `p` and RESULT 0,
both lines released, and no STOP; one whose nine pulses rise and whose STOP does not finishes `BusStuck` with
detail 10 and RESULT 0, SDA left low. -/
def Obligations.RecoverReportsStuckClock : Prop :=
  ∀ (s : State) (ks : List Nat) (rest : List Level),
    s.status.cfg = true → s.conf.tBitTo.toNat ≤ s.conf.tByteTo.toNat → (∀ k ∈ ks, waitFits s.conf k) →
    s.env.scl = stretched ks ++ List.replicate (s.conf.tBitTo.toNat + 1) false ++ rest →
    ∃ e : Engine, e.Settled s.eng ∧ e.KeepsFrameBytes s.eng ∧
      (ks.length < 9 →
        exec .recover s =
          .next { s.withRecord .busStuck (BitVec.ofNat 32 (ks.length + 1)) {} with
            sclO := true, sdaO := true
            trace := s.trace ++ ([LineEvent.driveSDA true] ++ (ks.map (pulseTrace s.conf)).flatten ++
              [LineEvent.driveSCL true] ++ stuckTrace s.conf.tBitTo.toNat)
            env := { s.env with scl := rest }, eng := e }) ∧
      (ks.length = 9 →
        exec .recover s =
          .next { s.withRecord .busStuck 10#32 {} with
            sclO := true, sdaO := false
            trace := s.trace ++ ([LineEvent.driveSDA true] ++ (ks.map (pulseTrace s.conf)).flatten ++
              stopHead s.conf ++
              stuckTrace s.conf.tBitTo.toNat)
            env := { s.env with scl := rest }, eng := e })

/-- R29, R143: IDLE of a configured block, on every draw and whatever the lines drive, samples SCL, then SDA, once
each, drives nothing, and reports idle, SCL and SDA in bits 0 to 2. Each sample is a draw, used up, except that
under `WIRED_AND` a pulled-low line reads 0. -/
def Obligations.IdleReportsTheLines : Prop :=
  ∀ s : State, s.status.cfg = true →
    ∃ (e : Engine) (l m : Level) (env : Env) (n : Nat), e.Settled s.eng ∧ e.KeepsFrameBytes s.eng ∧
      Sampled Config.sclDraw (Config.wiredAnd && !s.sclO) s.env.scl env.scl s.env.drawn n l ∧
      Sampled Config.sdaDraw (Config.wiredAnd && !s.sdaO) s.env.sda env.sda n env.drawn m ∧
      exec .idle s =
        .next { s.withRecord .ok 0#32
            { data := BitVec.ofNat 8 (m.toNat * 4 + l.toNat * 2 + (l && m).toNat) } with
          trace := s.trace ++ [LineEvent.sampleSCL l, LineEvent.sampleSDA m], env := env, eng := e }

/-! ### All commands -/

/-- R96, R155, R170: every command finishes on every draw: BUSY is 0, LASTOP is the opcode latched, the engine is
idle, and CMD, OVR, the configuration registers, the turns to come and the host's response are as before; the
line trace only grows; CFG changes only by CONFIG and DECONFIG. -/
def Obligations.EveryCommandFinishes : Prop :=
  ∀ (i : Instr) (s : State), ∃ t new, exec i s = .next t ∧
    t.status.busy = false ∧ t.status.lastop = s.eng.op ∧ t.eng.Settled s.eng ∧ HostSideKept s t ∧
    t.trace = s.trace ++ new ∧
    (i ≠ .config → i ≠ .deconfig → t.status.cfg = s.status.cfg) ∧
    ((∀ n, i ≠ .rframe n) → (∀ n a d, i ≠ .wframe n a d) → t.eng.KeepsFrameBytes s.eng)

/-- R94, R126, R127, R130, R132, R149, R154: what each command of a configured block can finish with, on every draw.
Of a frame, on every path, a wait that fails in a byte or in an ACK cycle included: RESULT.CTRL is the control byte;
RFRAME's DATA and AUX are the data and the checksum byte as sampled once all their bits were sampled, else 0; WFRAME's
AUX is the checksum and DATA the count of ACKs sampled; and with a legal configuration the detail of a `Timeout` is
`T_BIT_TO` or `T_BYTE_TO + 1` (0xFFFF_FFFF at most). -/
def Obligations.KindsEachCommandFinishesWith : Prop :=
  ∀ (i : Instr) (s t : State), s.status.cfg = true → i.wellFormed = true → exec i s = .next t →
    match i with
    | .config => t.status.kind = .alreadyInitialized
    | .deconfig => t.status.kind = .ok
    | .rframe nib =>
      ((t.status.kind = .ok ∧ t.detail = 0#32 ∧ t.result.aux = checksumRead t.result.ctrl t.result.data) ∨
        t.status.kind = .timeout ∨
        (t.status.kind = .nack ∧ t.detail = 0#32) ∨
        (t.status.kind = .checksumMismatch ∧ t.detail = t.result.aux.zeroExtend 32 ∧
          t.result.aux ≠ checksumRead t.result.ctrl t.result.data)) ∧
      (t.status.kind = .timeout → ConfigLegal s.conf →
        t.detail = s.conf.tBitTo ∨ t.detail = overrunDetail s.conf) ∧
      t.result.ctrl = controlByte nib s.conf.devAddr true ∧
      ∃ new, t.trace = s.trace ++ new ∧
        (if 9 ≤ (sdaSamples new).length then wireBits t.result.data = ((sdaSamples new).drop 1).take 8
          else t.result.data = 0#8) ∧
        (if 17 ≤ (sdaSamples new).length then wireBits t.result.aux = ((sdaSamples new).drop 9).take 8
          else t.result.aux = 0#8)
    | .wframe nib addr data =>
      ((t.status.kind = .ok ∧ t.detail = 0#32 ∧ t.result.data = 4#8) ∨ t.status.kind = .timeout ∨
        (t.status.kind = .nack ∧ t.detail = t.result.data.zeroExtend 32 ∧ t.result.data.toNat < 4)) ∧
      (t.status.kind = .timeout → ConfigLegal s.conf →
        t.detail = s.conf.tBitTo ∨ t.detail = overrunDetail s.conf) ∧
      t.result.ctrl = controlByte nib s.conf.devAddr false ∧
      t.result.aux = checksumWrite t.result.ctrl addr data ∧
      ∃ new, t.trace = s.trace ++ new ∧ t.result.data.toNat = (sdaSamples new).count false
    | .recover => (t.status.kind = .ok ∧ t.result.data = 7#8) ∨
        (t.status.kind = .busStuck ∧ 1 ≤ t.detail.toNat ∧ t.detail.toNat ≤ 11)
    | .idle => t.status.kind = .ok
    | _ => t.status.kind = .ok ∨ (t.status.kind = .timeout ∧ t.result = {})

/-- R147: a command's outcome depends on the configuration, its operands, the lines and the draws, never on what
commands before it left in KIND, RESULT, DETAIL, the trace or the internal counters. -/
def Obligations.OutcomeIgnoresHistory : Prop :=
  ∀ (i : Instr) (s s' t t' : State),
    s.cmd = s'.cmd → s.status.cfg = s'.status.cfg → s.conf = s'.conf → s.sclO = s'.sclO → s.sdaO = s'.sdaO →
    s.env = s'.env → exec i s = .next t → exec i s' = .next t' →
    t.status.kind = t'.status.kind ∧ t.status.cfg = t'.status.cfg ∧ t.result = t'.result ∧
      t.detail = t'.detail ∧ t.sclO = t'.sclO ∧ t.sdaO = t'.sdaO ∧ t.env = t'.env ∧
      ∃ new, t.trace = s.trace ++ new ∧ t'.trace = s'.trace ++ new

/-- R91: a turn of the engine is one engine step, which performs at most one line event, and none while
BUSY = 0. -/
def Obligations.EngineStepPerformsOneEvent : Prop :=
  ∀ (s : State) (ts : List Turn),
    (s.sched = .engine :: ts → step s = .next (engineStep { s with sched := ts })) ∧
    (s.status.busy = false → engineStep s = s) ∧
    ∃ es, es.length ≤ 1 ∧ (engineStep s).trace = s.trace ++ es ∧ (engineStep s).conf = s.conf ∧
      (engineStep s).cmd = s.cmd ∧ (engineStep s).sched = s.sched

/-- R91: the engine steps of an accepted command, one line event at a time, end in exactly the state that `exec`
answers, and BUSY is 1 at every step before. -/
def Obligations.EngineStepsComposeToExec : Prop :=
  ∀ (s : State) (i : Instr), s.status.busy = true → s.eng.phase = .decode → decode s.cmd = .ok i →
    ∃ (t : State) (k : Nat), exec i s = .next t ∧ engineStep^[k] s = t ∧
      ∀ j < k, (engineStep^[j] s).status.busy = true

/-! ### The host port -/

/-- R22, R56, R69: a write of `w` to CMD while BUSY = 0 is accepted, its fields latched; while BUSY = 1 it is dropped
and sets OVR; a read of CMD returns the last accepted word and changes nothing. That the write is a turn of `sched`
answered in `rsp` (log 6), and that the engine then stands in the phase `decode` (log 8), is the model's choice. -/
def Obligations.CmdAcceptsOrDrops : Prop :=
  ∀ (s : State) (ts : List Turn) (w : Word),
    (s.sched = wr 0x00 w :: ts → s.status.busy = false →
      step s = .next { s with
        sched := ts, rsp := .writeDone, cmd := w, status := { s.status with busy := true }
        eng := { s.eng with
          phase := .decode, op := w.extractLsb' 0 4, nib := w.extractLsb' 4 4, a := w.extractLsb' 8 8
          b := w.extractLsb' 16 8 } }) ∧
    (s.sched = wr 0x00 w :: ts → s.status.busy = true →
      step s = .next { s with sched := ts, rsp := .writeDone, status := { s.status with ovr := true } }) ∧
    (s.sched = rd 0x00 :: ts → step s = .next { s with sched := ts, rsp := .readData s.cmd })

/-- R23, R149: a write to STATUS clears OVR when bit 2 is 1 and changes nothing else; a read returns BUSY, CFG, OVR,
KIND and LASTOP in their places, KIND by the code of each kind. -/
def Obligations.StatusReadAndWrite : Prop :=
  (∀ (s : State) (ts : List Turn) (w : Word),
    (s.sched = wr 0x04 w :: ts →
      step s = .next { s with
        sched := ts, rsp := .writeDone
        status := { s.status with ovr := s.status.ovr && !w.getLsbD 2 } }) ∧
    (s.sched = rd 0x04 :: ts → ∃ v : Word, step s = .next { s with sched := ts, rsp := .readData v } ∧
      v.toNat = s.status.busy.toNat + 2 * s.status.cfg.toNat + 4 * s.status.ovr.toNat +
        16 * s.status.kind.code.toNat + 256 * s.status.lastop.toNat)) ∧
  Kind.ok.code = 0#4 ∧ Kind.notInitialized.code = 1#4 ∧ Kind.invalidConfig.code = 2#4 ∧
  Kind.busError.code = 3#4 ∧ Kind.timeout.code = 4#4 ∧ Kind.invalidParam.code = 5#4 ∧
  Kind.deviceNotFound.code = 6#4 ∧ Kind.checksumMismatch.code = 7#4 ∧ Kind.nack.code = 8#4 ∧
  Kind.busy.code = 9#4 ∧ Kind.inProgress.code = 10#4 ∧ Kind.busStuck.code = 11#4 ∧
  Kind.alreadyInitialized.code = 12#4 ∧ Kind.outOfRange.code = 13#4 ∧ Kind.notSupported.code = 14#4

/-- R27: the configuration registers take a write only while CFG = 0 and BUSY = 0, DEV_ADDR its low byte; and
they read back what they hold. -/
def Obligations.ConfigurationLock : Prop :=
  ∀ (s : State) (ts : List Turn) (w : Word) (off : Nat) (c : Conf) (v : Word),
    (off, c, v) ∈
      [ (0x20, { s.conf with tLow := w }, s.conf.tLow), (0x24, { s.conf with tHigh := w }, s.conf.tHigh),
        (0x28, { s.conf with tStartHold := w }, s.conf.tStartHold),
        (0x2C, { s.conf with tStopHold := w }, s.conf.tStopHold),
        (0x30, { s.conf with tBitTo := w }, s.conf.tBitTo),
        (0x34, { s.conf with tByteTo := w }, s.conf.tByteTo),
        (0x38, { s.conf with devAddr := w.extractLsb' 0 8 }, 0#24 ++ s.conf.devAddr) ] →
    (s.sched = wr off w :: ts →
      step s = .next { s with
        sched := ts, rsp := .writeDone
        conf := if s.status.cfg = true ∨ s.status.busy = true then s.conf else c }) ∧
    (s.sched = rd off :: ts → step s = .next { s with sched := ts, rsp := .readData v })

/-- R21, R24, R56: RESULT and DETAIL read as their fields; reserved words read 0; writes to RESULT, DETAIL, LINE
and reserved words change nothing. -/
def Obligations.ReadOnlyAndReservedWords : Prop :=
  ∀ (s : State) (ts : List Turn) (w : Word) (off : Nat),
    (s.sched = rd 0x08 :: ts → step s =
      .next { s with sched := ts, rsp := .readData (0#8 ++ s.result.ctrl ++ s.result.aux ++ s.result.data) }) ∧
    (s.sched = rd 0x0C :: ts → step s = .next { s with sched := ts, rsp := .readData s.detail }) ∧
    (off ∈ [0x14, 0x18, 0x1C, 0x3C] → s.sched = rd off :: ts →
      step s = .next { s with sched := ts, rsp := .readData 0#32 }) ∧
    (off ∈ [0x08, 0x0C, 0x10, 0x14, 0x18, 0x1C, 0x3C] → s.sched = wr off w :: ts →
      step s = .next { s with sched := ts, rsp := .writeDone })

/-- R26, R29, R56: a read of LINE returns both outputs and one draw of each input, each used up, except that under
`WIRED_AND` a pulled-low line reads 0; it adds nothing to the line trace and changes nothing else. That SCL is
sampled before SDA is the model's choice (log 16). -/
def Obligations.LineReadIsTwoDraws : Prop :=
  ∀ (s : State) (ts : List Turn), s.sched = rd 0x10 :: ts →
    ∃ (l m : Level) (env : Env) (n : Nat) (v : Word),
      step s = .next { s with sched := ts, rsp := .readData v, env := env } ∧
      v.toNat = s.sclO.toNat + 2 * s.sdaO.toNat + 4 * l.toNat + 8 * m.toNat ∧
      Sampled Config.sclDraw (Config.wiredAnd && !s.sclO) s.env.scl env.scl s.env.drawn n l ∧
      Sampled Config.sdaDraw (Config.wiredAnd && !s.sdaO) s.env.sda env.sda n env.drawn m

/-- R51, R153: an access to the window that is not 32 bits wide at a multiple of 4 is a host bus error, read or write;
one that is completes. A host bus error changes nothing of the block, and a running command continues: the machine
goes on with the next turn, and its engine steps are those of a block that the access never reached. That the fault
carries the state in which the block goes on (log 18), and that the first address of an access decides whether it is
to the window (log 5), is the model's choice. -/
def Obligations.HostBusErrorExactly : Prop :=
  ∀ (s : State) (ts : List Turn) (a : Access) (addr width : Nat),
    s.sched = .host a :: ts → a = .read addr width ∨ (∃ v, a = .write addr width v) →
    Config.base ≤ addr → addr < Config.base + 0x40 →
    (width ≠ 4 ∨ addr % 4 ≠ 0 →
      step s = .fault (.hostBusError addr width { s with sched := ts, rsp := .busError }) ∧
      proceed s = { s with sched := ts, rsp := .busError } ∧
      ∀ k, engineStep^[k] (proceed s) = { engineStep^[k] { s with sched := ts } with rsp := .busError }) ∧
    (width = 4 → addr % 4 = 0 → ∃ t, step s = .next t)

/-- R48 (the model's reading, log 5): an access whose first address is outside the window does not reach the block, whatever its width
and alignment: nothing of the block changes and no host bus error is signalled. -/
def Obligations.AccessOutsideTheWindow : Prop :=
  ∀ (s : State) (ts : List Turn) (a : Access) (addr width : Nat),
    s.sched = .host a :: ts → a = .read addr width ∨ (∃ v, a = .write addr width v) →
    addr < Config.base ∨ Config.base + 0x40 ≤ addr →
    step s = .next { s with sched := ts, rsp := .notSelected }

/-- R171, R172: an assertion of RST abandons a running command: every piece of state takes its reset value, with
no line event and no completion record. -/
def Obligations.ResetAbandonsTheCommand : Prop :=
  ∀ (s : State) (ts : List Turn), s.sched = .rst :: ts →
    step s = .next { State.reset with env := s.env, sched := ts, rsp := s.rsp }

/-- R60, R91: an undisturbed run of the engine, from any point of a command, is some number of engine steps. -/
def Obligations.RunTurnIsEngineSteps : Prop :=
  ∀ (s t : State) (ts : List Turn), s.sched = .run :: ts → step s = .next t →
    ∃ k, t = engineStep^[k] { s with sched := ts }

/-! ### Reset and the invariant -/

/-- R36: the value of every piece of state after reset. -/
def Obligations.ResetValues : Prop :=
  State.reset.cmd = 0#32 ∧ State.reset.status = ⟨false, false, false, .ok, 0#4⟩ ∧
  statusWord State.reset.status = 0#32 ∧ resultWord State.reset.result = 0#32 ∧ State.reset.detail = 0#32 ∧
  State.reset.conf = ⟨0#32, 0#32, 0#32, 0#32, 0#32, 0#32, 0#8⟩ ∧
  State.reset.sclO = true ∧ State.reset.sdaO = true ∧ State.reset.trace = [] ∧
  State.reset.eng =
    ⟨.idle, 0#4, 0#4, 0#8, 0#8, 0#33, 0#33, 0#8, 0#4, 0#8, 0#8, 0#8, 0#3, none⟩

/-- The invariant holds at reset. -/
def Obligations.ResetMeetsInvariant : Prop := Inv State.reset

/-- R28, R82, R139, R150: EVERY STEP, whatever turn it is, keeps the invariant: a configured block has a legal
configuration, an unconfigured block has released both lines, BUSY agrees with the engine's phase, and KIND is
one the block writes. So does the state in which the block goes on after a host bus error. -/
def Obligations.StepKeepsInvariant : Prop :=
  ∀ s t : State, Inv s → (step s = .next t ∨ ∃ addr width, step s = .fault (.hostBusError addr width t)) → Inv t
end

