-- ==== Sys2Proof/Laws/State.lean ====
section
/-! SUPPORT. What each named update of the state does to each field: one lemma per field per update. -/

namespace Sys2Proof.Machine

@[simp] theorem State.record_cmd (e : LineEvent) (s : State) :
    (s.record e).cmd = s.cmd := rfl
@[simp] theorem State.record_status (e : LineEvent) (s : State) :
    (s.record e).status = s.status := rfl
@[simp] theorem State.record_result (e : LineEvent) (s : State) :
    (s.record e).result = s.result := rfl
@[simp] theorem State.record_detail (e : LineEvent) (s : State) :
    (s.record e).detail = s.detail := rfl
@[simp] theorem State.record_conf (e : LineEvent) (s : State) :
    (s.record e).conf = s.conf := rfl
@[simp] theorem State.record_sclO (e : LineEvent) (s : State) :
    (s.record e).sclO = s.sclO := rfl
@[simp] theorem State.record_sdaO (e : LineEvent) (s : State) :
    (s.record e).sdaO = s.sdaO := rfl
@[simp] theorem State.record_trace (e : LineEvent) (s : State) :
    (s.record e).trace = s.trace ++ [e] := rfl
@[simp] theorem State.record_eng (e : LineEvent) (s : State) :
    (s.record e).eng = s.eng := rfl
@[simp] theorem State.record_env (e : LineEvent) (s : State) :
    (s.record e).env = s.env := rfl
@[simp] theorem State.record_sched (e : LineEvent) (s : State) :
    (s.record e).sched = s.sched := rfl
@[simp] theorem State.record_rsp (e : LineEvent) (s : State) :
    (s.record e).rsp = s.rsp := rfl

@[simp] theorem State.setSCL_cmd (v : Level) (s : State) :
    (s.setSCL v).cmd = s.cmd := rfl
@[simp] theorem State.setSCL_status (v : Level) (s : State) :
    (s.setSCL v).status = s.status := rfl
@[simp] theorem State.setSCL_result (v : Level) (s : State) :
    (s.setSCL v).result = s.result := rfl
@[simp] theorem State.setSCL_detail (v : Level) (s : State) :
    (s.setSCL v).detail = s.detail := rfl
@[simp] theorem State.setSCL_conf (v : Level) (s : State) :
    (s.setSCL v).conf = s.conf := rfl
@[simp] theorem State.setSCL_sclO (v : Level) (s : State) :
    (s.setSCL v).sclO = v := rfl
@[simp] theorem State.setSCL_sdaO (v : Level) (s : State) :
    (s.setSCL v).sdaO = s.sdaO := rfl
@[simp] theorem State.setSCL_trace (v : Level) (s : State) :
    (s.setSCL v).trace = s.trace ++ [.driveSCL v] := rfl
@[simp] theorem State.setSCL_eng (v : Level) (s : State) :
    (s.setSCL v).eng = s.eng := rfl
@[simp] theorem State.setSCL_env (v : Level) (s : State) :
    (s.setSCL v).env = s.env := rfl
@[simp] theorem State.setSCL_sched (v : Level) (s : State) :
    (s.setSCL v).sched = s.sched := rfl
@[simp] theorem State.setSCL_rsp (v : Level) (s : State) :
    (s.setSCL v).rsp = s.rsp := rfl

@[simp] theorem State.setSDA_cmd (v : Level) (s : State) :
    (s.setSDA v).cmd = s.cmd := rfl
@[simp] theorem State.setSDA_status (v : Level) (s : State) :
    (s.setSDA v).status = s.status := rfl
@[simp] theorem State.setSDA_result (v : Level) (s : State) :
    (s.setSDA v).result = s.result := rfl
@[simp] theorem State.setSDA_detail (v : Level) (s : State) :
    (s.setSDA v).detail = s.detail := rfl
@[simp] theorem State.setSDA_conf (v : Level) (s : State) :
    (s.setSDA v).conf = s.conf := rfl
@[simp] theorem State.setSDA_sclO (v : Level) (s : State) :
    (s.setSDA v).sclO = s.sclO := rfl
@[simp] theorem State.setSDA_sdaO (v : Level) (s : State) :
    (s.setSDA v).sdaO = v := rfl
@[simp] theorem State.setSDA_trace (v : Level) (s : State) :
    (s.setSDA v).trace = s.trace ++ [.driveSDA v] := rfl
@[simp] theorem State.setSDA_eng (v : Level) (s : State) :
    (s.setSDA v).eng = s.eng := rfl
@[simp] theorem State.setSDA_env (v : Level) (s : State) :
    (s.setSDA v).env = s.env := rfl
@[simp] theorem State.setSDA_sched (v : Level) (s : State) :
    (s.setSDA v).sched = s.sched := rfl
@[simp] theorem State.setSDA_rsp (v : Level) (s : State) :
    (s.setSDA v).rsp = s.rsp := rfl

@[simp] theorem State.pause_cmd (us : Nat) (s : State) :
    (s.pause us).cmd = s.cmd := rfl
@[simp] theorem State.pause_status (us : Nat) (s : State) :
    (s.pause us).status = s.status := rfl
@[simp] theorem State.pause_result (us : Nat) (s : State) :
    (s.pause us).result = s.result := rfl
@[simp] theorem State.pause_detail (us : Nat) (s : State) :
    (s.pause us).detail = s.detail := rfl
@[simp] theorem State.pause_conf (us : Nat) (s : State) :
    (s.pause us).conf = s.conf := rfl
@[simp] theorem State.pause_sclO (us : Nat) (s : State) :
    (s.pause us).sclO = s.sclO := rfl
@[simp] theorem State.pause_sdaO (us : Nat) (s : State) :
    (s.pause us).sdaO = s.sdaO := rfl
@[simp] theorem State.pause_trace (us : Nat) (s : State) :
    (s.pause us).trace = s.trace ++ [.delay us] := rfl
@[simp] theorem State.pause_eng (us : Nat) (s : State) :
    (s.pause us).eng = s.eng := rfl
@[simp] theorem State.pause_env (us : Nat) (s : State) :
    (s.pause us).env = s.env := rfl
@[simp] theorem State.pause_sched (us : Nat) (s : State) :
    (s.pause us).sched = s.sched := rfl
@[simp] theorem State.pause_rsp (us : Nat) (s : State) :
    (s.pause us).rsp = s.rsp := rfl

@[simp] theorem State.setEng_cmd (e : Engine) (s : State) :
    (s.setEng e).cmd = s.cmd := rfl
@[simp] theorem State.setEng_status (e : Engine) (s : State) :
    (s.setEng e).status = s.status := rfl
@[simp] theorem State.setEng_result (e : Engine) (s : State) :
    (s.setEng e).result = s.result := rfl
@[simp] theorem State.setEng_detail (e : Engine) (s : State) :
    (s.setEng e).detail = s.detail := rfl
@[simp] theorem State.setEng_conf (e : Engine) (s : State) :
    (s.setEng e).conf = s.conf := rfl
@[simp] theorem State.setEng_sclO (e : Engine) (s : State) :
    (s.setEng e).sclO = s.sclO := rfl
@[simp] theorem State.setEng_sdaO (e : Engine) (s : State) :
    (s.setEng e).sdaO = s.sdaO := rfl
@[simp] theorem State.setEng_trace (e : Engine) (s : State) :
    (s.setEng e).trace = s.trace := rfl
@[simp] theorem State.setEng_eng (e : Engine) (s : State) :
    (s.setEng e).eng = e := rfl
@[simp] theorem State.setEng_env (e : Engine) (s : State) :
    (s.setEng e).env = s.env := rfl
@[simp] theorem State.setEng_sched (e : Engine) (s : State) :
    (s.setEng e).sched = s.sched := rfl
@[simp] theorem State.setEng_rsp (e : Engine) (s : State) :
    (s.setEng e).rsp = s.rsp := rfl

@[simp] theorem State.setPhase_cmd (p : Phase) (s : State) :
    (s.setPhase p).cmd = s.cmd := rfl
@[simp] theorem State.setPhase_status (p : Phase) (s : State) :
    (s.setPhase p).status = s.status := rfl
@[simp] theorem State.setPhase_result (p : Phase) (s : State) :
    (s.setPhase p).result = s.result := rfl
@[simp] theorem State.setPhase_detail (p : Phase) (s : State) :
    (s.setPhase p).detail = s.detail := rfl
@[simp] theorem State.setPhase_conf (p : Phase) (s : State) :
    (s.setPhase p).conf = s.conf := rfl
@[simp] theorem State.setPhase_sclO (p : Phase) (s : State) :
    (s.setPhase p).sclO = s.sclO := rfl
@[simp] theorem State.setPhase_sdaO (p : Phase) (s : State) :
    (s.setPhase p).sdaO = s.sdaO := rfl
@[simp] theorem State.setPhase_trace (p : Phase) (s : State) :
    (s.setPhase p).trace = s.trace := rfl
@[simp] theorem State.setPhase_eng (p : Phase) (s : State) :
    (s.setPhase p).eng = { s.eng with phase := p } := rfl
@[simp] theorem State.setPhase_env (p : Phase) (s : State) :
    (s.setPhase p).env = s.env := rfl
@[simp] theorem State.setPhase_sched (p : Phase) (s : State) :
    (s.setPhase p).sched = s.sched := rfl
@[simp] theorem State.setPhase_rsp (p : Phase) (s : State) :
    (s.setPhase p).rsp = s.rsp := rfl

@[simp] theorem State.setCfg_cmd (v : Bool) (s : State) :
    (s.setCfg v).cmd = s.cmd := rfl
@[simp] theorem State.setCfg_status (v : Bool) (s : State) :
    (s.setCfg v).status = { s.status with cfg := v } := rfl
@[simp] theorem State.setCfg_result (v : Bool) (s : State) :
    (s.setCfg v).result = s.result := rfl
@[simp] theorem State.setCfg_detail (v : Bool) (s : State) :
    (s.setCfg v).detail = s.detail := rfl
@[simp] theorem State.setCfg_conf (v : Bool) (s : State) :
    (s.setCfg v).conf = s.conf := rfl
@[simp] theorem State.setCfg_sclO (v : Bool) (s : State) :
    (s.setCfg v).sclO = s.sclO := rfl
@[simp] theorem State.setCfg_sdaO (v : Bool) (s : State) :
    (s.setCfg v).sdaO = s.sdaO := rfl
@[simp] theorem State.setCfg_trace (v : Bool) (s : State) :
    (s.setCfg v).trace = s.trace := rfl
@[simp] theorem State.setCfg_eng (v : Bool) (s : State) :
    (s.setCfg v).eng = s.eng := rfl
@[simp] theorem State.setCfg_env (v : Bool) (s : State) :
    (s.setCfg v).env = s.env := rfl
@[simp] theorem State.setCfg_sched (v : Bool) (s : State) :
    (s.setCfg v).sched = s.sched := rfl
@[simp] theorem State.setCfg_rsp (v : Bool) (s : State) :
    (s.setCfg v).rsp = s.rsp := rfl

@[simp] theorem finish_cmd (k : Kind) (x : Word) (r : Result) (s : State) :
    (finish k x r s).cmd = s.cmd := rfl
@[simp] theorem finish_status (k : Kind) (x : Word) (r : Result) (s : State) :
    (finish k x r s).status = { s.status with busy := false, kind := k, lastop := s.eng.op } := rfl
@[simp] theorem finish_result (k : Kind) (x : Word) (r : Result) (s : State) :
    (finish k x r s).result = r := rfl
@[simp] theorem finish_detail (k : Kind) (x : Word) (r : Result) (s : State) :
    (finish k x r s).detail = x := rfl
@[simp] theorem finish_conf (k : Kind) (x : Word) (r : Result) (s : State) :
    (finish k x r s).conf = s.conf := rfl
@[simp] theorem finish_sclO (k : Kind) (x : Word) (r : Result) (s : State) :
    (finish k x r s).sclO = s.sclO := rfl
@[simp] theorem finish_sdaO (k : Kind) (x : Word) (r : Result) (s : State) :
    (finish k x r s).sdaO = s.sdaO := rfl
@[simp] theorem finish_trace (k : Kind) (x : Word) (r : Result) (s : State) :
    (finish k x r s).trace = s.trace := rfl
@[simp] theorem finish_eng (k : Kind) (x : Word) (r : Result) (s : State) :
    (finish k x r s).eng = { s.eng with phase := .idle, err := none } := rfl
@[simp] theorem finish_env (k : Kind) (x : Word) (r : Result) (s : State) :
    (finish k x r s).env = s.env := rfl
@[simp] theorem finish_sched (k : Kind) (x : Word) (r : Result) (s : State) :
    (finish k x r s).sched = s.sched := rfl
@[simp] theorem finish_rsp (k : Kind) (x : Word) (r : Result) (s : State) :
    (finish k x r s).rsp = s.rsp := rfl

@[simp] theorem State.accept_cmd (w : Word) (s : State) :
    (s.accept w).cmd = w := rfl
@[simp] theorem State.accept_status (w : Word) (s : State) :
    (s.accept w).status = { s.status with busy := true } := rfl
@[simp] theorem State.accept_result (w : Word) (s : State) :
    (s.accept w).result = s.result := rfl
@[simp] theorem State.accept_detail (w : Word) (s : State) :
    (s.accept w).detail = s.detail := rfl
@[simp] theorem State.accept_conf (w : Word) (s : State) :
    (s.accept w).conf = s.conf := rfl
@[simp] theorem State.accept_sclO (w : Word) (s : State) :
    (s.accept w).sclO = s.sclO := rfl
@[simp] theorem State.accept_sdaO (w : Word) (s : State) :
    (s.accept w).sdaO = s.sdaO := rfl
@[simp] theorem State.accept_trace (w : Word) (s : State) :
    (s.accept w).trace = s.trace := rfl
@[simp] theorem State.accept_eng (w : Word) (s : State) :
    (s.accept w).eng = { s.eng with phase := .decode, op := opOf w, nib := nibOf w, a := aOf w, b := bOf w } := rfl
@[simp] theorem State.accept_env (w : Word) (s : State) :
    (s.accept w).env = s.env := rfl
@[simp] theorem State.accept_sched (w : Word) (s : State) :
    (s.accept w).sched = s.sched := rfl
@[simp] theorem State.accept_rsp (w : Word) (s : State) :
    (s.accept w).rsp = s.rsp := rfl

@[simp] theorem State.assertRst_cmd (s : State) :
    s.assertRst.cmd = State.reset.cmd := rfl
@[simp] theorem State.assertRst_status (s : State) :
    s.assertRst.status = State.reset.status := rfl
@[simp] theorem State.assertRst_result (s : State) :
    s.assertRst.result = State.reset.result := rfl
@[simp] theorem State.assertRst_detail (s : State) :
    s.assertRst.detail = State.reset.detail := rfl
@[simp] theorem State.assertRst_conf (s : State) :
    s.assertRst.conf = State.reset.conf := rfl
@[simp] theorem State.assertRst_sclO (s : State) :
    s.assertRst.sclO = State.reset.sclO := rfl
@[simp] theorem State.assertRst_sdaO (s : State) :
    s.assertRst.sdaO = State.reset.sdaO := rfl
@[simp] theorem State.assertRst_trace (s : State) :
    s.assertRst.trace = State.reset.trace := rfl
@[simp] theorem State.assertRst_eng (s : State) :
    s.assertRst.eng = State.reset.eng := rfl
@[simp] theorem State.assertRst_env (s : State) :
    s.assertRst.env = s.env := rfl
@[simp] theorem State.assertRst_sched (s : State) :
    s.assertRst.sched = s.sched := rfl
@[simp] theorem State.assertRst_rsp (s : State) :
    s.assertRst.rsp = s.rsp := rfl

@[simp] theorem State.beginCommand_cmd (s : State) :
    s.beginCommand.cmd = s.cmd := rfl
@[simp] theorem State.beginCommand_status (s : State) :
    s.beginCommand.status = s.status := rfl
@[simp] theorem State.beginCommand_result (s : State) :
    s.beginCommand.result = s.result := rfl
@[simp] theorem State.beginCommand_detail (s : State) :
    s.beginCommand.detail = s.detail := rfl
@[simp] theorem State.beginCommand_conf (s : State) :
    s.beginCommand.conf = s.conf := rfl
@[simp] theorem State.beginCommand_sclO (s : State) :
    s.beginCommand.sclO = s.sclO := rfl
@[simp] theorem State.beginCommand_sdaO (s : State) :
    s.beginCommand.sdaO = s.sdaO := rfl
@[simp] theorem State.beginCommand_trace (s : State) :
    s.beginCommand.trace = s.trace := rfl
@[simp] theorem State.beginCommand_eng (s : State) :
    s.beginCommand.eng = { s.eng with err := none } := rfl
@[simp] theorem State.beginCommand_env (s : State) :
    s.beginCommand.env = s.env := rfl
@[simp] theorem State.beginCommand_sched (s : State) :
    s.beginCommand.sched = s.sched := rfl
@[simp] theorem State.beginCommand_rsp (s : State) :
    s.beginCommand.rsp = s.rsp := rfl

@[simp] theorem State.keepFailure_cmd (f : Failure) (s : State) :
    (s.keepFailure f).cmd = s.cmd := by
  unfold State.keepFailure; split <;> rfl
@[simp] theorem State.keepFailure_status (f : Failure) (s : State) :
    (s.keepFailure f).status = s.status := by
  unfold State.keepFailure; split <;> rfl
@[simp] theorem State.keepFailure_result (f : Failure) (s : State) :
    (s.keepFailure f).result = s.result := by
  unfold State.keepFailure; split <;> rfl
@[simp] theorem State.keepFailure_detail (f : Failure) (s : State) :
    (s.keepFailure f).detail = s.detail := by
  unfold State.keepFailure; split <;> rfl
@[simp] theorem State.keepFailure_conf (f : Failure) (s : State) :
    (s.keepFailure f).conf = s.conf := by
  unfold State.keepFailure; split <;> rfl
@[simp] theorem State.keepFailure_sclO (f : Failure) (s : State) :
    (s.keepFailure f).sclO = s.sclO := by
  unfold State.keepFailure; split <;> rfl
@[simp] theorem State.keepFailure_sdaO (f : Failure) (s : State) :
    (s.keepFailure f).sdaO = s.sdaO := by
  unfold State.keepFailure; split <;> rfl
@[simp] theorem State.keepFailure_trace (f : Failure) (s : State) :
    (s.keepFailure f).trace = s.trace := by
  unfold State.keepFailure; split <;> rfl
@[simp] theorem State.keepFailure_env (f : Failure) (s : State) :
    (s.keepFailure f).env = s.env := by
  unfold State.keepFailure; split <;> rfl
@[simp] theorem State.keepFailure_sched (f : Failure) (s : State) :
    (s.keepFailure f).sched = s.sched := by
  unfold State.keepFailure; split <;> rfl
@[simp] theorem State.keepFailure_rsp (f : Failure) (s : State) :
    (s.keepFailure f).rsp = s.rsp := by
  unfold State.keepFailure; split <;> rfl

/-- The first failure is kept; nothing else of the engine changes. -/
@[simp] theorem State.keepFailure_eng (f : Failure) (s : State) :
    (s.keepFailure f).eng = { s.eng with err := some (s.eng.err.getD f) } := by
  unfold State.keepFailure
  split <;> rename_i h
  · have : s.eng = { s.eng with err := s.eng.err } := rfl
    rw [h] at this
    simpa [h] using this
  · simp [h]

end Sys2Proof.Machine
end

