-- ==== Sys2Proof/Laws/Sequencer.lean ====
section
/-! SUPPORT. What each shared operation of the sequencer can do: samples, one engine step, the bounded wait, a
sequence of line events. -/

namespace Sys2Proof.Machine

/-- A sample of a released SCL with a sample in store returns it (R29). -/
theorem sampleSCL_stored {s : State} {v : Level} {vs : List Level} (hl : s.sclO = true)
    (hv : s.env.scl = v :: vs) :
    sampleSCL s = (v, { s with env := { s.env with scl := vs }, trace := s.trace ++ [.sampleSCL v] }) := by
  simp [sampleSCL, levelSCL, drawSCL, hl, hv, State.record]

/-- A sample of a released SDA with a sample in store returns it (R29). -/
theorem sampleSDA_stored {s : State} {v : Level} {vs : List Level} (hl : s.sdaO = true)
    (hv : s.env.sda = v :: vs) :
    sampleSDA s = (v, { s with env := { s.env with sda := vs }, trace := s.trace ++ [.sampleSDA v] }) := by
  simp [sampleSDA, levelSDA, drawSDA, hl, hv, State.record]

/-- The level of SCL_I changes nothing but the environment. -/
theorem levelSCL_spec (s : State) : ∃ v e, levelSCL s = (v, { s with env := e }) := by
  unfold levelSCL drawSCL
  split <;> [skip; split] <;> first | exact ⟨_, _, rfl⟩ | (split <;> exact ⟨_, _, rfl⟩)

/-- The level of SDA_I changes nothing but the environment. -/
theorem levelSDA_spec (s : State) : ∃ v e, levelSDA s = (v, { s with env := e }) := by
  unfold levelSDA drawSDA
  split <;> [skip; split] <;> first | exact ⟨_, _, rfl⟩ | (split <;> exact ⟨_, _, rfl⟩)

/-- The level of SCL_I is one sample of SCL (R29). -/
theorem levelSCL_sampled (s : State) : ∃ v xs n,
    Sampled Config.sclDraw (Config.wiredAnd && !s.sclO) s.env.scl xs s.env.drawn n v ∧
      levelSCL s = (v, { s with env := { s.env with scl := xs, drawn := n } }) := by
  rcases s with ⟨_, _, _, _, _, _ | _, _, _, _, ⟨_ | ⟨_, _⟩, _, _⟩, _, _⟩ <;>
    cases h : Config.wiredAnd <;> simp [levelSCL, drawSCL, Sampled, h]

/-- The level of SDA_I is one sample of SDA (R29). -/
theorem levelSDA_sampled (s : State) : ∃ v xs n,
    Sampled Config.sdaDraw (Config.wiredAnd && !s.sdaO) s.env.sda xs s.env.drawn n v ∧
      levelSDA s = (v, { s with env := { s.env with sda := xs, drawn := n } }) := by
  rcases s with ⟨_, _, _, _, _, _, _ | _, _, _, ⟨_, _ | ⟨_, _⟩, _⟩, _, _⟩ <;>
    cases h : Config.wiredAnd <;> simp [levelSDA, drawSDA, Sampled, h]

/-- `SampleSCL()` changes the environment and appends its event. -/
theorem sampleSCL_spec (s : State) :
    ∃ v e, sampleSCL s = (v, { s with env := e, trace := s.trace ++ [.sampleSCL v] }) := by
  obtain ⟨v, e, h⟩ := levelSCL_spec s
  exact ⟨v, e, by simp [sampleSCL, h, State.record]⟩

/-- `SampleSDA()` changes the environment and appends its event. -/
theorem sampleSDA_spec (s : State) :
    ∃ v e, sampleSDA s = (v, { s with env := e, trace := s.trace ++ [.sampleSDA v] }) := by
  obtain ⟨v, e, h⟩ := levelSDA_spec s
  exact ⟨v, e, by simp [sampleSDA, h, State.record]⟩

/-- The state after an engine step. -/
def Fired.state : Fired → State
  | .done s => s
  | .again _ s => s
  | .failed s => s

/-- The fields of the engine that no line event changes, and the failures a line event can leave. -/
def Engine.LineStep (e f : Engine) : Prop :=
  f.phase = e.phase ∧ f.op = e.op ∧ f.nib = e.nib ∧ f.a = e.a ∧ f.b = e.b ∧ f.ctrl = e.ctrl ∧
    (f.err = e.err ∨ ∃ x, f.err = some x ∧ (x.kind = .timeout ∨ x.kind = .busStuck ∨ x.kind = .nack))

/-- The states that line events can lead to: the lines, the environment and the engine change, the trace grows by
`new`, and nothing else changes. -/
def LineMoves (s t : State) (new : List LineEvent) : Prop :=
  ∃ scl sda env eng, s.eng.LineStep eng ∧
    t = { s with sclO := scl, sdaO := sda, trace := s.trace ++ new, env := env, eng := eng }

theorem Engine.LineStep.refl (e : Engine) : e.LineStep e := ⟨rfl, rfl, rfl, rfl, rfl, rfl, .inl rfl⟩

theorem Engine.LineStep.trans {e f g : Engine} (h : e.LineStep f) (k : f.LineStep g) : e.LineStep g := by
  obtain ⟨h1, h2, h3, h4, h5, h6, h7⟩ := h
  obtain ⟨k1, k2, k3, k4, k5, k6, k7⟩ := k
  refine ⟨k1.trans h1, k2.trans h2, k3.trans h3, k4.trans h4, k5.trans h5, k6.trans h6, ?_⟩
  rcases k7 with k7 | k7
  · rw [k7]; exact h7
  · exact .inr k7

theorem LineMoves.of {s t : State} {new : List LineEvent} {scl sda : Level} {env : Env} {eng : Engine}
    (h : t = { s with sclO := scl, sdaO := sda, trace := s.trace ++ new, env := env, eng := eng })
    (k : s.eng.LineStep eng) : LineMoves s t new := ⟨scl, sda, env, eng, k, h⟩

theorem LineMoves.refl (s : State) : LineMoves s s [] :=
  ⟨s.sclO, s.sdaO, s.env, s.eng, .refl _, by simp⟩

theorem LineMoves.trans {s t u : State} {xs ys : List LineEvent} (h : LineMoves s t xs)
    (k : LineMoves t u ys) : LineMoves s u (xs ++ ys) := by
  obtain ⟨a, b, c, d, h1, rfl⟩ := h
  obtain ⟨a', b', c', d', k1, rfl⟩ := k
  exact ⟨a', b', c', d', h1.trans k1, by simp⟩

/-- A failure of a bounded wait is kept as one of the kinds of line events. -/
theorem Engine.LineStep.keep (e : Engine) (x : Failure)
    (hx : x.kind = .timeout ∨ x.kind = .busStuck ∨ x.kind = .nack) :
    e.LineStep { e with err := some (e.err.getD x) } := by
  refine ⟨rfl, rfl, rfl, rfl, rfl, rfl, ?_⟩
  cases h : e.err with
  | none => exact .inr ⟨x, by simp, hx⟩
  | some y => exact .inl (by simp)

theorem FailAs.failure_kind (f : FailAs) (x : Count) :
    (f.failure x).kind = .timeout ∨ (f.failure x).kind = .busStuck ∨ (f.failure x).kind = .nack := by
  cases f <;> simp [FailAs.failure]

theorem State.keepFailure_eq (f : Failure) (s : State) :
    s.keepFailure f = { s with eng := { s.eng with err := some (s.eng.err.getD f) } } := by
  rcases s with ⟨_, _, _, _, _, _, _, _, ⟨_, _, _, _, _, _, _, _, _, _, _, _, _, err⟩, _, _, _⟩
  cases err <;> rfl

/-- ONE ENGINE STEP performs exactly one line event and leaves everything but the lines, the environment and the
engine as it was (R91). -/
theorem fire_spec (m : Micro) (s : State) : ∃ ev, LineMoves s (fire m s).state [ev] := by
  cases m with
  | driveSCL v => exact ⟨_, .of rfl (.refl _)⟩
  | driveSDA v => exact ⟨_, .of rfl (.refl _)⟩
  | releaseSCL fresh => exact ⟨_, .of rfl ⟨rfl, rfl, rfl, rfl, rfl, rfl, .inl rfl⟩⟩
  | wait f =>
    obtain ⟨v, e, h⟩ := sampleSCL_spec s
    simp only [fire, poll, h]
    cases v with
    | true => exact ⟨_, .of rfl ⟨rfl, rfl, rfl, rfl, rfl, rfl, .inl rfl⟩⟩
    | false =>
      simp only
      split
      · rw [State.keepFailure_eq]
        exact ⟨_, .of rfl (.keep _ _ (f.failure_kind _))⟩
      · exact ⟨_, .of rfl (.refl _)⟩
  | pollDelay f =>
    simp only [fire, pollPause]
    split
    · rw [State.keepFailure_eq]
      refine ⟨_, .of rfl ?_⟩
      refine .trans (f := { s.eng with n := s.eng.n + Config.pollUs })
        ⟨rfl, rfl, rfl, rfl, rfl, rfl, .inl rfl⟩ (.keep _ _ (f.failure_kind _))
    · exact ⟨_, .of rfl ⟨rfl, rfl, rfl, rfl, rfl, rfl, .inl rfl⟩⟩
  | hold h => exact ⟨_, .of rfl (.refl _)⟩
  | openWrite x i => exact ⟨_, .of rfl ⟨rfl, rfl, rfl, rfl, rfl, rfl, .inl rfl⟩⟩
  | nextWrite i => exact ⟨_, .of rfl ⟨rfl, rfl, rfl, rfl, rfl, rfl, .inl rfl⟩⟩
  | openRead i => exact ⟨_, .of rfl ⟨rfl, rfl, rfl, rfl, rfl, rfl, .inl rfl⟩⟩
  | nextRead i => exact ⟨_, .of rfl ⟨rfl, rfl, rfl, rfl, rfl, rfl, .inl rfl⟩⟩
  | sampleBit =>
    obtain ⟨v, e, h⟩ := sampleSDA_spec s
    simp only [fire, h]
    exact ⟨_, .of rfl ⟨rfl, rfl, rfl, rfl, rfl, rfl, .inl rfl⟩⟩
  | closeAck k counted =>
    simp only [fire, endAck]
    split
    · rw [State.keepFailure_eq]
      exact ⟨_, .of rfl (.keep _ _ (.inr (.inr rfl)))⟩
    · split
      · exact ⟨_, .of rfl ⟨rfl, rfl, rfl, rfl, rfl, rfl, .inl rfl⟩⟩
      · exact ⟨_, .of rfl (.refl _)⟩
  | closeByte dst => cases dst <;> exact ⟨_, .of rfl ⟨rfl, rfl, rfl, rfl, rfl, rfl, .inl rfl⟩⟩
  | senseSCL =>
    obtain ⟨v, e, h⟩ := sampleSCL_spec s
    simp only [fire, h]
    exact ⟨_, .of rfl ⟨rfl, rfl, rfl, rfl, rfl, rfl, .inl rfl⟩⟩
  | senseSDA =>
    obtain ⟨v, e, h⟩ := sampleSDA_spec s
    simp only [fire, h]
    exact ⟨_, .of rfl ⟨rfl, rfl, rfl, rfl, rfl, rfl, .inl rfl⟩⟩

/-- A SUB-OPERATION leaves everything but the lines, the environment and the engine as it was. -/
theorem runMicro_spec (fuel : Nat) (m : Micro) (s : State) :
    ∃ new, LineMoves s (runMicro fuel m s).state new := by
  induction fuel generalizing m s with
  | zero => exact ⟨_, .refl s⟩
  | succ fuel ih =>
    obtain ⟨ev, h⟩ := fire_spec m s
    simp only [runMicro]
    split <;> rename_i heq <;> rw [heq] at h
    · exact ⟨_, h⟩
    · exact ⟨_, h⟩
    · rename_i m' s'
      obtain ⟨new, k⟩ := ih m' s'
      exact ⟨_, h.trans k⟩

/-- A SEQUENCE OF LINE EVENTS leaves everything but the lines, the environment and the engine as it was. -/
theorem runSeq_spec (ms : List Micro) (s : State) : ∃ new, LineMoves s (runSeq ms s).state new := by
  induction ms generalizing s with
  | nil => exact ⟨_, .refl s⟩
  | cons m rest ih =>
    obtain ⟨new, h⟩ := runMicro_spec (waitFuel s) m s
    simp only [runSeq]
    split <;> rename_i heq <;> rw [heq] at h
    · obtain ⟨more, k⟩ := ih _
      exact ⟨_, h.trans k⟩
    · exact ⟨_, h⟩

/-- A sequence runs its first part, and its second part only if the first did not fail (R95). -/
theorem runSeq_append (xs ys : List Micro) (s : State) :
    runSeq (xs ++ ys) s =
      match runSeq xs s with
      | .ok s' => runSeq ys s'
      | .failed s' => .failed s' := by
  induction xs generalizing s with
  | nil => rfl
  | cons m rest ih =>
    simp only [List.cons_append, runSeq]
    cases runMicro (waitFuel s) m s with
    | ok s' => exact ih s'
    | failed s' => rfl

theorem runSeq_append_ok {xs ys : List Micro} {s t : State} (h : runSeq xs s = .ok t) :
    runSeq (xs ++ ys) s = runSeq ys t := by rw [runSeq_append, h]

theorem runSeq_append_failed {xs ys : List Micro} {s t : State} (h : runSeq xs s = .failed t) :
    runSeq (xs ++ ys) s = .failed t := by rw [runSeq_append, h]

theorem waitFuel_pos (s : State) : waitFuel s = (2 * s.conf.tBitTo.toNat + 1) + 1 := rfl

theorem runSeq_cons_ok {m : Micro} {rest : List Micro} {s t : State} (h : runMicro (waitFuel s) m s = .ok t) :
    runSeq (m :: rest) s = runSeq rest t := by simp [runSeq, h]

theorem runSeq_cons_stopped {m : Micro} {rest : List Micro} {s t : State}
    (h : runMicro (waitFuel s) m s = .failed t) : runSeq (m :: rest) s = .failed t := by simp [runSeq, h]

/-- An engine step that is done at once is the whole sub-operation. -/
theorem runSeq_cons_done {m : Micro} {rest : List Micro} {s t : State} (h : fire m s = .done t) :
    runSeq (m :: rest) s = runSeq rest t := by
  simp [runSeq, waitFuel_pos, runMicro, h]

theorem runSeq_cons_failed {m : Micro} {rest : List Micro} {s t : State} (h : fire m s = .failed t) :
    runSeq (m :: rest) s = .failed t := by
  simp [runSeq, waitFuel_pos, runMicro, h]

end Sys2Proof.Machine
end

