-- ==== Sys2Proof/Laws/Wait.lean ====
section
/-! SUPPORT. The clock-stretch timeout detector (40_framing_engine.md R93, R94): what a bounded wait does on the
samples in store. -/

namespace Sys2Proof.Machine

theorem zeroExtend_word_toNat (x : Word) : (x.zeroExtend 33).toNat = x.toNat := by
  simp [BitVec.truncate_eq_setWidth]
  omega

theorem waitTrace_succ (k : Nat) :
    waitTrace (k + 1) = [LineEvent.sampleSCL false, LineEvent.delay 1] ++ waitTrace k := by
  simp [waitTrace, List.replicate_succ]

theorem stuckTrace_succ (k : Nat) :
    stuckTrace (k + 1) = [LineEvent.sampleSCL false, LineEvent.delay 1] ++ stuckTrace k := by
  simp [stuckTrace, List.replicate_succ]

theorem overrunTrace_succ (k : Nat) :
    overrunTrace (k + 1) = [LineEvent.sampleSCL false, LineEvent.delay 1] ++ overrunTrace k := by
  simp [overrunTrace, List.replicate_succ]

/-- The engine after one poll delay. -/
def Engine.tick (e : Engine) : Engine := { e with n := e.n + 1#33 }

/-- A low sample with per-bit budget left leads to the poll delay. -/
theorem fire_wait_low {f : FailAs} {s : State} {vs : List Level} (hl : s.sclO = true)
    (hv : s.env.scl = false :: vs) (hn : s.eng.n.toNat < s.conf.tBitTo.toNat) :
    fire (.wait f) s =
      .again (.pollDelay f)
        { s with env := { s.env with scl := vs }, trace := s.trace ++ [.sampleSCL false] } := by
  have : ¬ s.conf.tBitTo.zeroExtend 33 ≤ s.eng.n := by
    rw [BitVec.le_def, zeroExtend_word_toNat]; omega
  simp only [fire, poll, sampleSCL_stored hl hv, if_neg this]

/-- A low sample with the per-bit budget spent fails (R93). -/
theorem fire_wait_spent {f : FailAs} {s : State} {vs : List Level} (hl : s.sclO = true)
    (hv : s.env.scl = false :: vs) (hn : s.conf.tBitTo.toNat ≤ s.eng.n.toNat) :
    fire (.wait f) s =
      .failed (({ s with env := { s.env with scl := vs }, trace := s.trace ++ [.sampleSCL false] } :
        State).keepFailure (f.failure s.eng.n)) := by
  have : s.conf.tBitTo.zeroExtend 33 ≤ s.eng.n := by
    rw [BitVec.le_def, zeroExtend_word_toNat]; omega
  simp only [fire, poll, sampleSCL_stored hl hv, if_pos this]

/-- A high sample ends the wait and adds `n` to `acc` (R93). -/
theorem fire_wait_high {f : FailAs} {s : State} {vs : List Level} (hl : s.sclO = true)
    (hv : s.env.scl = true :: vs) :
    fire (.wait f) s =
      .done { s with
        env := { s.env with scl := vs }, trace := s.trace ++ [.sampleSCL true],
        eng := { s.eng with acc := s.eng.acc + s.eng.n } } := by
  simp only [fire, poll, sampleSCL_stored hl hv, State.setEng]

theorem count_add_toNat {x y : Count} (h : x.toNat + y.toNat < 2 ^ 33) : (x + y).toNat = x.toNat + y.toNat := by
  rw [BitVec.toNat_add, Nat.mod_eq_of_lt h]

theorem pollUs_toNat : Config.pollUs.toNat = 1 := rfl

/-- A poll delay within the per-byte budget leads to the next sample (R93). -/
theorem fire_pollDelay_within {f : FailAs} {s : State}
    (h : s.eng.acc.toNat + s.eng.n.toNat + 1 ≤ s.conf.tByteTo.toNat) :
    fire (.pollDelay f) s =
      .again (.wait f) { s with trace := s.trace ++ [.delay 1], eng := s.eng.tick } := by
  have hb := s.conf.tByteTo.isLt
  have h1 : (s.eng.n + Config.pollUs).toNat = s.eng.n.toNat + 1 := by
    rw [count_add_toNat] <;> simp only [pollUs_toNat]; omega
  have : ¬ s.conf.tByteTo.zeroExtend 33 < s.eng.acc + (s.eng.n + Config.pollUs) := by
    rw [BitVec.lt_def, zeroExtend_word_toNat, count_add_toNat] <;> omega
  exact if_neg this

/-- A poll delay that exceeds the per-byte budget fails with the sum (R93). -/
theorem fire_pollDelay_over {f : FailAs} {s : State}
    (h : s.conf.tByteTo.toNat < s.eng.acc.toNat + s.eng.n.toNat + 1)
    (hs : s.eng.acc.toNat + s.eng.n.toNat + 1 < 2 ^ 33) :
    fire (.pollDelay f) s =
      .failed (({ s with trace := s.trace ++ [.delay 1], eng := s.eng.tick } : State).keepFailure
        (f.failure (s.eng.acc + s.eng.tick.n))) := by
  have h1 : (s.eng.n + Config.pollUs).toNat = s.eng.n.toNat + 1 := by
    rw [count_add_toNat] <;> simp only [pollUs_toNat]; omega
  have : s.conf.tByteTo.zeroExtend 33 < s.eng.acc + (s.eng.n + Config.pollUs) := by
    rw [BitVec.lt_def, zeroExtend_word_toNat, count_add_toNat] <;> omega
  exact if_pos this

/-- THE WAIT THAT SUCCEEDS (R93, R94): SCL seen high after `k` poll delays, both budgets kept. -/
theorem runMicro_wait_high (f : FailAs) (k : Nat) (rest : List Level) :
    ∀ (s : State) (fuel : Nat), s.sclO = true → s.env.scl = List.replicate k false ++ true :: rest →
      s.eng.n.toNat + k ≤ s.conf.tBitTo.toNat →
      s.eng.acc.toNat + s.eng.n.toNat + k ≤ s.conf.tByteTo.toNat → 2 * k + 1 ≤ fuel →
      runMicro fuel (.wait f) s =
        .ok { s with
          trace := s.trace ++ waitTrace k, env := { s.env with scl := rest }
          eng := { s.eng with
            n := s.eng.n + BitVec.ofNat 33 k, acc := s.eng.acc + (s.eng.n + BitVec.ofNat 33 k) } } := by
  induction k with
  | zero =>
    intro s fuel hl hv _ _ hf
    obtain ⟨fuel, rfl⟩ : ∃ m, fuel = m + 1 := ⟨fuel - 1, by omega⟩
    simp [runMicro, fire_wait_high hl hv, waitTrace]
  | succ k ih =>
    intro s fuel hl hv hbit hbyte hf
    obtain ⟨fuel, rfl⟩ : ∃ m, fuel = m + 2 := ⟨fuel - 2, by omega⟩
    have hv' : s.env.scl = false :: (List.replicate k false ++ true :: rest) := by
      simpa [List.replicate_succ] using hv
    have hb := s.conf.tBitTo.isLt
    have htick : s.eng.tick.n.toNat = s.eng.n.toNat + 1 := by
      simp only [Engine.tick]; rw [count_add_toNat] <;> simp; omega
    rw [runMicro, fire_wait_low hl hv' (by omega)]
    simp only []
    rw [runMicro, fire_pollDelay_within (by simp only []; omega)]
    simp only []
    refine (ih _ fuel (by exact hl) (by rfl) (by simp only [htick]; omega)
      (by simp only [htick]; simp only [Engine.tick]; omega) (by omega)).trans ?_
    have hk : BitVec.ofNat 33 (k + 1) = 1#33 + BitVec.ofNat 33 k := by
      rw [← BitVec.ofNat_add, Nat.add_comm]
    simp [waitTrace_succ, Engine.tick, hk, BitVec.add_assoc]

/-- THE WAIT THAT TIMES OUT (R93, R94): SCL low at every one of the `k + 1` samples that the per-bit budget
leaves, the per-byte budget kept. -/
theorem runMicro_wait_stuck (f : FailAs) (k : Nat) (rest : List Level) :
    ∀ (s : State) (fuel : Nat), s.sclO = true → s.env.scl = List.replicate (k + 1) false ++ rest →
      s.eng.n.toNat + k = s.conf.tBitTo.toNat →
      s.eng.acc.toNat + s.eng.n.toNat + k ≤ s.conf.tByteTo.toNat → 2 * k + 1 ≤ fuel →
      runMicro fuel (.wait f) s =
        .failed (({ s with
          trace := s.trace ++ stuckTrace k, env := { s.env with scl := rest }
          eng := { s.eng with n := s.eng.n + BitVec.ofNat 33 k } } : State).keepFailure
            (f.failure (s.conf.tBitTo.zeroExtend 33))) := by
  induction k with
  | zero =>
    intro s fuel hl hv hn _ hf
    obtain ⟨fuel, rfl⟩ : ∃ m, fuel = m + 1 := ⟨fuel - 1, by omega⟩
    have hv' : s.env.scl = false :: rest := by simpa using hv
    have : s.conf.tBitTo.zeroExtend 33 = s.eng.n :=
      BitVec.eq_of_toNat_eq (by rw [zeroExtend_word_toNat]; omega)
    simp [runMicro, fire_wait_spent hl hv' (by omega), stuckTrace, this]
  | succ k ih =>
    intro s fuel hl hv hbit hbyte hf
    obtain ⟨fuel, rfl⟩ : ∃ m, fuel = m + 2 := ⟨fuel - 2, by omega⟩
    have hv' : s.env.scl = false :: (List.replicate (k + 1) false ++ rest) := by
      simpa [List.replicate_succ] using hv
    have hb := s.conf.tBitTo.isLt
    have htick : s.eng.tick.n.toNat = s.eng.n.toNat + 1 := by
      simp only [Engine.tick]; rw [count_add_toNat] <;> simp; omega
    rw [runMicro, fire_wait_low hl hv' (by omega)]
    simp only []
    rw [runMicro, fire_pollDelay_within (by simp only []; omega)]
    simp only []
    refine (ih _ fuel (by exact hl) (by rfl) (by simp only [htick]; omega)
      (by simp only [htick]; simp only [Engine.tick]; omega) (by omega)).trans ?_
    have hk : BitVec.ofNat 33 (k + 1) = 1#33 + BitVec.ofNat 33 k := by
      rw [← BitVec.ofNat_add, Nat.add_comm]
    simp [stuckTrace_succ, Engine.tick, hk, BitVec.add_assoc]

/-- THE WAIT CUT OFF BY THE PER-BYTE BUDGET (R93, R94): its `k`-th poll delay takes the sum to `T_BYTE_TO + 1`,
with the per-bit budget not yet spent. -/
theorem runMicro_wait_over (f : FailAs) (k : Nat) (rest : List Level) :
    ∀ (s : State) (fuel : Nat), s.sclO = true → s.env.scl = List.replicate (k + 1) false ++ rest →
      s.eng.n.toNat + k < s.conf.tBitTo.toNat →
      s.eng.acc.toNat + s.eng.n.toNat + k = s.conf.tByteTo.toNat → 2 * k + 2 ≤ fuel →
      runMicro fuel (.wait f) s =
        .failed (({ s with
          trace := s.trace ++ overrunTrace (k + 1), env := { s.env with scl := rest }
          eng := { s.eng with n := s.eng.n + BitVec.ofNat 33 (k + 1) } } : State).keepFailure
            (f.failure (s.conf.tByteTo.zeroExtend 33 + 1#33))) := by
  induction k with
  | zero =>
    intro s fuel hl hv hn hsum hf
    obtain ⟨fuel, rfl⟩ : ∃ m, fuel = m + 2 := ⟨fuel - 2, by omega⟩
    have hv' : s.env.scl = false :: rest := by simpa using hv
    have hb := s.conf.tByteTo.isLt
    have : s.conf.tByteTo.zeroExtend 33 + 1#33 = s.eng.acc + s.eng.tick.n := by
      have h0 : s.conf.tByteTo.zeroExtend 33 = s.eng.acc + s.eng.n :=
        BitVec.eq_of_toNat_eq (by rw [zeroExtend_word_toNat, count_add_toNat] <;> omega)
      rw [h0, BitVec.add_assoc]; rfl
    rw [runMicro, fire_wait_low hl hv' (by omega)]
    simp only []
    rw [runMicro, fire_pollDelay_over (by simp only []; omega) (by simp only []; omega), this]
    simp [overrunTrace, Engine.tick]
  | succ k ih =>
    intro s fuel hl hv hbit hbyte hf
    obtain ⟨fuel, rfl⟩ : ∃ m, fuel = m + 2 := ⟨fuel - 2, by omega⟩
    have hv' : s.env.scl = false :: (List.replicate (k + 1) false ++ rest) := by
      simpa [List.replicate_succ] using hv
    have hb := s.conf.tBitTo.isLt
    have htick : s.eng.tick.n.toNat = s.eng.n.toNat + 1 := by
      simp only [Engine.tick]; rw [count_add_toNat] <;> simp; omega
    rw [runMicro, fire_wait_low hl hv' (by omega)]
    simp only []
    rw [runMicro, fire_pollDelay_within (by simp only []; omega)]
    simp only []
    refine (ih _ fuel (by exact hl) (by rfl) (by simp only [htick]; omega)
      (by simp only [htick]; simp only [Engine.tick]; omega) (by omega)).trans ?_
    have hk : BitVec.ofNat 33 (k + 1 + 1) = 1#33 + BitVec.ofNat 33 (k + 1) := by
      rw [← BitVec.ofNat_add, Nat.add_comm]
    simp [overrunTrace_succ k.succ, Engine.tick, hk, BitVec.add_assoc]

/-- THE FUEL OF A WAIT IS ENOUGH (log 13): from `n <- 0` a bounded wait ends before its fuel does, on any
samples, so its outcome does not depend on the fuel. -/
theorem runMicro_wait_fuel (f : FailAs) (j : Nat) :
    ∀ (s : State) (fuel : Nat), s.conf.tBitTo.toNat ≤ s.eng.n.toNat + j →
      s.eng.n.toNat ≤ s.conf.tBitTo.toNat → 2 * j + 1 ≤ fuel →
      runMicro fuel (.wait f) s = runMicro (2 * j + 1) (.wait f) s := by
  induction j with
  | zero =>
    intro s fuel hj _ hf
    obtain ⟨fuel, rfl⟩ : ∃ m, fuel = m + 1 := ⟨fuel - 1, by omega⟩
    obtain ⟨v, e, h⟩ := sampleSCL_spec s
    have : s.conf.tBitTo.zeroExtend 33 ≤ s.eng.n := by
      rw [BitVec.le_def, zeroExtend_word_toNat]; omega
    cases v <;> simp [runMicro, fire, poll, h, this]
  | succ j ih =>
    intro s fuel hj hle hf
    obtain ⟨fuel, rfl⟩ : ∃ m, fuel = m + 2 := ⟨fuel - 2, by omega⟩
    obtain ⟨v, e, h⟩ := sampleSCL_spec s
    have hsplit : ∀ n, runMicro (n + 2) (.wait f) s =
        match fire (.wait f) s with
        | .done s' => .ok s'
        | .failed s' => .failed s'
        | .again m' s' =>
          match fire m' s' with
          | .done s'' => .ok s''
          | .failed s'' => .failed s''
          | .again m'' s'' => runMicro n m'' s'' := fun n => rfl
    rw [hsplit, show 2 * (j + 1) + 1 = (2 * j + 1) + 2 by omega, hsplit]
    cases v with
    | true => simp [fire, poll, h]
    | false =>
      by_cases hn : s.conf.tBitTo.zeroExtend 33 ≤ s.eng.n
      · simp [fire, poll, h, hn]
      · have hw : fire (.wait f) s =
            .again (.pollDelay f) { s with env := e, trace := s.trace ++ [.sampleSCL false] } := by
          simp only [fire, poll, h, if_neg hn]
        rw [BitVec.le_def, zeroExtend_word_toNat] at hn
        have hb := s.conf.tBitTo.isLt
        have htick : s.eng.tick.n.toNat = s.eng.n.toNat + 1 := by
          simp only [Engine.tick]; rw [count_add_toNat] <;> simp; omega
        rw [hw]
        simp only []
        by_cases ho : s.conf.tByteTo.zeroExtend 33 < s.eng.acc + (s.eng.n + Config.pollUs)
        · have hp : ∃ u, fire (.pollDelay f) { s with env := e, trace := s.trace ++ [.sampleSCL false] } =
              .failed u := ⟨_, if_pos ho⟩
          obtain ⟨u, hp⟩ := hp
          rw [hp]
        · have hp : fire (.pollDelay f) { s with env := e, trace := s.trace ++ [.sampleSCL false] } =
              .again (.wait f) { s with
                env := e, trace := s.trace ++ [.sampleSCL false] ++ [.delay 1], eng := s.eng.tick } :=
            if_neg ho
          rw [hp]
          simp only []
          exact ih _ fuel (by simp only [htick]; omega) (by simp only [htick]; omega) (by omega)

end Sys2Proof.Machine
end

