-- ==== Sys2Proof/Laws/Cells.lean ====
section
/-! SUPPORT. What the sub-operations do on the samples in store: START_SEQ, STOP_SEQ, bit cells, bytes, recovery
pulses (40_framing_engine.md R98, R101; 41_serdes.md R107, R110; 43_control_recovery.md R140). -/

namespace Sys2Proof.Machine

/-- The state after SCL was released and seen high after `k` poll delays. -/
def State.risen (s : State) (fresh : Bool) (k : Nat) (rest : List Level) : State :=
  { s with
    sclO := true, trace := s.trace ++ ([LineEvent.driveSCL true] ++ waitTrace k)
    env := { s.env with scl := rest }
    eng := { s.eng with
      n := BitVec.ofNat 33 k, acc := (if fresh then 0#33 else s.eng.acc) + BitVec.ofNat 33 k } }

/-- The state after SCL was released and not seen high: `new` is what the wait added to the trace, `j` its poll
delays. -/
def State.stuckLow (s : State) (fresh : Bool) (new : List LineEvent) (j : Nat) (rest : List Level)
    (f : Failure) : State :=
  ({ s with
    sclO := true, trace := s.trace ++ ([LineEvent.driveSCL true] ++ new), env := { s.env with scl := rest }
    eng := { s.eng with n := BitVec.ofNat 33 j, acc := if fresh then 0#33 else s.eng.acc } } :
      State).keepFailure f

theorem releaseSCL_fire (fresh : Bool) (s : State) :
    fire (.releaseSCL fresh) s =
      .done { s with
        sclO := true, trace := s.trace ++ [LineEvent.driveSCL true]
        eng := { s.eng with n := 0#33, acc := if fresh then 0#33 else s.eng.acc } } := rfl

/-- Release SCL and wait: it rises within both budgets. -/
theorem runSeq_release_high {s : State} {fresh : Bool} {f : FailAs} {k : Nat} {rest : List Level}
    {ms : List Micro} (hv : s.env.scl = List.replicate k false ++ true :: rest)
    (hbit : k ≤ s.conf.tBitTo.toNat)
    (hbyte : (if fresh then 0#33 else s.eng.acc).toNat + k ≤ s.conf.tByteTo.toNat) :
    runSeq (.releaseSCL fresh :: .wait f :: ms) s = runSeq ms (s.risen fresh k rest) := by
  refine (runSeq_cons_done (releaseSCL_fire fresh s)).trans ((runSeq_cons_ok
    (runMicro_wait_high f k rest _ _ (by rfl) (by exact hv) (by simpa using hbit) (by simpa using hbyte)
      (by simp only [waitFuel]; omega))).trans ?_)
  simp [State.risen]

/-- Release SCL and wait: it stays low for `T_BIT_TO` poll delays. -/
theorem runSeq_release_stuck {s : State} {fresh : Bool} {f : FailAs} {rest : List Level}
    {ms : List Micro} (hv : s.env.scl = List.replicate (s.conf.tBitTo.toNat + 1) false ++ rest)
    (hbyte : (if fresh then 0#33 else s.eng.acc).toNat + s.conf.tBitTo.toNat ≤ s.conf.tByteTo.toNat) :
    runSeq (.releaseSCL fresh :: .wait f :: ms) s =
      .failed (s.stuckLow fresh (stuckTrace s.conf.tBitTo.toNat) s.conf.tBitTo.toNat rest
        (f.failure (s.conf.tBitTo.zeroExtend 33))) := by
  refine (runSeq_cons_done (releaseSCL_fire fresh s)).trans ((runSeq_cons_stopped
    (runMicro_wait_stuck f s.conf.tBitTo.toNat rest _ _ (by rfl) (by exact hv) (by simp)
      (by simpa using hbyte) (by simp only [waitFuel]; omega))).trans ?_)
  simp [State.stuckLow]

/-- Release SCL and wait: the per-byte budget is exceeded at poll delay `j + 1`. -/
theorem runSeq_release_over {s : State} {fresh : Bool} {f : FailAs} {j : Nat} {rest : List Level}
    {ms : List Micro} (hv : s.env.scl = List.replicate (j + 1) false ++ rest)
    (hbit : j < s.conf.tBitTo.toNat)
    (hbyte : (if fresh then 0#33 else s.eng.acc).toNat + j = s.conf.tByteTo.toNat) :
    runSeq (.releaseSCL fresh :: .wait f :: ms) s =
      .failed (s.stuckLow fresh (overrunTrace (j + 1)) (j + 1) rest
        (f.failure (s.conf.tByteTo.zeroExtend 33 + 1#33))) := by
  refine (runSeq_cons_done (releaseSCL_fire fresh s)).trans ((runSeq_cons_stopped
    (runMicro_wait_over f j rest _ _ (by rfl) (by exact hv) (by simpa using hbit)
      (by simpa using hbyte) (by simp only [waitFuel]; omega))).trans ?_)
  simp [State.stuckLow]

/-- START_SEQ (R98) whose clock rises. -/
theorem runSeq_start {s : State} {k : Nat} {rest : List Level} {ms : List Micro}
    (hv : s.env.scl = List.replicate k false ++ true :: rest) (hk : waitFits s.conf k) :
    runSeq (startSeq ++ ms) s =
      runSeq ms { s with
        sclO := false, sdaO := false, trace := s.trace ++ startTrace s.conf k
        env := { s.env with scl := rest }
        eng := { s.eng with n := BitVec.ofNat 33 k, acc := BitVec.ofNat 33 k } } := by
  simp only [startSeq, List.cons_append, List.nil_append]
  rw [runSeq_cons_done rfl, runSeq_release_high (s := s.setSDA true) (rest := rest) (k := k) hv hk.1
    (by simpa using hk.2)]
  rw [runSeq_cons_done rfl, runSeq_cons_done rfl, runSeq_cons_done rfl, runSeq_cons_done rfl]
  congr 1
  simp [State.risen, State.pause, State.setSDA, State.setSCL, State.record, Hold.us, startTrace, startHead]

/-- STOP_SEQ (R101) whose clock rises. -/
theorem runSeq_stop {s : State} {f : FailAs} {k : Nat} {rest : List Level} {ms : List Micro}
    (hv : s.env.scl = List.replicate k false ++ true :: rest) (hk : waitFits s.conf k) :
    runSeq (stopSeq f ++ ms) s =
      runSeq ms { s with
        sclO := true, sdaO := true, trace := s.trace ++ stopTrace s.conf k
        env := { s.env with scl := rest }
        eng := { s.eng with n := BitVec.ofNat 33 k, acc := BitVec.ofNat 33 k } } := by
  simp only [stopSeq, List.cons_append, List.nil_append]
  rw [runSeq_cons_done rfl, runSeq_cons_done rfl,
    runSeq_release_high (s := (s.setSDA false).pause _) (rest := rest) (k := k) hv hk.1
      (by simpa using hk.2)]
  rw [runSeq_cons_done rfl, runSeq_cons_done rfl, runSeq_cons_done rfl]
  congr 1
  simp [State.risen, State.pause, State.setSDA, State.record, Hold.us, stopTrace, stopHead, stopTail]

/-- One recovery pulse (R140) whose clock rises. -/
theorem runSeq_pulse {s : State} {p k : Nat} {rest : List Level} {ms : List Micro}
    (hv : s.env.scl = List.replicate k false ++ true :: rest) (hk : waitFits s.conf k) :
    runSeq (pulseSeq p ++ ms) s =
      runSeq ms { s with
        sclO := false, trace := s.trace ++ pulseTrace s.conf k
        env := { s.env with scl := rest }
        eng := { s.eng with n := BitVec.ofNat 33 k, acc := BitVec.ofNat 33 k } } := by
  simp only [pulseSeq, List.cons_append, List.nil_append]
  rw [runSeq_release_high (rest := rest) (k := k) (by simpa using hv) hk.1 (by simpa using hk.2)]
  rw [runSeq_cons_done rfl, runSeq_cons_done rfl, runSeq_cons_done rfl]
  congr 1
  simp [State.risen, State.pause, State.setSCL, State.record, Hold.us, pulseTrace]

/-- A write cell (R107) after its `DriveSDA(b)`: `t` is the state that event left. -/
theorem runSeq_clockOut {t : State} {k : Nat} {rest : List Level} {ms : List Micro}
    (hv : t.env.scl = List.replicate k false ++ true :: rest) (hbit : k ≤ t.conf.tBitTo.toNat)
    (hbyte : t.eng.acc.toNat + k ≤ t.conf.tByteTo.toNat) :
    runSeq (clockOut ++ ms) t =
      runSeq ms { t with
        sclO := false
        trace := t.trace ++ ([LineEvent.delay Config.dataSetupUs, LineEvent.driveSCL true] ++ waitTrace k ++
          [LineEvent.delay t.conf.tHigh.toNat, LineEvent.driveSCL false, LineEvent.delay t.conf.tLow.toNat])
        env := { t.env with scl := rest }
        eng := { t.eng with n := BitVec.ofNat 33 k, acc := t.eng.acc + BitVec.ofNat 33 k } } := by
  simp only [clockOut, List.cons_append, List.nil_append]
  rw [runSeq_cons_done rfl,
    runSeq_release_high (s := t.pause _) (rest := rest) (k := k) hv hbit (by simpa using hbyte)]
  rw [runSeq_cons_done rfl, runSeq_cons_done rfl, runSeq_cons_done rfl]
  congr 1
  simp [State.risen, State.pause, State.setSCL, State.record, Hold.us]

/-- A read cell (R107) up to its last event: `t` is the state its `DriveSDA(1)` left. -/
theorem runSeq_readCell {s t : State} {first last : Micro} {k : Nat} {v : Level} {rest rest' : List Level}
    {ms : List Micro} (hf : fire first s = .done t) (hsda : t.sdaO = true)
    (hv : t.env.scl = List.replicate k false ++ true :: rest) (hd : t.env.sda = v :: rest')
    (hbit : k ≤ t.conf.tBitTo.toNat) (hbyte : t.eng.acc.toNat + k ≤ t.conf.tByteTo.toNat) :
    runSeq (readCell first last ++ ms) s =
      runSeq (last :: ms) { t with
        sclO := false
        trace := t.trace ++ ([LineEvent.delay Config.dataSetupUs, LineEvent.driveSCL true] ++ waitTrace k ++
          [LineEvent.delay (t.conf.tHigh.toNat / 2), LineEvent.sampleSDA v,
            LineEvent.delay (t.conf.tHigh.toNat - t.conf.tHigh.toNat / 2), LineEvent.driveSCL false])
        env := { t.env with scl := rest, sda := rest' }
        eng := { t.eng with
          n := BitVec.ofNat 33 k, acc := t.eng.acc + BitVec.ofNat 33 k
          sr := setSrBit t.eng.sr t.eng.i v } } := by
  simp only [readCell, List.cons_append, List.nil_append]
  rw [runSeq_cons_done hf, runSeq_cons_done rfl,
    runSeq_release_high (s := t.pause _) (rest := rest) (k := k) hv hbit (by simpa using hbyte)]
  rw [runSeq_cons_done rfl]
  rw [runSeq_cons_done (by
    simp only [fire]
    rw [sampleSDA_stored (v := v) (vs := rest') (by simpa [State.risen] using hsda)
      (by simpa [State.risen] using hd)])]
  rw [runSeq_cons_done rfl, runSeq_cons_done rfl]
  congr 1
  simp [State.risen, State.pause, State.setSCL, State.record, State.setEng, Hold.us]

end Sys2Proof.Machine
end

