-- ==== Sys2Proof/Laws/Bytes.lean ====
section
/-! SUPPORT. What the byte sub-operations do on the samples in store (41_serdes.md R110, R111). -/

namespace Sys2Proof.Machine

theorem stretched_cons (k : Nat) (ks : List Nat) (rest : List Level) :
    stretched (k :: ks) ++ rest = List.replicate k false ++ true :: (stretched ks ++ rest) := by
  simp [stretched]

theorem stretched_append (ks ls : List Nat) : stretched (ks ++ ls) = stretched ks ++ stretched ls := by
  simp [stretched]

theorem stretched_nil : stretched [] = [] := rfl

theorem count_ofNat_toNat {k : Nat} (h : k < 2 ^ 33) : (BitVec.ofNat 33 k).toNat = k := by
  rw [BitVec.toNat_ofNat, Nat.mod_eq_of_lt h]

/-- The bits of `is` sent from the shift register, with `ks` poll delays: the cells after a byte's first one. -/
theorem runSeq_writeBits {ms : List Micro} (is : List Nibble) :
    ∀ (ks : List Nat) (s : State) (rest : List Level), ks.length = is.length →
      (∀ k ∈ ks, k ≤ s.conf.tBitTo.toNat) → s.eng.acc.toNat + ks.sum ≤ s.conf.tByteTo.toNat →
      s.env.scl = stretched ks ++ rest → s.sclO = false →
      runSeq ((is.flatMap fun i => writeCell (.nextWrite i)) ++ ms) s =
        runSeq ms { s with
          sdaO := is.foldl (fun _ i => srBit s.eng.sr i) s.sdaO
          trace := s.trace ++ (List.zipWith (fun k i => writeCellTrace s.conf k (srBit s.eng.sr i)) ks is).flatten
          env := { s.env with scl := rest }
          eng := { s.eng with
            n := ks.foldl (fun _ k => BitVec.ofNat 33 k) s.eng.n
            acc := s.eng.acc + BitVec.ofNat 33 ks.sum
            i := is.foldl (fun _ i => i) s.eng.i } } := by
  induction is with
  | nil =>
    intro ks s rest hlen _ _ hv _
    obtain rfl : ks = [] := List.length_eq_zero_iff.mp hlen
    have : s.env.scl = rest := hv
    simp [← this]
  | cons i is ih =>
    intro ks s rest hlen hbit hsum hv hscl
    obtain ⟨k, ks, rfl⟩ : ∃ k ks', ks = k :: ks' := List.exists_cons_of_length_eq_add_one hlen
    rw [List.sum_cons] at hsum
    have hb := s.conf.tByteTo.isLt
    have hacc : (s.eng.acc + BitVec.ofNat 33 k).toNat = s.eng.acc.toNat + k := by
      rw [count_add_toNat] <;> rw [count_ofNat_toNat] <;> omega
    simp only [List.flatMap_cons, writeCell, List.cons_append, List.append_assoc]
    rw [runSeq_cons_done (t := (s.setEng { s.eng with i := i }).setSDA (srBit s.eng.sr i)) rfl,
      runSeq_clockOut (t := (s.setEng { s.eng with i := i }).setSDA (srBit s.eng.sr i)) (k := k)
        (rest := stretched ks ++ rest) (by simpa [stretched_cons] using hv) (hbit k (by simp)) (by simp; omega)]
    refine Eq.trans (ih ks _ rest (by simpa using hlen) (fun k hk => hbit k (by simp [hk])) ?_ (by rfl) (by rfl)) ?_
    · simp only [State.setSDA_eng, State.setEng_eng, hacc, State.setSDA_conf, State.setEng_conf]; omega
    · congr 1
      simp [State.setSDA, State.setEng, State.record, hscl, writeCellTrace, cellHead, BitVec.add_assoc,
        ← BitVec.ofNat_add]

/-- The bits of `is` read into the shift register, with `ks` poll delays and SDA samples `vs`: the cells after a
byte's first one and before its last. -/
theorem runSeq_readBits {ms : List Micro} (is : List Nibble) :
    ∀ (ks : List Nat) (vs : List Level) (s : State) (rest rest' : List Level), ks.length = is.length →
      vs.length = is.length → (∀ k ∈ ks, k ≤ s.conf.tBitTo.toNat) →
      s.eng.acc.toNat + ks.sum ≤ s.conf.tByteTo.toNat →
      s.env.scl = stretched ks ++ rest → s.env.sda = vs ++ rest' → s.sclO = false → s.sdaO = true →
      runSeq ((is.flatMap fun i => readCell (.nextRead i) (.hold .low)) ++ ms) s =
        runSeq ms { s with
          trace := s.trace ++ (List.zipWith (readCellTrace s.conf) ks vs).flatten
          env := { s.env with scl := rest, sda := rest' }
          eng := { s.eng with
            n := ks.foldl (fun _ k => BitVec.ofNat 33 k) s.eng.n
            acc := s.eng.acc + BitVec.ofNat 33 ks.sum
            sr := (is.zip vs).foldl (fun x p => setSrBit x p.1 p.2) s.eng.sr
            i := is.foldl (fun _ i => i) s.eng.i } } := by
  induction is with
  | nil =>
    intro ks vs s rest rest' hlen hlen' _ _ hv hd _ _
    obtain rfl : ks = [] := List.length_eq_zero_iff.mp hlen
    obtain rfl : vs = [] := List.length_eq_zero_iff.mp hlen'
    have h1 : s.env.scl = rest := hv
    have h2 : s.env.sda = rest' := hd
    simp [← h1, ← h2]
  | cons i is ih =>
    intro ks vs s rest rest' hlen hlen' hbit hsum hv hd hscl hsda
    obtain ⟨k, ks, rfl⟩ : ∃ k ks', ks = k :: ks' := List.exists_cons_of_length_eq_add_one hlen
    obtain ⟨v, vs, rfl⟩ : ∃ v vs', vs = v :: vs' := List.exists_cons_of_length_eq_add_one hlen'
    rw [List.sum_cons] at hsum
    have hb := s.conf.tByteTo.isLt
    have hacc : (s.eng.acc + BitVec.ofNat 33 k).toNat = s.eng.acc.toNat + k := by
      rw [count_add_toNat] <;> rw [count_ofNat_toNat] <;> omega
    simp only [List.flatMap_cons, List.append_assoc]
    rw [runSeq_readCell (s := s) (t := (s.setEng { s.eng with i := i }).setSDA true) (k := k) (v := v)
        (rest := stretched ks ++ rest) (rest' := vs ++ rest') rfl rfl (by simpa [stretched_cons] using hv)
        (by simpa using hd) (hbit k (by simp)) (by simp; omega),
      runSeq_cons_done rfl]
    refine Eq.trans (ih ks vs _ rest rest' (by simpa using hlen) (by simpa using hlen')
      (fun k hk => hbit k (by simp [hk])) ?_ (by rfl) (by rfl) (by rfl) (by rfl)) ?_
    · simp only [State.pause_eng, State.setSDA_eng, State.setEng_eng, hacc, State.pause_conf, State.setSDA_conf,
        State.setEng_conf]
      omega
    · congr 1
      simp [State.setSDA, State.setEng, State.pause, State.record, hscl, hsda, Hold.us, readCellTrace, cellHead,
        BitVec.add_assoc, ← BitVec.ofNat_add]

/-- WRITE_BIT_SEQ with a fresh accumulator (R107, R108): bit 0 of `x`. -/
theorem runSeq_writeBit {s : State} {x : Byte} {k : Nat} {rest : List Level} {ms : List Micro}
    (hv : s.env.scl = List.replicate k false ++ true :: rest) (hk : waitFits s.conf k) :
    runSeq (writeBitSeq x ++ ms) s =
      runSeq ms { s with
        sclO := false, sdaO := srBit x 0#4
        trace := s.trace ++ writeCellTrace s.conf k (srBit x 0#4), env := { s.env with scl := rest }
        eng := { s.eng with
          n := BitVec.ofNat 33 k, acc := BitVec.ofNat 33 k, sr := x, i := 0#4 } } := by
  simp only [writeBitSeq, writeCell, List.cons_append]
  rw [runSeq_cons_done (t := (s.setEng { s.eng with acc := 0#33, sr := x, i := 0#4 }).setSDA (srBit x 0#4)) rfl,
    runSeq_clockOut (t := (s.setEng { s.eng with acc := 0#33, sr := x, i := 0#4 }).setSDA (srBit x 0#4)) (k := k)
      (rest := rest) hv hk.1 (by simpa using hk.2)]
  congr 1
  simp [State.setSDA, State.setEng, State.record, writeCellTrace, cellHead]

/-- A read cell without its last event, `Delay(T_LOW)`. -/
theorem readCellTrace_dropLast (c : Conf) (k : Nat) (v : Level) :
    (readCellTrace c k v).dropLast =
      cellHead true ++ (waitTrace k ++ [LineEvent.delay (c.tHigh.toNat / 2), LineEvent.sampleSDA v,
        LineEvent.delay (c.tHigh.toNat - c.tHigh.toNat / 2), LineEvent.driveSCL false]) := by
  have h : readCellTrace c k v = (cellHead true ++ (waitTrace k ++ [LineEvent.delay (c.tHigh.toNat / 2),
      LineEvent.sampleSDA v, LineEvent.delay (c.tHigh.toNat - c.tHigh.toNat / 2), LineEvent.driveSCL false])) ++
        [LineEvent.delay c.tLow.toNat] := by simp [readCellTrace]
  rw [h, List.dropLast_concat]

/-- A received byte without its last event, `Delay(T_LOW)`. -/
theorem readByteTrace_dropLast (c : Conf) (k0 k1 k2 k3 k4 k5 k6 k7 : Nat) (x : Byte) :
    (readByteTrace c [k0, k1, k2, k3, k4, k5, k6, k7] x).dropLast =
      readCellTrace c k0 (x.getLsbD 7) ++ (readCellTrace c k1 (x.getLsbD 6) ++ (readCellTrace c k2 (x.getLsbD 5) ++
        (readCellTrace c k3 (x.getLsbD 4) ++ (readCellTrace c k4 (x.getLsbD 3) ++
          (readCellTrace c k5 (x.getLsbD 2) ++ (readCellTrace c k6 (x.getLsbD 1) ++
            (readCellTrace c k7 (x.getLsbD 0)).dropLast)))))) := by
  have h : ∀ k v, readCellTrace c k v ≠ [] := fun k v => by simp [readCellTrace]
  simp [readByteTrace, wireBits, List.dropLast_append_of_ne_nil, h]

/-- READ_BIT_SEQ with a fresh accumulator (R107, R109), up to its last event. -/
theorem runSeq_readBit {s : State} {last : Micro} {k : Nat} {v : Level} {rest rest' : List Level}
    {ms : List Micro} (hv : s.env.scl = List.replicate k false ++ true :: rest) (hd : s.env.sda = v :: rest')
    (hk : waitFits s.conf k) :
    runSeq (readBitSeq last ++ ms) s =
      runSeq (last :: ms) { s with
        sclO := false, sdaO := true
        trace := s.trace ++ (readCellTrace s.conf k v).dropLast
        env := { s.env with scl := rest, sda := rest' }
        eng := { s.eng with
          n := BitVec.ofNat 33 k, acc := BitVec.ofNat 33 k, sr := if v then 1#8 else 0#8, i := 0#4 } } := by
  simp only [readBitSeq]
  rw [runSeq_readCell (s := s) (t := (s.setEng { s.eng with acc := 0#33, sr := 0#8, i := 0#4 }).setSDA true)
    (k := k) (v := v) (rest := rest) (rest' := rest') rfl rfl hv hd hk.1 (by simpa using hk.2)]
  congr 1
  have : setSrBit 0#8 0#4 v = if v then 1#8 else 0#8 := by cases v <;> rfl
  simp [State.setSDA, State.setEng, State.record, readCellTrace_dropLast, cellHead, this]

/-- The seven later bit indices of a byte. -/
theorem wireBits_srBit (x : Byte) :
    wireBits x = [7#4, 6#4, 5#4, 4#4, 3#4, 2#4, 1#4, 0#4].map (srBit x) := rfl

/-- WRITE_BYTE_SEQ (R110). -/
theorem runSeq_writeByte {s : State} {x : Byte} {ks : List Nat} {rest : List Level} {ms : List Micro}
    (hv : s.env.scl = stretched ks ++ rest) (hk : byteFits s.conf ks) :
    ∃ n acc, runSeq (writeByteSeq x ++ ms) s =
      runSeq ms { s with
        sclO := false, sdaO := x.getLsbD 0, trace := s.trace ++ writeByteTrace s.conf ks x
        env := { s.env with scl := rest }
        eng := { s.eng with n := n, acc := acc, sr := x, i := 0#4 } } := by
  obtain ⟨hlen, hbit, hsum⟩ := hk
  obtain ⟨k, ks, rfl⟩ : ∃ k ks', ks = k :: ks' := List.exists_cons_of_length_eq_add_one hlen
  rw [List.sum_cons] at hsum
  have hb := s.conf.tByteTo.isLt
  have hacc : (0#33 + BitVec.ofNat 33 k).toNat = k := by
    rw [BitVec.zero_add, count_ofNat_toNat]; omega
  refine ⟨ks.foldl (fun _ k => BitVec.ofNat 33 k) (BitVec.ofNat 33 k),
    BitVec.ofNat 33 k + BitVec.ofNat 33 ks.sum, ?_⟩
  simp only [writeByteSeq, writeCell, List.cons_append, List.append_assoc]
  rw [runSeq_cons_done (t := (s.setEng { s.eng with acc := 0#33, sr := x, i := 7#4 }).setSDA (srBit x 7#4)) rfl,
    runSeq_clockOut (t := (s.setEng { s.eng with acc := 0#33, sr := x, i := 7#4 }).setSDA (srBit x 7#4)) (k := k)
      (rest := stretched ks ++ rest) (by simpa [stretched_cons] using hv) (hbit k (by simp)) (by simp; omega)]
  refine Eq.trans (runSeq_writeBits [6#4, 5#4, 4#4, 3#4, 2#4, 1#4, 0#4] ks _ rest (by simpa using hlen)
    (fun k hk => hbit k (by simp [hk])) ?_ (by rfl) (by rfl)) ?_
  · simp only [State.setSDA_eng, State.setEng_eng, hacc, State.setSDA_conf, State.setEng_conf]; omega
  · congr 1
    obtain ⟨k1, k2, k3, k4, k5, k6, k7, rfl⟩ : ∃ a b c d e f g, ks = [a, b, c, d, e, f, g] := by
      match ks, hlen with
      | [a, b, c, d, e, f, g], _ => exact ⟨a, b, c, d, e, f, g, rfl⟩
    simp [State.setSDA, State.setEng, State.record, writeByteTrace, wireBits, writeCellTrace, cellHead, srBit]

/-- The bits of a byte, most significant first, shifted in make the byte (R110). -/
theorem setSrBit_wireBits (x : Byte) :
    setSrBit (([6#4, 5#4, 4#4, 3#4, 2#4, 1#4].zip [x.getLsbD 6, x.getLsbD 5, x.getLsbD 4, x.getLsbD 3, x.getLsbD 2,
      x.getLsbD 1]).foldl (fun y p => setSrBit y p.1 p.2) (setSrBit 0#8 7#4 (x.getLsbD 7))) 0#4 (x.getLsbD 0) =
      x := by
  revert x; decide +kernel

/-- READ_BYTE_SEQ (R110), up to its last event. -/
theorem runSeq_readByte {s : State} {x : Byte} {last : Micro} {ks : List Nat} {rest rest' : List Level}
    {ms : List Micro} (hv : s.env.scl = stretched ks ++ rest) (hd : s.env.sda = wireBits x ++ rest')
    (hk : byteFits s.conf ks) :
    ∃ n acc, runSeq (readByteSeq last ++ ms) s =
      runSeq (last :: ms) { s with
        sclO := false, sdaO := true, trace := s.trace ++ (readByteTrace s.conf ks x).dropLast
        env := { s.env with scl := rest, sda := rest' }
        eng := { s.eng with n := n, acc := acc, sr := x, i := 0#4 } } := by
  obtain ⟨hlen, hbit, hsum⟩ := hk
  obtain ⟨k0, k1, k2, k3, k4, k5, k6, k7, rfl⟩ : ∃ z a b c d e f g, ks = [z, a, b, c, d, e, f, g] := by
    match ks, hlen with
    | [z, a, b, c, d, e, f, g], _ => exact ⟨z, a, b, c, d, e, f, g, rfl⟩
  have hb := s.conf.tByteTo.isLt
  simp only [List.sum_cons, List.sum_nil] at hsum
  refine ⟨BitVec.ofNat 33 k7, BitVec.ofNat 33 k0 + BitVec.ofNat 33 [k1, k2, k3, k4, k5, k6].sum +
    BitVec.ofNat 33 k7, ?_⟩
  simp only [readByteSeq, List.append_assoc]
  rw [runSeq_readCell (s := s) (t := (s.setEng { s.eng with acc := 0#33, sr := 0#8, i := 7#4 }).setSDA true) (k := k0)
    (v := x.getLsbD 7) (rest := stretched [k1, k2, k3, k4, k5, k6, k7] ++ rest)
    (rest' := [x.getLsbD 6, x.getLsbD 5, x.getLsbD 4, x.getLsbD 3, x.getLsbD 2, x.getLsbD 1, x.getLsbD 0] ++ rest')
    rfl rfl (by simpa [stretched_cons] using hv) (by simpa [wireBits] using hd) (hbit k0 (by simp)) (by simp; omega),
    runSeq_cons_done rfl]
  refine Eq.trans (runSeq_readBits [6#4, 5#4, 4#4, 3#4, 2#4, 1#4] [k1, k2, k3, k4, k5, k6]
    [x.getLsbD 6, x.getLsbD 5, x.getLsbD 4, x.getLsbD 3, x.getLsbD 2, x.getLsbD 1] _
    (stretched [k7] ++ rest) ([x.getLsbD 0] ++ rest') rfl rfl
    (fun k hk => hbit k (by simp only [List.mem_cons] at hk ⊢; tauto)) ?_ (by simp [stretched]) (by rfl) (by rfl)
    (by rfl)) ?_
  · have h0 : (0#33 + BitVec.ofNat 33 k0).toNat = k0 := by rw [BitVec.zero_add, count_ofNat_toNat]; omega
    simp only [State.pause_eng, State.setSDA_eng, State.setEng_eng, h0, State.pause_conf, State.setSDA_conf,
      State.setEng_conf, List.sum_cons, List.sum_nil]
    omega
  · refine Eq.trans (runSeq_readCell (k := k7) (v := x.getLsbD 0) (rest := rest) (rest' := rest') rfl rfl
      (by simp [stretched]) (by simp) (hbit k7 (by simp)) ?_) ?_
    rotate_left
    · congr 1
      have h := setSrBit_wireBits x
      simp only [readByteTrace_dropLast, readCellTrace_dropLast]
      simp [State.setSDA, State.setEng, State.pause, State.record, Hold.us, readCellTrace, cellHead] at h ⊢
      exact h
    · simp only [State.setSDA_eng, State.setEng_eng, State.setSDA_conf, State.setEng_conf, State.pause_eng,
        State.pause_conf, List.sum_cons, List.sum_nil]
      rw [count_add_toNat] <;> simp only [BitVec.zero_add] <;>
        (try rw [count_ofNat_toNat (by omega), count_ofNat_toNat (by omega)]) <;> omega

end Sys2Proof.Machine
end

