-- ==== Sys2Proof/Laws/Completion.lean ====
section
/-! SUPPORT. What `finish`, the gate and the end of a command can do (00_scope.md R10, 30_encoding.md R70,
60_exceptions.md R154, R155). -/

namespace Sys2Proof.Machine

/-- `finish` writes the completion record and makes the engine idle: nothing else (R155). -/
theorem finish_eq (k : Kind) (d : Word) (r : Result) (s : State) :
    finish k d r s = { s.withRecord k d r with eng := { s.eng with phase := .idle, err := none } } := rfl

theorem Engine.settled_finish (e : Engine) : ({ e with phase := .idle, err := none } : Engine).Settled e :=
  ⟨rfl, rfl, rfl, rfl, rfl, rfl⟩

theorem Engine.keeps_finish (e : Engine) :
    ({ e with phase := .idle, err := none } : Engine).KeepsFrameBytes e := ⟨rfl, rfl, rfl, rfl⟩

theorem concludeWith_none {r : Result} {s t : State} (h : s.eng.err = none) : concludeWith r s t = t := by
  simp [concludeWith, h]

theorem concludeWith_some {r : Result} {s t : State} {f : Failure} (h : s.eng.err = some f) :
    concludeWith r s t = finish f.kind f.detail r s := by
  simp [concludeWith, h]

/-- The end of a command is one `finish`; only CONFIG and DECONFIG change CFG in the same step (R136, R138). -/
theorem complete_spec (p : Report) (s : State) :
    ∃ k d r c, complete p s = finish k d r (s.setCfg c) ∧
      (p ≠ .configCheck → p ≠ .unconfigure → c = s.status.cfg) := by
  have keep : ∀ k d r, finish k d r s = finish k d r (s.setCfg s.status.cfg) := fun _ _ _ => rfl
  have conclude : ∀ r t, (∃ k d r', t = finish k d r' s) → ∃ k d r', concludeWith r s t = finish k d r' s := by
    intro r t h
    cases he : s.eng.err with
    | none => rw [concludeWith_none he]; exact h
    | some f => exact ⟨_, _, _, concludeWith_some he⟩
  have done : ∀ t, (∃ k d r, t = finish k d r s) → ∃ k d r c, t = finish k d r (s.setCfg c) ∧
      (p ≠ .configCheck → p ≠ .unconfigure → c = s.status.cfg) := by
    rintro _ ⟨k, d, r, rfl⟩
    exact ⟨k, d, r, _, keep _ _ _, fun _ _ => rfl⟩
  cases p with
  | plain => exact done _ (conclude _ _ ⟨_, _, _, rfl⟩)
  | received => exact done _ (conclude _ _ ⟨_, _, _, rfl⟩)
  | ackFlag => exact done _ (conclude _ _ ⟨_, _, _, rfl⟩)
  | readFrame => exact done _ (conclude _ _ (by split <;> exact ⟨_, _, _, rfl⟩))
  | writeFrame => exact done _ (conclude _ _ ⟨_, _, _, rfl⟩)
  | recovery => exact done _ (conclude _ _ (by split <;> exact ⟨_, _, _, rfl⟩))
  | idleBits => exact done _ (conclude _ _ ⟨_, _, _, rfl⟩)
  | configCheck =>
    simp only [complete]
    split
    · exact ⟨_, _, _, true, rfl, fun h => absurd rfl h⟩
    · exact ⟨_, _, _, s.status.cfg, rfl, fun _ _ => rfl⟩
  | unconfigure => exact ⟨_, _, _, false, rfl, fun _ h => absurd rfl h⟩

/-- A configured block runs every well-formed command but CONFIG (R70). -/
theorem gate_none {i : Instr} {s : State} (hw : i.wellFormed = true) (hi : i ≠ .config)
    (hc : s.status.cfg = true) : gate i s = none := by
  simp [gate, hw, hi, hc]

/-- DECONFIG always runs (R138). -/
theorem gate_deconfig (s : State) : gate .deconfig s = none := by
  simp [gate, needsConfigured, Instr.wellFormed]

/-- CONFIG runs on an unconfigured block (R136). -/
theorem gate_config {s : State} (hc : s.status.cfg = false) : gate .config s = none := by
  simp [gate, needsConfigured, Instr.wellFormed, hc]

theorem runGated_none {g : Option Failure} {c : State × Job} {s : State} (h : g = none) :
    runGated g c s = .next (runJob c.2 c.1) := by simp [runGated, h]

theorem runGated_some {g : Option Failure} {c : State × Job} {s : State} {f : Failure} (h : g = some f) :
    runGated g c s = .next (finish f.kind f.detail {} s) := by simp [runGated, h]

/-- EVERY MEANING is the gate, then the command's job (R70). -/
theorem exec_eq (i : Instr) (s : State) : exec i s = runGated (gate i s) (commandOf i s) s := by
  cases i <;> rfl

/-- The state a command starts its line events in differs from the state it was accepted in by the engine only. -/
theorem commandOf_spec (i : Instr) (s : State) :
    ∃ e, (commandOf i s).1 = s.setEng e ∧ e.err = none ∧ e.phase = s.eng.phase ∧ e.op = s.eng.op ∧
      e.nib = s.eng.nib ∧ e.a = s.eng.a ∧ e.b = s.eng.b := by
  cases i <;> exact ⟨_, rfl, rfl, rfl, rfl, rfl, rfl, rfl⟩

/-- A job whose line events all happen and that has none after them. -/
theorem runJob_ok {ms : List Micro} {p : Report} {s t : State} (h : runSeq ms s = .ok t) :
    runJob { todo := ms, after := [], report := p } s = complete p t := by
  simp [runJob, h, runSeq, Ran.state]

/-- A job whose line events fail and that has none after them. -/
theorem runJob_failed {ms : List Micro} {p : Report} {s t : State} (h : runSeq ms s = .failed t) :
    runJob { todo := ms, after := [], report := p } s = complete p t := by
  simp [runJob, h, runSeq, Ran.state]

/-- An engine step of a running command with a line event to come (R91). -/
theorem engineStep_run {s : State} {m : Micro} {ms after : List Micro} {p : Report} (hb : s.status.busy = true)
    (hp : s.eng.phase = .run (m :: ms) after p) : engineStep s = settle (fire m s) ms after p := by
  simp [engineStep, hb, hp, advance]

/-! ### The host's last response is not the block's -/

/-- The state with another response of the host bus. -/
def State.withRsp (s : State) (r : Response) : State := { s with rsp := r }

/-- The same, of what an engine step leads to. -/
def Fired.withRsp : Fired → Response → Fired
  | .done s, r => .done (s.withRsp r)
  | .again m s, r => .again m (s.withRsp r)
  | .failed s, r => .failed (s.withRsp r)

theorem sampleSCL_withRsp (s : State) (r : Response) :
    sampleSCL (s.withRsp r) = ((sampleSCL s).1, (sampleSCL s).2.withRsp r) := by
  have h : levelSCL (s.withRsp r) = ((levelSCL s).1, (levelSCL s).2.withRsp r) := by
    rcases s with ⟨_, _, _, _, _, _ | _, _, _, _, ⟨_ | ⟨_, _⟩, _, _⟩, _, _⟩ <;>
      cases h : Config.wiredAnd <;> simp [levelSCL, drawSCL, State.withRsp, h]
  simp only [sampleSCL, h]
  rfl

theorem sampleSDA_withRsp (s : State) (r : Response) :
    sampleSDA (s.withRsp r) = ((sampleSDA s).1, (sampleSDA s).2.withRsp r) := by
  have h : levelSDA (s.withRsp r) = ((levelSDA s).1, (levelSDA s).2.withRsp r) := by
    rcases s with ⟨_, _, _, _, _, _, _ | _, _, _, ⟨_, _ | ⟨_, _⟩, _⟩, _, _⟩ <;>
      cases h : Config.wiredAnd <;> simp [levelSDA, drawSDA, State.withRsp, h]
  simp only [sampleSDA, h]
  rfl

/-- No line event depends on the host's last response or changes it. -/
theorem fire_withRsp (m : Micro) (s : State) (r : Response) : fire m (s.withRsp r) = (fire m s).withRsp r := by
  cases m with
  | wait f =>
    obtain ⟨v, e, h⟩ := sampleSCL_spec s
    simp only [fire, poll, sampleSCL_withRsp, h]
    cases v
    · simp only [State.keepFailure_eq, State.withRsp]
      split <;> rfl
    · rfl
  | pollDelay f =>
    simp only [fire, pollPause, State.keepFailure_eq, State.withRsp]
    split <;> split <;> first | rfl | contradiction
  | sampleBit => simp only [fire, sampleSDA_withRsp]; rfl
  | senseSCL => simp only [fire, sampleSCL_withRsp]; rfl
  | senseSDA => simp only [fire, sampleSDA_withRsp]; rfl
  | closeAck k counted =>
    cases h : srBit s.eng.sr 0#4 <;> cases counted <;>
      simp [fire, endAck, State.keepFailure_eq, State.withRsp, State.pause, State.record, State.setEng, Fired.withRsp, h]
  | closeByte dst => cases dst <;> rfl
  | _ => rfl

end Sys2Proof.Machine
end

