-- ==== Sys2Proof/Laws/HostPort.lean ====
section
/-! SUPPORT. What a host access to the window does (20_memory.md R48, R51): the address of a window offset, and the
step of a write and of a read. -/

namespace Sys2Proof.Machine

theorem inWindow_iff (addr : Nat) :
    inWindow addr = true ↔ Config.base ≤ addr ∧ addr < Config.base + 0x40 := by
  simp only [inWindow, Config.base, decide_eq_true_eq]
  omega

theorem inWindow_offset {off : Nat} (h : off < 0x40) : inWindow (Config.base + off) = true :=
  (inWindow_iff _).mpr ⟨by omega, by omega⟩

theorem wordIndex_offset {off : Nat} (h : off < 0x40) : wordIndex (Config.base + off) = off / 4 := by
  have : (Config.base + off) / 4 = 16 * Config.windowIndex + off / 4 := by simp only [Config.base]; omega
  have hlt : off / 4 < 16 := by omega
  rw [wordIndex, this, Nat.mul_add_mod, Nat.mod_eq_of_lt hlt]

theorem legalAccess_iff (addr width : Nat) : legalAccess addr width = true ↔ width = 4 ∧ addr % 4 = 0 := by
  simp [legalAccess]

theorem legalAccess_offset {off : Nat} (h : off % 4 = 0) : legalAccess (Config.base + off) 4 = true := by
  refine (legalAccess_iff _ _).mpr ⟨rfl, ?_⟩
  simp only [Config.base]
  omega

/-- A host write of a word of the window (R56). -/
theorem step_wr {s : State} {off : Nat} {w : Word} {ts : List Turn} (h : s.sched = wr off w :: ts)
    (hoff : off < 0x40) (hal : off % 4 = 0) :
    step s = .next { writeWindow (off / 4) w { s with sched := ts } with rsp := .writeDone } := by
  simp [step, nextTurn, h, wr, takeTurn, hostAccess, inWindow_offset hoff, legalAccess_offset hal,
    wordIndex_offset hoff]

/-- A host read of a word of the window (R56). -/
theorem step_rd {s : State} {off : Nat} {ts : List Turn} (h : s.sched = rd off :: ts)
    (hoff : off < 0x40) (hal : off % 4 = 0) :
    step s = .next { (readWindow (off / 4) { s with sched := ts }).2 with
      rsp := .readData (readWindow (off / 4) { s with sched := ts }).1 } := by
  simp [step, nextTurn, h, rd, takeTurn, hostAccess, inWindow_offset hoff, legalAccess_offset hal,
    wordIndex_offset hoff]

/-- A write of the window changes CMD, BUSY, OVR, the configuration and the engine's latch at most. -/
theorem writeWindow_spec (idx : Nat) (w : Word) (s : State) :
    writeWindow idx w s = s.accept w ∧ s.status.busy = false ∨
      (∃ v, writeWindow idx w s = { s with status := { s.status with ovr := v } }) ∨
      ∃ c, writeWindow idx w s = { s with conf := c } ∧ (locked s = true → c = s.conf) := by
  unfold writeWindow
  split
  · cases hb : s.status.busy with
    | true => exact .inr (.inl ⟨true, by simp [writeCmd, hb]⟩)
    | false => exact .inl ⟨by simp [writeCmd, hb], rfl⟩
  · cases hw : w.getLsbD 2 with
    | true => exact .inr (.inl ⟨false, by simp [writeStatus, hw]⟩)
    | false => exact .inr (.inl ⟨s.status.ovr, by simp only [writeStatus, hw]; rfl⟩)
  · cases hl : locked s with
    | true => exact .inr (.inr ⟨s.conf, by simp, fun _ => rfl⟩)
    | false => exact .inr (.inr ⟨_, by simp; rfl, fun h => by simp at h⟩)

/-- A read of the window changes the draws at most (R56). -/
theorem readWindow_spec (idx : Nat) (s : State) : ∃ e, (readWindow idx s).2 = { s with env := e } := by
  unfold readWindow
  split
  all_goals try exact ⟨s.env, rfl⟩
  obtain ⟨l, e, hl⟩ := levelSCL_spec s
  obtain ⟨m, e', hm⟩ := levelSDA_spec { s with env := e }
  exact ⟨e', by simp only [readLine, hl, hm]⟩

end Sys2Proof.Machine
end

