-- ==== Sys2Proof/Laws/PerInstr.lean ====
section
/-! SUPPORT. Statements about every command as syntax, one lemma per constructor. -/

namespace Sys2Proof.Laws.EncodedOpcode

/-- The field OP of a command's word is the command's opcode (30_encoding.md R69, R71). -/
def Statement (i : Instr) : Prop := opOf (encode i) = i.opcode

theorem opOf_layout (op nib : Nibble) (a b : Byte) : opOf (layout op nib a b) = op := by
  apply BitVec.eq_of_toNat_eq
  simp only [opOf, layout, BitVec.extractLsb'_toNat, BitVec.toNat_append, Nat.shiftRight_zero]
  rw [Nat.or_mod_two_pow]
  have := op.isLt
  simp [Nat.shiftLeft_eq, Nat.mod_eq_of_lt this]

theorem config : Statement .config := opOf_layout _ _ _ _
theorem deconfig : Statement .deconfig := opOf_layout _ _ _ _
theorem start : Statement .start := opOf_layout _ _ _ _
theorem stop : Statement .stop := opOf_layout _ _ _ _
theorem wbit (a : Byte) : Statement (.wbit a) := opOf_layout _ _ _ _
theorem rbit : Statement .rbit := opOf_layout _ _ _ _
theorem wbyte (x : Byte) : Statement (.wbyte x) := opOf_layout _ _ _ _
theorem rbyte : Statement .rbyte := opOf_layout _ _ _ _
theorem rack : Statement .rack := opOf_layout _ _ _ _
theorem sack (a : Byte) : Statement (.sack a) := opOf_layout _ _ _ _
theorem rframe (nib : Nibble) : Statement (.rframe nib) := opOf_layout _ _ _ _
theorem wframe (nib : Nibble) (addr data : Byte) : Statement (.wframe nib addr data) := opOf_layout _ _ _ _
theorem recover : Statement .recover := opOf_layout _ _ _ _
theorem idle : Statement .idle := opOf_layout _ _ _ _

end Sys2Proof.Laws.EncodedOpcode
end

