-- ==== Sys2Proof/Tests/Slice0.lean ====
section
/-! SUPPORT. Tests: the checks of WellFormed, the words of 30_encoding.md R71 and 95_test_vectors.md, at most two
one-step tests per command with the vector each comes from, host accesses, and, for every statement with hypotheses, a
state and operands that meet them. -/

namespace Sys2Proof.Tests

open Sys2Proof.Machine

set_option Elab.async false

/-! ### Well-formedness (30_encoding.md R70, R71) -/

theorem test_wf_wbit_refuses_bit1 : (Instr.wbit 0x02#8).wellFormed = false := by decide
theorem test_wf_wbit_refuses_bit7 : (Instr.wbit 0x81#8).wellFormed = false := by decide
theorem test_wf_sack_refuses_bit1 : (Instr.sack 0x03#8).wellFormed = false := by decide
theorem test_wf_accepts_one_bit :
    (Instr.wbit 0x01#8).wellFormed = true ∧ (Instr.sack 0x00#8).wellFormed = true := by decide

/-! ### Decoding: every row of the opcode map, with words of 95_test_vectors.md -/

theorem test_decode_config : decode 0x00000001#32 = .ok .config := by decide +kernel
theorem test_decode_deconfig : decode 0x00000002#32 = .ok .deconfig := by decide +kernel
theorem test_decode_start : decode 0x00000003#32 = .ok .start := by decide +kernel
theorem test_decode_stop : decode 0x00000004#32 = .ok .stop := by decide +kernel
theorem test_decode_wbit : decode 0x00000105#32 = .ok (.wbit 1#8) := by decide +kernel
theorem test_decode_rbit : decode 0x00000006#32 = .ok .rbit := by decide +kernel
theorem test_decode_wbyte : decode 0x00007107#32 = .ok (.wbyte 0x71#8) := by decide +kernel
theorem test_decode_rbyte : decode 0x00000008#32 = .ok .rbyte := by decide +kernel
theorem test_decode_rack : decode 0x00000009#32 = .ok .rack := by decide +kernel
theorem test_decode_sack : decode 0x0000010A#32 = .ok (.sack 1#8) := by decide +kernel
theorem test_decode_rframe : decode 0x000000FB#32 = .ok (.rframe 0xF#4) := by decide +kernel
theorem test_decode_wframe : decode 0x0055101C#32 = .ok (.wframe 0x1#4 0x10#8 0x55#8) := by decide +kernel
theorem test_decode_recover : decode 0x0000000D#32 = .ok .recover := by decide +kernel
theorem test_decode_idle : decode 0x0000000E#32 = .ok .idle := by decide +kernel

/-- TF14, bit by bit: RSV 00000000, B 11111111, A 11111110, NIB 1111, OP 1100. -/
theorem test_decode_wframe_bits :
    decode 0b00000000_11111111_11111110_1111_1100#32 = .ok (.wframe 0xF#4 0xFE#8 0xFF#8) := by decide +kernel

/-- TC20, TC21: the reserved opcodes. -/
theorem test_decode_reserved :
    decode 0x00000000#32 = .error .reservedOpcode ∧ decode 0x0000000F#32 = .error .reservedOpcode := by
  decide +kernel

/-- TA9, TB3, TB19, TF8, TF15, TC7: an unused bit, RSV, A or NIB, is refused. -/
theorem test_decode_unused_bits :
    decode 0x01000003#32 = .error .unusedBits ∧ decode 0x00000205#32 = .error .unusedBits ∧
    decode 0x0000030A#32 = .error .unusedBits ∧ decode 0x0000017B#32 = .error .unusedBits ∧
    decode 0x0155101C#32 = .error .unusedBits ∧ decode 0x00000011#32 = .error .unusedBits := by decide +kernel

/-- The encoder writes the words of 95_test_vectors.md. -/
theorem test_encode :
    encode (.wbit 1#8) = 0x00000105#32 ∧ encode (.wbyte 0xFF#8) = 0x0000FF07#32 ∧
    encode (.rframe 0x7#4) = 0x0000007B#32 ∧ encode (.wframe 0x1#4 0x10#8 0x55#8) = 0x0055101C#32 ∧
    encode (.sack 0#8) = 0x0000000A#32 ∧ encode .idle = 0x0000000E#32 := by decide +kernel

theorem test_decodeTableWord :
    decodeTableWord 32 0x0055101C = some (.wframe 0x1#4 0x10#8 0x55#8) ∧
    decodeTableWord 8 0x7B = some (.rframe 0x7#4) ∧
    decodeTableWord 8 0x0F = none := by decide +kernel

/-- 20_memory.md R52: byte lane 0 is bits [7:0]. -/
theorem test_byteLane : byteLane 0x0055101C#32 0 = 0x1C#8 ∧ byteLane 0x0055101C#32 3 = 0x00#8 ∧
    wordOfLanes 0x1C#8 0x10#8 0x55#8 0x00#8 = 0x0055101C#32 := by decide +kernel

/-! ### Helpers -/

/-- CFG-A of 95_test_vectors.md. -/
def cfgA : Conf := ⟨100#32, 100#32, 4#32, 4#32, 1000#32, 8000#32, 0#8⟩

/-- The least legal times, with small budgets. -/
def cfgS : Conf := ⟨100#32, 100#32, 4#32, 4#32, 2#32, 3#32, 7#8⟩

/-- A block with configuration `c`, configured or not, both lines released, and samples in store. -/
def block (c : Conf) (configured : Bool) (scl sda : List Level) : State :=
  { State.reset with
    conf := c, status := { State.reset.status with cfg := configured }, env := { scl := scl, sda := sda, drawn := 0 } }

/-- The state a command's word leaves when it is accepted and run. -/
def after (i : Instr) (s : State) : State :=
  match exec i (s.accept (encode i)) with
  | .next t => t
  | .fault _ => s
  | .refused _ => s

/-- Every command answers a next state. -/
theorem exec_after (i : Instr) (s : State) : exec i (s.accept (encode i)) = .next (after i s) := by
  rw [after, exec_eq]
  cases gate i (s.accept (encode i)) <;> rfl

/-- SCL high at every sample. -/
def high (n : Nat) : List Level := List.replicate n true

/-! ### Commands, one step each -/

/-- TC1. -/
theorem test_config_legal : statusWord (after .config (block cfgA false [] [])).status = 0x102#32 := by decide +kernel

/-- TC3: checks 0, 2 and 4 fail. -/
theorem test_config_mask :
    (after .config (block ⟨99#32, 100#32, 3#32, 4#32, 0#32, 5#32, 7#8⟩ false [] [])).detail = 0x15#32 := by
  decide +kernel

/-- TC8. -/
theorem test_deconfig :
    statusWord (after .deconfig (block cfgA true [] [])).status = 0x200#32 ∧
    (after .deconfig (block cfgA true [] [])).trace = [.driveSCL true, .driveSDA true] := by decide +kernel

/-- TA1. -/
theorem test_start :
    statusWord (after .start (block cfgA true [true] [])).status = 0x302#32 ∧
    (after .start (block cfgA true [true] [])).trace =
      [.driveSDA true, .driveSCL true, .sampleSCL true, .delay 4, .driveSDA false, .driveSCL false, .delay 100] := by
  decide +kernel

/-- TA4. -/
theorem test_start_timeout :
    (after .start (block { cfgA with tBitTo := 1#32 } true [false, false] [])).trace =
      [.driveSDA true, .driveSCL true, .sampleSCL false, .delay 1, .sampleSCL false] ∧
    (after .start (block { cfgA with tBitTo := 1#32 } true [false, false] [])).detail = 1#32 := by decide +kernel

/-- TA6. -/
theorem test_stop :
    (after .stop (block cfgA true [true] [])).trace =
      [.driveSDA false, .delay 4, .driveSCL true, .sampleSCL true, .delay 4, .driveSDA true, .delay 4] := by
  decide +kernel

/-- TA7, with T_BIT_TO = 1. -/
theorem test_stop_timeout :
    (after .stop (block { cfgA with tBitTo := 1#32 } true [false, false] [])).sclO = true ∧
    (after .stop (block { cfgA with tBitTo := 1#32 } true [false, false] [])).sdaO = false := by decide +kernel

/-- TB1 and TB2. -/
theorem test_wbit :
    (after (.wbit 1#8) (block cfgA true [true] [])).sdaO = true ∧
    (after (.wbit 0#8) (block cfgA true [true] [])).sdaO = false := by decide +kernel

/-- TB5: T_HIGH = 101 is split 50 and 51 around the sample. -/
theorem test_rbit_midpoint :
    (after .rbit (block { cfgA with tHigh := 101#32 } true [true] [false])).trace.drop 4 =
      [.delay 50, .sampleSDA false, .delay 51, .driveSCL false, .delay 100] := by decide +kernel

/-- TB4. -/
theorem test_rbit : resultWord (after .rbit (block cfgA true [true] [true])).result = 1#32 := by decide +kernel

/-- TB6: 0x71 goes out 0,1,1,1,0,0,0,1. -/
theorem test_wbyte :
    sdaLevels (after (.wbyte 0x71#8) (block cfgA true (high 8) [])).trace =
      [false, true, true, true, false, false, false, true] := by decide +kernel

/-- TB11, with T_BIT_TO = 1: the tenth poll delay of the byte is one too many. -/
theorem test_wbyte_budget :
    (after (.wbyte 0#8) (block { cfgA with tBitTo := 1#32, tByteTo := 2#32 } true
      [false, true, false, true, false, true] [])).detail = 3#32 := by decide +kernel

/-- TB13. -/
theorem test_rbyte :
    resultWord (after .rbyte (block cfgA true (high 8)
      [true, false, true, false, false, true, false, true])).result = 0xA5#32 := by decide +kernel

/-- TB14, with T_BIT_TO = 1: the bits of a byte that failed are not reported. -/
theorem test_rbyte_timeout :
    resultWord (after .rbyte (block { cfgA with tBitTo := 1#32 } true [true, false, false] [true])).result =
      0#32 := by decide +kernel

/-- TB15 and TB16. -/
theorem test_rack :
    (after .rack (block cfgA true [true] [false])).result.data = 1#8 ∧
    (after .rack (block cfgA true [true] [true])).result.data = 0#8 ∧
    (after .rack (block cfgA true [true] [true])).status.kind = .ok := by decide +kernel

/-- TB17 and TB18. -/
theorem test_sack :
    (after (.sack 1#8) (block cfgA true [true] [])).sdaO = false ∧
    (after (.sack 0#8) (block cfgA true [true] [])).sdaO = true := by decide +kernel

/-- TF5: (0xF5 + 0x0B) mod 256 = 0. -/
theorem test_rframe :
    statusWord (after (.rframe 0xF#4) (block { cfgA with devAddr := 2#8 } true (high 29)
      (false :: wireBits 0x0B#8 ++ wireBits 0x00#8))).status = 0xB02#32 ∧
    resultWord (after (.rframe 0xF#4) (block { cfgA with devAddr := 2#8 } true (high 29)
      (false :: wireBits 0x0B#8 ++ wireBits 0x00#8))).result = 0xF5000B#32 := by decide +kernel

/-- TF3. -/
theorem test_rframe_mismatch :
    statusWord (after (.rframe 0x7#4) (block cfgA true (high 29)
      (false :: wireBits 0x00#8 ++ wireBits 0x70#8))).status = 0xB72#32 ∧
    (after (.rframe 0x7#4) (block cfgA true (high 29)
      (false :: wireBits 0x00#8 ++ wireBits 0x70#8))).detail = 0x70#32 := by decide +kernel

/-- TF10. -/
theorem test_wframe :
    resultWord (after (.wframe 0x1#4 0x10#8 0x55#8) (block cfgA true (high 38)
      [false, false, false, false])).result = 0x107504#32 ∧
    (after (.wframe 0x1#4 0x10#8 0x55#8) (block cfgA true (high 38)
      [false, false, false, false])).trace.length = 274 := by decide +kernel

/-- TF11. -/
theorem test_wframe_nack :
    resultWord (after (.wframe 0x1#4 0x10#8 0x55#8) (block cfgA true (high 38) [false, false, true])).result =
      0x107502#32 ∧
    (after (.wframe 0x1#4 0x10#8 0x55#8) (block cfgA true (high 38) [false, false, true])).detail = 2#32 := by
  decide +kernel

/-- TC10. -/
theorem test_recover :
    statusWord (after .recover (block cfgA true (high 11) [true])).status = 0xD02#32 ∧
    (after .recover (block cfgA true (high 11) [true])).trace.length = 55 := by decide +kernel

/-- TC12, with T_BIT_TO = 1: the fourth pulse's clock does not rise. -/
theorem test_recover_stuck :
    (after .recover (block { cfgA with tBitTo := 1#32 } true (high 3 ++ [false, false]) [])).detail = 4#32 := by
  decide +kernel

/-- TC15 and TC16. -/
theorem test_idle :
    resultWord (after .idle (block cfgA true [true] [true])).result = 7#32 ∧
    resultWord (after .idle (block cfgA true [true] [false])).result = 2#32 := by decide +kernel

/-! ### Steps -/

/-- TC22: a reserved opcode on an unconfigured block. -/
theorem test_step_reserved :
    ∃ t, step (State.reset.withFetchWord 32 0x0F) = .next t ∧ statusWord t.status = 0xF50#32 :=
  ⟨_, rfl, by decide +kernel⟩

/-- TA8: the fetch word of START, from reset. -/
theorem test_step_fetch :
    ∃ t, step (State.reset.withFetchWord 32 0x03) = .next t ∧ statusWord t.status = 0x310#32 :=
  ⟨_, rfl, by decide +kernel⟩

/-- TH1. -/
theorem test_read_status :
    ∃ t, step { State.reset with sched := [rd 0x04] } = .next t ∧ t.rsp = .readData 0#32 :=
  ⟨_, step_rd rfl (by decide) (by decide), by decide +kernel⟩

/-- TH8. -/
theorem test_write_devAddr :
    ∃ t, step { State.reset with sched := [wr 0x38 0xFFFFFF08#32] } = .next t ∧ t.conf.devAddr = 8#8 :=
  ⟨_, step_wr rfl (by decide) (by decide), by decide +kernel⟩

/-- TH3: the access faults, and the block goes on as it was with the next turn. -/
theorem test_bus_error :
    proceed { State.reset with sched := [.host (.read (Config.base + 2) 4), .engine] } =
      { State.reset with sched := [.engine], rsp := .busError } := by
  have h : legalAccess (Config.base + 2) 4 = false := by
    rw [← Bool.not_eq_true, legalAccess_iff]; simp only [Config.base]; omega
  simp [proceed, afterOutcome, nextTurn, takeTurn, hostAccess, hostBusError, inWindow_offset, h]

/-- 60_exceptions.md R149: STATUS of TF4, `Nack` in bits 7:4. -/
theorem test_status_word :
    statusWord { busy := false, cfg := true, ovr := false, kind := .nack, lastop := 0xB#4 } = 0xB82#32 := by
  decide +kernel

/-! ### Witnesses: for every statement with hypotheses, a state and operands that meet them; for a statement with
several clauses, one for each clause, at boundary values. `cfgS` has T_BIT_TO = 2 and T_BYTE_TO = 3. -/

/-- Any command on any state: there is a next state to speak of. -/
theorem exec_answers (i : Instr) (s : State) : ∃ t, exec i s = .next t := by
  rw [exec_eq]
  cases gate i s <;> exact ⟨_, rfl⟩

/-- `block` with an accepted word and turns to come. -/
def accepted (c : Conf) (configured : Bool) (w : Word) (ts : List Turn) : State :=
  { (block c configured [] []).accept w with sched := ts }

theorem witness_DecodeInvertsEncode :
    (Instr.wbit 1#8).wellFormed = true ∧ (Instr.sack 0#8).wellFormed = true ∧
    (Instr.wframe 0xF#4 0xFF#8 0xFF#8).wellFormed = true := by decide

theorem witness_DecodedWordIsItsEncoding :
    decode 0x0000010A#32 = .ok (.sack 1#8) ∧ decode 0x00FFFFFC#32 = .ok (.wframe 0xF#4 0xFF#8 0xFF#8) := by
  decide +kernel

theorem witness_StepRunsDecodedCommand :
    ((accepted cfgS true 0x00000003#32 []).status.busy = true ∧
      (accepted cfgS true 0x00000003#32 []).eng.phase = .decode ∧
      decode (accepted cfgS true 0x00000003#32 []).cmd = .ok .start ∧
      (accepted cfgS true 0x00000003#32 []).sched = []) ∧
    (accepted cfgS true 0x00000003#32 [.run, .rst]).status.busy = true ∧
      (accepted cfgS true 0x00000003#32 [.run, .rst]).eng.phase = .decode ∧
      decode (accepted cfgS true 0x00000003#32 [.run, .rst]).cmd = .ok .start ∧
      (accepted cfgS true 0x00000003#32 [.run, .rst]).sched = .run :: [.rst] := by decide +kernel

theorem witness_RefusedWordFinishesInvalidParam :
    ((accepted cfgS false 0x00000000#32 []).status.busy = true ∧
      (accepted cfgS false 0x00000000#32 []).eng.phase = .decode ∧
      (accepted cfgS false 0x00000000#32 []).sched = [] ∧
      opOf (accepted cfgS false 0x00000000#32 []).cmd = 0x0#4) ∧
    opOf (accepted cfgS true 0xFFFFFFFF#32 []).cmd = 0xF#4 ∧
    ∀ r ∈ opcodeRows, (accepted cfgS true 0x00000205#32 []).cmd &&& r.mask ≠ r.value := by decide +kernel

theorem witness_GateRefusesInOrder :
    2 ≤ (0x02#8).toNat ∧ 2 ≤ (0xFF#8).toNat ∧ (block cfgS true [] []).status.cfg = true ∧
    ((block cfgS false [] []).status.cfg = false ∧ Instr.idle.wellFormed = true ∧ Instr.idle ≠ .config ∧
      Instr.idle ≠ .deconfig) := by decide

/-- The least legal configuration: every field at its bound. -/
def leastConf : Conf := ⟨100#32, 100#32, 4#32, 4#32, 1#32, 1#32, 7#8⟩

theorem leastConf_legal : ConfigLegal leastConf := by unfold ConfigLegal; decide

theorem witness_ConfigAcceptsLegalConfiguration :
    (block leastConf false [] []).status.cfg = false ∧ ConfigLegal (block leastConf false [] []).conf :=
  ⟨rfl, leastConf_legal⟩

/-- Each check failing alone, just outside its bound. -/
theorem witness_ConfigReportsEveryFailedCheck :
    (block cfgS false [] []).status.cfg = false ∧
    (∀ c ∈ [ { leastConf with tLow := 99#32 }, { leastConf with tHigh := 99#32 },
        { leastConf with tStartHold := 3#32 }, { leastConf with tStopHold := 3#32 },
        { leastConf with tBitTo := 0#32 }, { leastConf with tBitTo := 0#32, tByteTo := 0#32 },
        { leastConf with tBitTo := 2#32 }, { leastConf with devAddr := 8#8 } ],
      ¬ ConfigLegal (block c false [] []).conf) := by
  refine ⟨rfl, ?_⟩
  unfold ConfigLegal
  decide

theorem witness_ConfigCornerCases :
    ({ leastConf with tLow := 99#32 } : Conf).tLow = 99#32 ∧ leastConf.tLow = 100#32 ∧
    leastConf.tBitTo = leastConf.tByteTo ∧
    (State.reset.conf.tBitTo = 0#32 ∧ State.reset.conf.tByteTo = 0#32) ∧ leastConf.devAddr = 7#8 ∧
    ({ leastConf with devAddr := 8#8 } : Conf).devAddr = 8#8 := by decide

/-- A wait with no poll delay and one with as many as the per-bit budget allows. -/
theorem waitFits_cfgS : waitFits cfgS 0 ∧ waitFits cfgS 2 := by unfold waitFits; decide

theorem witness_StartCompletes :
    (block cfgS true (stretched [2] ++ [false]) []).status.cfg = true ∧
    waitFits (block cfgS true (stretched [2] ++ [false]) []).conf 2 ∧
    (block cfgS true (stretched [2] ++ [false]) []).env.scl = stretched [2] ++ [false] :=
  ⟨rfl, waitFits_cfgS.2, rfl⟩

theorem witness_StopCompletes :
    (block cfgS true (stretched [0] ++ []) []).status.cfg = true ∧
    waitFits (block cfgS true (stretched [0] ++ []) []).conf 0 ∧
    (block cfgS true (stretched [0] ++ []) []).env.scl = stretched [0] ++ [] :=
  ⟨rfl, waitFits_cfgS.1, rfl⟩

theorem witness_StartAndStopTimeOut :
    (block leastConf true [false, false] []).status.cfg = true ∧
    (block leastConf true [false, false] []).conf.tBitTo.toNat ≤
      (block leastConf true [false, false] []).conf.tByteTo.toNat ∧
    (block leastConf true [false, false] []).env.scl =
      List.replicate ((block leastConf true [false, false] []).conf.tBitTo.toNat + 1) false ++ [] := by decide

theorem witness_WbitCompletes :
    (block cfgS true (stretched [2] ++ []) []).status.cfg = true ∧ (0#8).toNat < 2 ∧ (1#8).toNat < 2 ∧
    waitFits (block cfgS true (stretched [2] ++ []) []).conf 2 ∧
    (block cfgS true (stretched [2] ++ []) []).env.scl = stretched [2] ++ [] :=
  ⟨rfl, by decide, by decide, waitFits_cfgS.2, rfl⟩

theorem witness_RbitCompletes :
    (block cfgS true (stretched [2] ++ []) [true]).status.cfg = true ∧
    waitFits (block cfgS true (stretched [2] ++ []) [true]).conf 2 ∧
    (block cfgS true (stretched [2] ++ []) [true]).env.scl = stretched [2] ++ [] ∧
    (block cfgS true (stretched [2] ++ []) [true]).env.sda = true :: [] :=
  ⟨rfl, waitFits_cfgS.2, rfl, rfl⟩

/-- Eight waits whose sum is the whole per-byte budget. -/
def fullByte : List Nat := [2, 0, 0, 1, 0, 0, 0, 0]

theorem byteFits_cfgS : byteFits cfgS fullByte := by unfold byteFits; decide

theorem witness_WbyteCompletes :
    (block cfgS true (stretched fullByte ++ []) []).status.cfg = true ∧
    byteFits (block cfgS true (stretched fullByte ++ []) []).conf fullByte ∧
    (block cfgS true (stretched fullByte ++ []) []).env.scl = stretched fullByte ++ [] :=
  ⟨rfl, byteFits_cfgS, rfl⟩

theorem witness_RbyteCompletes :
    (block cfgS true (stretched fullByte ++ []) (wireBits 0x81#8 ++ [])).status.cfg = true ∧
    byteFits (block cfgS true (stretched fullByte ++ []) (wireBits 0x81#8 ++ [])).conf fullByte ∧
    (block cfgS true (stretched fullByte ++ []) (wireBits 0x81#8 ++ [])).env.scl = stretched fullByte ++ [] ∧
    (block cfgS true (stretched fullByte ++ []) (wireBits 0x81#8 ++ [])).env.sda = wireBits 0x81#8 ++ [] :=
  ⟨rfl, byteFits_cfgS, rfl, rfl⟩

theorem witness_RackCompletes :
    (block cfgS true (stretched [0] ++ []) [false]).status.cfg = true ∧
    waitFits (block cfgS true (stretched [0] ++ []) [false]).conf 0 ∧
    (block cfgS true (stretched [0] ++ []) [false]).env.scl = stretched [0] ++ [] ∧
    (block cfgS true (stretched [0] ++ []) [false]).env.sda = false :: [] :=
  ⟨rfl, waitFits_cfgS.1, rfl, rfl⟩

theorem witness_SackCompletes :
    (block cfgS true (stretched [0] ++ []) []).status.cfg = true ∧ (1#8).toNat < 2 ∧ (0#8).toNat < 2 ∧
    waitFits (block cfgS true (stretched [0] ++ []) []).conf 0 ∧
    (block cfgS true (stretched [0] ++ []) []).env.scl = stretched [0] ++ [] :=
  ⟨rfl, by decide, by decide, waitFits_cfgS.1, rfl⟩

theorem witness_BitCommandsTimeOut :
    (block cfgS true [false, false, false] []).status.cfg = true ∧ (1#8).toNat < 2 ∧
    (block cfgS true [false, false, false] []).conf.tBitTo.toNat ≤
      (block cfgS true [false, false, false] []).conf.tByteTo.toNat ∧
    (block cfgS true [false, false, false] []).env.scl =
      List.replicate ((block cfgS true [false, false, false] []).conf.tBitTo.toNat + 1) false ++ [] ∧
    (Instr.sack 1#8, false) ∈ [(Instr.wbit 1#8, (1#8).getLsbD 0), (Instr.rbit, true), (Instr.rack, true),
      (Instr.sack 1#8, !(1#8).getLsbD 0)] := by decide

/-- Seven bits that use two of three poll delays, then a bit that uses two more. -/
def spent : List Nat := [2, 0, 0, 0, 0, 0, 0]

/-- WBYTE with no SDA sample in store, and RBYTE with the bits clocked. -/
theorem witness_ByteCommandsExceedTheByteBudget :
    (∀ sda ∈ [[], high 7],
      let s := block cfgS true (stretched spent ++ List.replicate (1 + 1) false ++ []) sda
      s.status.cfg = true ∧ spent.length < 8 ∧ (∀ k ∈ spent, k ≤ s.conf.tBitTo.toNat) ∧
      spent.sum + 1 = s.conf.tByteTo.toNat ∧ 1 < s.conf.tBitTo.toNat ∧
      s.env.scl = stretched spent ++ List.replicate (1 + 1) false ++ []) ∧
    (block cfgS true (stretched spent ++ List.replicate (1 + 1) false ++ []) (high 7)).env.sda =
      (wireBits 0xFF#8).take spent.length ++ [] := by decide

theorem witness_ByteCommandsExceedTheBitBudget :
    (∀ sda ∈ [[], high 1],
      let s := block cfgS true (stretched [1] ++ List.replicate (2 + 1) false ++ []) sda
      s.status.cfg = true ∧ [1].length < 8 ∧ (∀ k ∈ [1], k ≤ s.conf.tBitTo.toNat) ∧
      [1].sum + s.conf.tBitTo.toNat ≤ s.conf.tByteTo.toNat ∧
      s.env.scl = stretched [1] ++ List.replicate (s.conf.tBitTo.toNat + 1) false ++ []) ∧
    (block cfgS true (stretched [1] ++ List.replicate (2 + 1) false ++ []) (high 1)).env.sda =
      (wireBits 0xFF#8).take [1].length ++ [] := by decide

theorem witness_PrimitivesLeaveDefinedLines :
    (block cfgS true [] []).status.cfg = true ∧ (0#8).toNat < 2 ∧ (1#8).toNat < 2 ∧
    Instr.rack ∈ [Instr.rbit, Instr.rbyte, Instr.rack] := by decide

theorem witness_WireDiscipline :
    (∃ t, exec (.wbit 1#8) { block cfgS true [true] [] with sclO := false } = .next t) ∧
    ({ block cfgS true [true] [] with sclO := false } : State).sclO = false ∧
    ∃ t, exec .stop (block cfgS true [true] []) = .next t :=
  ⟨exec_answers _ _, rfl, exec_answers _ _⟩

theorem witness_WaitsAreBounded :
    (∃ t, exec .start (block cfgS true [false, false, false] []) = .next t) ∧
    (∃ t, exec .rbyte (block cfgS true [] []) = .next t) ∧
    (∃ t, exec (.rframe 7#4) (block cfgS true [] []) = .next t) ∧
    (∃ t, exec (.wframe 1#4 0x10#8 0x55#8) (block cfgS true [] []) = .next t) ∧
    ∃ t, exec .recover (block cfgS true [] []) = .next t :=
  ⟨exec_answers _ _, exec_answers _ _, exec_answers _ _, exec_answers _ _, exec_answers _ _⟩

theorem witness_SerializerSendsMostSignificantBitFirst :
    ∃ t, exec (.wbyte 0x71#8) (block cfgS true (high 8) []) = .next t ∧ t.status.kind = .ok :=
  ⟨_, rfl, by decide +kernel⟩

theorem witness_TimeoutDetailIsABudget :
    (∃ t, (block leastConf true [false, false] []).status.cfg = true ∧
      ConfigLegal (block leastConf true [false, false] []).conf ∧ Instr.rack.wellFormed = true ∧
      exec .rack (block leastConf true [false, false] []) = .next t ∧ t.status.kind = .timeout) ∧
    ∃ t, (Instr.wbyte 0#8).wellFormed = true ∧
      exec (.wbyte 0#8) (block leastConf true [false, true, false, true] []) = .next t ∧
      t.status.kind = .timeout :=
  ⟨⟨_, rfl, leastConf_legal, rfl, rfl, by decide +kernel⟩, ⟨_, rfl, rfl, by decide +kernel⟩⟩

theorem witness_ControlByteLayout : (0#8).toNat ≤ 7 ∧ (7#8).toNat ≤ 7 := by decide

/-- Samples of a read frame at T_BYTE_TO's bound. -/
def readWaits : List Nat := [2] ++ fullByte ++ [0] ++ fullByte ++ [1] ++ fullByte ++ [2, 2]

theorem witness_RframeCompletes :
    let s := block cfgS true (stretched readWaits ++ []) (false :: (wireBits 0x0B#8 ++ wireBits 0x00#8 ++ []))
    s.status.cfg = true ∧ s.conf.devAddr.toNat ≤ 7 ∧ (∀ k ∈ [2, 0, 1, 2, 2], waitFits s.conf k) ∧
    (∀ ks ∈ [fullByte, fullByte, fullByte], byteFits s.conf ks) ∧
    s.env.scl = stretched ([2] ++ fullByte ++ [0] ++ fullByte ++ [1] ++ fullByte ++ [2, 2]) ++ [] ∧
    s.env.sda = false :: (wireBits 0x0B#8 ++ wireBits 0x00#8 ++ []) := by
  simp only [waitFits, byteFits]
  decide +kernel

theorem witness_RframeNackStops :
    let s := block cfgS true (stretched ([2] ++ fullByte ++ [1, 0]) ++ []) [true]
    s.status.cfg = true ∧ s.conf.devAddr.toNat ≤ 7 ∧ (∀ k ∈ [2, 1, 0], waitFits s.conf k) ∧
    byteFits s.conf fullByte ∧ s.env.scl = stretched ([2] ++ fullByte ++ [1, 0]) ++ [] ∧
    s.env.sda = true :: [] := by
  simp only [waitFits, byteFits]
  decide +kernel

theorem witness_RframeStopTimeoutOutranksChecksum :
    let s := block cfgS true (stretched ([0] ++ fullByte ++ [0] ++ fullByte ++ [1] ++ fullByte ++ [2]) ++
      List.replicate 3 false ++ []) (false :: (wireBits 0x00#8 ++ wireBits 0x70#8 ++ []))
    s.status.cfg = true ∧ s.conf.devAddr.toNat ≤ 7 ∧ s.conf.tBitTo.toNat ≤ s.conf.tByteTo.toNat ∧
    (∀ k ∈ [0, 0, 1, 2], waitFits s.conf k) ∧ (∀ ks ∈ [fullByte, fullByte, fullByte], byteFits s.conf ks) ∧
    s.env.scl = stretched ([0] ++ fullByte ++ [0] ++ fullByte ++ [1] ++ fullByte ++ [2]) ++
      List.replicate (s.conf.tBitTo.toNat + 1) false ++ [] ∧
    s.env.sda = false :: (wireBits 0x00#8 ++ wireBits 0x70#8 ++ []) := by
  simp only [waitFits, byteFits]
  decide +kernel

theorem witness_WframeCompletes :
    let s := block cfgS true (stretched ([2] ++ fullByte ++ [0] ++ fullByte ++ [1] ++ fullByte ++ [2] ++ fullByte ++
      [0, 2]) ++ []) ([false, false, false, false] ++ [])
    s.status.cfg = true ∧ s.conf.devAddr.toNat ≤ 7 ∧ (∀ k ∈ [2, 0, 1, 2, 0, 2], waitFits s.conf k) ∧
    (∀ ks ∈ [fullByte, fullByte, fullByte, fullByte], byteFits s.conf ks) ∧
    s.env.scl = stretched ([2] ++ fullByte ++ [0] ++ fullByte ++ [1] ++ fullByte ++ [2] ++ fullByte ++ [0, 2]) ++ [] ∧
    s.env.sda = [false, false, false, false] ++ [] := by
  simp only [waitFits, byteFits]
  decide +kernel

/-- The first and the last byte. -/
theorem witness_WframeNackStops :
    (let s := block cfgS true (high 11) [true]
    s.status.cfg = true ∧ s.conf.devAddr.toNat ≤ 7 ∧ 0 < 4 ∧
    s.env.scl = List.replicate (9 * (0 + 1) + 2) true ++ [] ∧
    s.env.sda = List.replicate 0 false ++ true :: []) ∧
    (let s := block cfgS true (high 38) [false, false, false, true]
    3 < 4 ∧ s.env.scl = List.replicate (9 * (3 + 1) + 2) true ++ [] ∧
    s.env.sda = List.replicate 3 false ++ true :: []) := by decide

/-- STOP stuck too, and STOP rising. -/
theorem witness_FrameStartTimeoutStillStops :
    (let s := block cfgS true (List.replicate 6 false ++ []) []
    s.status.cfg = true ∧ s.conf.devAddr.toNat ≤ 7 ∧ s.conf.tBitTo.toNat ≤ s.conf.tByteTo.toNat ∧
    waitFits s.conf 2 ∧ s.env.scl = List.replicate (s.conf.tBitTo.toNat + 1) false ++
      (if true then List.replicate (s.conf.tBitTo.toNat + 1) false else stretched [2]) ++ []) ∧
    (let s := block cfgS true (List.replicate 3 false ++ stretched [2] ++ []) []
    s.env.scl = List.replicate (s.conf.tBitTo.toNat + 1) false ++
      (if false then List.replicate (s.conf.tBitTo.toNat + 1) false else stretched [2]) ++ []) := by
  simp only [waitFits]
  decide

theorem witness_FramesAlwaysRunStop :
    (block cfgS true [] []).status.cfg = true ∧ (∃ n, Instr.rframe 7#4 = .rframe n) ∧
    ∃ n a d, Instr.wframe 1#4 0x10#8 0x55#8 = .wframe n a d :=
  ⟨rfl, ⟨_, rfl⟩, ⟨_, _, _, rfl⟩⟩

theorem witness_EventCountsAndDurations :
    (∃ t, (block cfgS true (high 29) [false]).status.cfg = true ∧
      (block cfgS true (high 29) [false]).env.scl = List.replicate 29 true ++ [] ∧
      (block cfgS true (high 29) [false]).env.sda = false :: [] ∧
      exec (.rframe 7#4) (block cfgS true (high 29) [false]) = .next t) ∧
    (∃ t, (block cfgS true (high 38) (List.replicate 4 false)).env.scl = List.replicate 38 true ++ [] ∧
      (block cfgS true (high 38) (List.replicate 4 false)).env.sda = List.replicate 4 false ++ [] ∧
      exec (.wframe 1#4 0x10#8 0x55#8) (block cfgS true (high 38) (List.replicate 4 false)) = .next t) ∧
    ∃ t, (block cfgS true (high 10) []).env.scl = List.replicate 10 true ++ [] ∧
      exec .recover (block cfgS true (high 10) []) = .next t :=
  ⟨⟨_, rfl, rfl, rfl, rfl⟩, ⟨_, rfl, rfl, rfl⟩, ⟨_, rfl, rfl⟩⟩

theorem witness_PrimitivesReproduceReadFrame :
    (∃ t, (block cfgA true (high 29) (false :: wireBits 0x2A#8 ++ wireBits 0x9B#8)).status.cfg = true ∧
      exec (.rframe 7#4) (block cfgA true (high 29) (false :: wireBits 0x2A#8 ++ wireBits 0x9B#8)) = .next t ∧
      t.status.kind = .ok) ∧
    ∃ t, exec (.rframe 7#4) (block cfgA true (high 29) (false :: wireBits 0x00#8 ++ wireBits 0x70#8)) = .next t ∧
      t.status.kind = .checksumMismatch :=
  ⟨⟨_, rfl, rfl, by decide +kernel⟩, ⟨_, rfl, by decide +kernel⟩⟩

theorem witness_RecoverCompletes :
    let s := block cfgS true (stretched ([0, 2, 0, 0, 0, 0, 0, 0, 1] ++ [2]) ++ true :: []) [false]
    s.status.cfg = true ∧ [0, 2, 0, 0, 0, 0, 0, 0, 1].length = 9 ∧
    (∀ k ∈ [0, 2, 0, 0, 0, 0, 0, 0, 1], waitFits s.conf k) ∧ waitFits s.conf 2 ∧
    s.env.scl = stretched ([0, 2, 0, 0, 0, 0, 0, 0, 1] ++ [2]) ++ true :: [] ∧ s.env.sda = false :: [] := by
  simp only [waitFits]
  decide +kernel

/-- The first pulse, the ninth pulse, and the STOP. -/
theorem witness_RecoverReportsStuckClock :
    (∀ n ∈ [0, 8, 9],
      let s := block cfgS true (stretched (List.replicate n 2) ++ List.replicate 3 false ++ []) []
      s.status.cfg = true ∧ s.conf.tBitTo.toNat ≤ s.conf.tByteTo.toNat ∧
      (∀ k ∈ List.replicate n 2, waitFits s.conf k) ∧
      s.env.scl = stretched (List.replicate n 2) ++ List.replicate (s.conf.tBitTo.toNat + 1) false ++ []) ∧
    (List.replicate 0 2).length < 9 ∧ (List.replicate 8 2).length < 9 ∧ (List.replicate 9 2).length = 9 := by
  simp only [waitFits]
  decide +kernel

/-- Both lines released, and both pulled low. -/
theorem witness_IdleReportsTheLines :
    (block cfgS true [true] [false]).status.cfg = true ∧ (block cfgS true [true] [false]).sclO = true ∧
    ({ block cfgS true [] [] with sclO := false, sdaO := false } : State).status.cfg = true := by decide

theorem witness_EveryCommandFinishes :
    (Instr.start ≠ .config ∧ Instr.start ≠ .deconfig) ∧ (∀ n, Instr.recover ≠ .rframe n) ∧
    ∀ n a d, Instr.recover ≠ .wframe n a d := by
  refine ⟨by decide, fun _ => ?_, fun _ _ _ => ?_⟩ <;> exact fun h => by cases h

/-- RFRAME whose data byte's clock stays low (TF7): the ACK is the only sample of SDA. WFRAME whose last byte's clock
stays low: three ACKs were sampled. -/
theorem witness_KindsEachCommandFinishesWith :
    ((block leastConf true [] []).status.cfg = true ∧ Instr.recover.wellFormed = true ∧
      ∃ t, exec .recover (block leastConf true [] []) = .next t) ∧
    (∃ t, (Instr.rframe 7#4).wellFormed = true ∧ ConfigLegal (block leastConf true [] []).conf ∧
      exec (.rframe 7#4) (block leastConf true (high 10 ++ [false, false, true]) [false]) = .next t ∧
      t.status.kind = .timeout ∧ sdaSamples t.trace = [false] ∧ t.detail = 1#32) ∧
    ∃ t, (Instr.wframe 1#4 0x10#8 0x55#8).wellFormed = true ∧
      exec (.wframe 1#4 0x10#8 0x55#8) (block leastConf true (high 28 ++ [false, false, true]) [false, false, false]) =
        .next t ∧ t.status.kind = .timeout ∧ t.result.data = 3#8 :=
  ⟨⟨rfl, rfl, exec_answers _ _⟩, ⟨_, rfl, leastConf_legal, rfl, by decide +kernel⟩,
    ⟨_, rfl, rfl, by decide +kernel⟩⟩

/-- Two states that differ in what commands before left. -/
theorem witness_OutcomeIgnoresHistory :
    let s := block cfgS true [true] []
    let s' := { s with result := ⟨1#8, 2#8, 3#8⟩, detail := 7#32, trace := [.delay 1],
                       eng := { s.eng with err := some ⟨.nack, 3#32⟩, acc := 9#33 } }
    s.cmd = s'.cmd ∧ s.status.cfg = s'.status.cfg ∧ s.conf = s'.conf ∧ s.sclO = s'.sclO ∧ s.sdaO = s'.sdaO ∧
    s.env = s'.env ∧ (∃ t, exec .start s = .next t) ∧ ∃ t, exec .start s' = .next t :=
  ⟨rfl, rfl, rfl, rfl, rfl, rfl, exec_answers _ _, exec_answers _ _⟩

theorem witness_EngineStepPerformsOneEvent :
    (accepted cfgS true 0x00000003#32 [.engine, .rst]).sched = .engine :: [.rst] ∧
    (block cfgS true [] []).status.busy = false := by decide

theorem witness_EngineStepsComposeToExec :
    (accepted cfgS true 0x0000007B#32 []).status.busy = true ∧
    (accepted cfgS true 0x0000007B#32 []).eng.phase = .decode ∧
    decode (accepted cfgS true 0x0000007B#32 []).cmd = .ok (.rframe 7#4) := by decide +kernel

/-- A block that is not running a command, and one that is. -/
theorem witness_CmdAcceptsOrDrops :
    ({ block cfgS true [] [] with sched := [wr 0x00 0xE#32] } : State).sched = wr 0x00 0xE#32 :: [] ∧
    ({ block cfgS true [] [] with sched := [wr 0x00 0xE#32] } : State).status.busy = false ∧
    (accepted cfgS true 0x3#32 [wr 0x00 0xE#32]).sched = wr 0x00 0xE#32 :: [] ∧
    (accepted cfgS true 0x3#32 [wr 0x00 0xE#32]).status.busy = true ∧
    (accepted cfgS true 0x3#32 [rd 0x00]).sched = rd 0x00 :: [] := ⟨rfl, rfl, rfl, rfl, rfl⟩

theorem witness_StatusReadAndWrite :
    (accepted cfgS true 0x3#32 [wr 0x04 0x4#32]).sched = wr 0x04 0x4#32 :: [] ∧
    (accepted cfgS true 0x3#32 [wr 0x04 0xFFFFFFFB#32]).sched = wr 0x04 0xFFFFFFFB#32 :: [] ∧
    (accepted cfgS true 0x3#32 [rd 0x04]).sched = rd 0x04 :: [] := ⟨rfl, rfl, rfl⟩

/-- The first and the last configuration register. -/
theorem witness_ConfigurationLock :
    let s := { block cfgS false [] [] with sched := [wr 0x38 0xFFFFFF08#32] }
    let w := 0xFFFFFF08#32
    (∀ x ∈ [(0x20, { s.conf with tLow := w }, s.conf.tLow),
        (0x38, { s.conf with devAddr := w.extractLsb' 0 8 }, 0#24 ++ s.conf.devAddr)],
      x ∈
        [ (0x20, { s.conf with tLow := w }, s.conf.tLow), (0x24, { s.conf with tHigh := w }, s.conf.tHigh),
          (0x28, { s.conf with tStartHold := w }, s.conf.tStartHold),
          (0x2C, { s.conf with tStopHold := w }, s.conf.tStopHold),
          (0x30, { s.conf with tBitTo := w }, s.conf.tBitTo),
          (0x34, { s.conf with tByteTo := w }, s.conf.tByteTo),
          (0x38, { s.conf with devAddr := w.extractLsb' 0 8 }, 0#24 ++ s.conf.devAddr) ]) ∧
    s.sched = wr 0x38 0xFFFFFF08#32 :: [] ∧
    ({ block cfgS false [] [] with sched := [rd 0x20] } : State).sched = rd 0x20 :: [] :=
  ⟨by decide +kernel, rfl, rfl⟩

theorem witness_ReadOnlyAndReservedWords :
    ({ block cfgS true [] [] with sched := [rd 0x08] } : State).sched = rd 0x08 :: [] ∧
    ({ block cfgS true [] [] with sched := [rd 0x0C] } : State).sched = rd 0x0C :: [] ∧
    (0x3C ∈ [0x14, 0x18, 0x1C, 0x3C] ∧
      ({ block cfgS true [] [] with sched := [rd 0x3C] } : State).sched = rd 0x3C :: []) ∧
    (0x08 ∈ [0x08, 0x0C, 0x10, 0x14, 0x18, 0x1C, 0x3C] ∧
      ({ block cfgS true [] [] with sched := [wr 0x08 1#32] } : State).sched = wr 0x08 1#32 :: []) :=
  ⟨rfl, rfl, ⟨by decide, rfl⟩, ⟨by decide, rfl⟩⟩

theorem witness_LineReadIsTwoDraws :
    ({ block cfgS true [true] [false] with sched := [rd 0x10] } : State).sched = rd 0x10 :: [] ∧
    ({ block cfgS true [] [] with sched := [rd 0x10], sclO := false } : State).sched = rd 0x10 :: [] :=
  ⟨rfl, rfl⟩

/-- The first and the last address of the window, a wrong width, a wrong alignment, and a legal access. -/
theorem witness_HostBusErrorExactly :
    (∀ addr ∈ [Config.base, Config.base + 0x3F], ∀ width,
      let a := Access.read addr width
      let s := { block cfgS true [] [] with sched := [.host a] }
      s.sched = .host a :: [] ∧ (a = .read addr width ∨ ∃ v, a = .write addr width v) ∧ Config.base ≤ addr ∧
      addr < Config.base + 0x40) ∧
    (2 ≠ 4 ∨ Config.base % 4 ≠ 0) ∧ (4 ≠ 4 ∨ (Config.base + 0x3F) % 4 ≠ 0) ∧ Config.base % 4 = 0 := by
  refine ⟨?_, .inl (by decide), .inr ?_, ?_⟩
  · intro addr h width
    simp only [List.mem_cons, List.not_mem_nil, or_false] at h
    exact ⟨rfl, .inl rfl, by omega, by omega⟩
  · simp only [Config.base]; omega
  · simp only [Config.base]; omega

/-- The first address past the window. -/
theorem witness_AccessOutsideTheWindow :
    let a := Access.write (Config.base + 0x40) 2 1#32
    let s := { block cfgS true [] [] with sched := [.host a] }
    s.sched = .host a :: [] ∧ (a = .read (Config.base + 0x40) 2 ∨ ∃ v, a = .write (Config.base + 0x40) 2 v) ∧
    (Config.base + 0x40 < Config.base ∨ Config.base + 0x40 ≤ Config.base + 0x40) :=
  ⟨rfl, .inr ⟨_, rfl⟩, .inr (Nat.le_refl _)⟩

theorem witness_ResetAbandonsTheCommand :
    (accepted cfgS true 0x3#32 [.rst]).sched = .rst :: [] ∧ (accepted cfgS true 0x3#32 [.rst]).status.busy = true :=
  ⟨rfl, rfl⟩

theorem witness_RunTurnIsEngineSteps :
    (accepted cfgS true 0x2#32 [.run]).sched = .run :: [] ∧
    ∃ t, step (accepted cfgS true 0x2#32 [.run]) = .next t := ⟨rfl, ⟨_, rfl⟩⟩

/-- A configured block that runs a command, and one whose host access is a host bus error. -/
theorem witness_StepKeepsInvariant :
    (Inv (accepted cfgS true 0x3#32 [.engine]) ∧ ∃ t, step (accepted cfgS true 0x3#32 [.engine]) = .next t) ∧
    ∃ t, step (accepted cfgS true 0x3#32 [.host (.read Config.base 2)]) =
      .fault (.hostBusError Config.base 2 t) := by
  refine ⟨⟨⟨⟨rfl, rfl⟩, fun _ => by unfold ConfigLegal; decide, (fun h => by cases h), rfl,
    (fun _ h => by cases h)⟩, ⟨_, rfl⟩⟩, ?_⟩
  have hw : inWindow Config.base = true := inWindow_offset (off := 0) (by decide)
  have hl : legalAccess Config.base 2 = false := rfl
  exact ⟨_, by simp only [step, nextTurn, takeTurn, accepted, hostAccess, hostBusError, hw, hl]; rfl⟩

end Sys2Proof.Tests
end

/-! The register words as numbers, what the window reads and writes word by word, and the invariant of the block:
each part of it kept by each operation, then by every turn. -/

namespace Sys2Proof.Machine

/-! ### Register words as numbers -/

theorem toNat_append_eq_add {m n : Nat} (x : BitVec m) (y : BitVec n) :
    (x ++ y).toNat = x.toNat * 2 ^ n + y.toNat := by
  rw [BitVec.toNat_append, ← Nat.shiftLeft_add_eq_or_of_lt y.isLt, Nat.shiftLeft_eq]

theorem flagBit_toNat (v : Bool) : (flagBit v).toNat = v.toNat := by cases v <;> rfl

/-- The places of the fields of STATUS (R23). -/
theorem statusWord_toNat (st : Status) :
    (statusWord st).toNat = st.busy.toNat + 2 * st.cfg.toNat + 4 * st.ovr.toNat + 16 * st.kind.code.toNat +
      256 * st.lastop.toNat := by
  simp only [statusWord, toNat_append_eq_add, flagBit_toNat, BitVec.toNat_ofNat]
  omega

/-- The places of the levels in LINE (R26). -/
theorem lineWord_toNat (sclO sdaO sclI sdaI : Level) :
    (lineWord sclO sdaO sclI sdaI).toNat = sclO.toNat + 2 * sdaO.toNat + 4 * sclI.toNat + 8 * sdaI.toNat := by
  simp only [lineWord, toNat_append_eq_add, flagBit_toNat, BitVec.toNat_ofNat]
  omega

/-- The mask of failed checks is 0 exactly when the configuration is legal (R28, R136). -/
theorem configFaults_eq_zero_iff (c : Conf) : configFaults c = 0#8 ↔ ConfigLegal c := by
  have bits : configFaults c = 0#8 ↔ (configFaults c).toNat = 0 := by
    rw [← BitVec.toNat_inj]; rfl
  have sum : (configFaults c).toNat = 0 ↔
      ¬ Config.devAddrMax < c.devAddr ∧ ¬ c.tByteTo < c.tBitTo ∧ c.tByteTo ≠ 0#32 ∧ c.tBitTo ≠ 0#32 ∧
        ¬ c.tStopHold < Config.tHoldMin ∧ ¬ c.tStartHold < Config.tHoldMin ∧ ¬ c.tHigh < Config.tClkMin ∧
        ¬ c.tLow < Config.tClkMin := by
    simp only [configFaults, toNat_append_eq_add, flagBit_toNat, Nat.add_eq_zero_iff, Nat.mul_eq_zero,
      Bool.toNat_eq_zero, decide_eq_false_iff_not]
    simp [and_assoc]
  rw [bits, sum]
  simp only [ConfigLegal, Config.devAddrMax, Config.tHoldMin, Config.tClkMin, BitVec.lt_def, ne_eq,
    ← BitVec.toNat_inj, BitVec.toNat_ofNat]
  omega

/-! ### Words of the window -/

/-- A write past CMD and STATUS goes to the configuration, behind its lock (R27). -/
theorem writeWindow_conf {idx : Nat} (h : 2 ≤ idx) (w : Word) (s : State) :
    writeWindow idx w s = { s with
      conf := if s.status.cfg = true ∨ s.status.busy = true then s.conf else writeConf idx w s.conf } := by
  obtain ⟨k, rfl⟩ := Nat.exists_eq_add_of_le' h
  simp only [writeWindow, locked, Bool.or_eq_true]
  split <;> rfl

/-- A write to STATUS keeps OVR unless bit 2 is 1 (R23). -/
theorem writeStatus_eq (w : Word) (s : State) :
    writeStatus w s = { s with status := { s.status with ovr := s.status.ovr && !w.getLsbD 2 } } := by
  cases hw : w.getLsbD 2 <;> simp only [writeStatus, hw] <;> simp

/-- A read of LINE takes one sample of SCL, then one of SDA (R26, R29). -/
theorem readLine_sampled (s : State) : ∃ (l m : Level) (env : Env) (n : Nat),
    readLine s = (lineWord s.sclO s.sdaO l m, { s with env := env }) ∧
      Sampled Config.sclDraw (Config.wiredAnd && !s.sclO) s.env.scl env.scl s.env.drawn n l ∧
      Sampled Config.sdaDraw (Config.wiredAnd && !s.sdaO) s.env.sda env.sda n env.drawn m := by
  obtain ⟨l, xs, n, hl, hls⟩ := levelSCL_sampled s
  obtain ⟨m, ys, k, hm, hms⟩ := levelSDA_sampled { s with env := { s.env with scl := xs, drawn := n } }
  exact ⟨l, m, ⟨xs, ys, k⟩, n, by simp only [readLine, hls, hms], hl, hm⟩

/-- Settles O49, by the two branches of `writeCmd`. -/
theorem cmdAcceptsOrDrops : Obligations.CmdAcceptsOrDrops := by
  intro s ts w
  refine ⟨fun h hb => ?_, fun h hb => ?_, fun h => ?_⟩
  · rw [step_wr h (by decide) (by decide)]
    simp [writeWindow, writeCmd, hb, State.accept, opOf, nibOf, aOf, bOf]
  · rw [step_wr h (by decide) (by decide)]
    simp [writeWindow, writeCmd, hb]
  · exact step_rd h (by decide) (by decide)

/-- Settles O50, by the value of the STATUS word as a sum over its fields. -/
theorem statusReadAndWrite : Obligations.StatusReadAndWrite := by
  refine ⟨fun s ts w => ⟨fun h => ?_, fun h => ?_⟩, rfl, rfl, rfl, rfl, rfl, rfl, rfl, rfl, rfl, rfl, rfl, rfl, rfl,
    rfl, rfl⟩
  · rw [step_wr h (by decide) (by decide)]
    exact congrArg (fun t : State => Host.Outcome.next { t with rsp := .writeDone }) (writeStatus_eq w _)
  · exact ⟨_, step_rd h (by decide) (by decide), statusWord_toNat s.status⟩

/-- Settles O51: each row of the table names a word of the window, the field it writes and the value it reads. -/
theorem configurationLock : Obligations.ConfigurationLock := by
  intro s ts w off c v hrow
  have row : off < 0x40 ∧ off % 4 = 0 ∧ 2 ≤ off / 4 ∧ writeConf (off / 4) w s.conf = c ∧
      readWindow (off / 4) { s with sched := ts } = (v, { s with sched := ts }) := by
    have low : w.truncate 8 = w.extractLsb' 0 8 := BitVec.setWidth_eq_extractLsb' (by decide)
    have wide : s.conf.devAddr.zeroExtend 32 = 0#24 ++ s.conf.devAddr :=
      BitVec.setWidth_eq_append (by decide)
    simp only [List.mem_cons, Prod.mk.injEq, List.not_mem_nil, or_false] at hrow
    rcases hrow with ⟨rfl, rfl, rfl⟩ | ⟨rfl, rfl, rfl⟩ | ⟨rfl, rfl, rfl⟩ | ⟨rfl, rfl, rfl⟩ | ⟨rfl, rfl, rfl⟩ |
      ⟨rfl, rfl, rfl⟩ | ⟨rfl, rfl, rfl⟩ <;> simp [writeConf, readWindow, ← low, ← wide]
  obtain ⟨hlt, hal, hidx, hwrite, hread⟩ := row
  refine ⟨fun h => ?_, fun h => ?_⟩
  · rw [step_wr h hlt hal, writeWindow_conf hidx, hwrite]
  · rw [step_rd h hlt hal, hread]

/-- Settles O52: no read-only or reserved word is one that `writeConf` writes. -/
theorem readOnlyAndReservedWords : Obligations.ReadOnlyAndReservedWords := by
  intro s ts w off
  refine ⟨fun h => step_rd h (by decide) (by decide), fun h => step_rd h (by decide) (by decide),
    fun hoff h => ?_, fun hoff h => ?_⟩
  · have word : off < 0x40 ∧ off % 4 = 0 ∧ readWindow (off / 4) { s with sched := ts } =
        (0#32, { s with sched := ts }) := by
      simp only [List.mem_cons, List.not_mem_nil, or_false] at hoff
      rcases hoff with rfl | rfl | rfl | rfl <;> exact ⟨by decide, by decide, rfl⟩
    obtain ⟨hlt, hal, hread⟩ := word
    rw [step_rd h hlt hal, hread]
  · have word : off < 0x40 ∧ off % 4 = 0 ∧ 2 ≤ off / 4 ∧ writeConf (off / 4) w s.conf = s.conf := by
      simp only [List.mem_cons, List.not_mem_nil, or_false] at hoff
      rcases hoff with rfl | rfl | rfl | rfl | rfl | rfl | rfl <;> exact ⟨by decide, by decide, by decide, rfl⟩
    obtain ⟨hlt, hal, hidx, hwrite⟩ := word
    rw [step_wr h hlt hal, writeWindow_conf hidx, hwrite, ite_self]

/-- Settles O53, by the two samples of `readLine`. -/
theorem lineReadIsTwoDraws : Obligations.LineReadIsTwoDraws := by
  intro s ts h
  obtain ⟨l, m, env, n, hread, hl, hm⟩ := readLine_sampled { s with sched := ts }
  have hword : readWindow (0x10 / 4) { s with sched := ts } = readLine { s with sched := ts } := rfl
  refine ⟨l, m, env, n, _, ?_, lineWord_toNat s.sclO s.sdaO l m, hl, hm⟩
  rw [step_rd h (by decide) (by decide), hword, hread]

/-! ### The part of the invariant that does not speak of the phase -/

/-- The invariant without the coherence of the phase: what the line events of a command keep, wherever the engine
stands. -/
structure Sound (s : State) : Prop where
  legal : s.status.cfg = true → ConfigLegal s.conf
  released : s.status.cfg = false → s.sclO = true ∧ s.sdaO = true
  kind : s.status.kind.written = true
  failure : ∀ f, s.eng.err = some f → f.kind.ofLineEvents = true

theorem inv_iff (s : State) : Inv s ↔ PhaseCoherent s ∧ Sound s :=
  ⟨fun h => ⟨h.phase, h.legal, h.released, h.kind, h.failure⟩,
    fun ⟨hp, h⟩ => ⟨hp, h.legal, h.released, h.kind, h.failure⟩⟩

/-- A failure of a line event is of a kind the block writes (R150). -/
theorem Kind.written_of_ofLineEvents {k : Kind} (h : k.ofLineEvents = true) : k.written = true := by
  cases k with
  | timeout | nack | busStuck => rfl
  | _ => cases h

/-- Another engine with no failure kept, or with the same. -/
theorem Sound.setEng {s : State} (h : Sound s) {e : Engine} (he : e.err = none ∨ e.err = s.eng.err) :
    Sound (s.setEng e) where
  legal := h.legal
  released := h.released
  kind := h.kind
  failure f hf := by
    rcases he with he | he
    · exact absurd (he.symm.trans hf) nofun
    · exact h.failure f (he.symm.trans hf)

theorem Sound.setSCL_high {s : State} (h : Sound s) : Sound (s.setSCL true) :=
  ⟨h.legal, fun hc => ⟨rfl, (h.released hc).2⟩, h.kind, h.failure⟩

theorem Sound.setSDA_high {s : State} (h : Sound s) : Sound (s.setSDA true) :=
  ⟨h.legal, fun hc => ⟨(h.released hc).1, rfl⟩, h.kind, h.failure⟩

/-- The line events of a configured block keep it sound: they leave CFG and the configuration alone. -/
theorem Sound.of_lineMoves {s t : State} {new : List LineEvent} (h : Sound s) (hc : s.status.cfg = true)
    (hm : LineMoves s t new) : Sound t ∧ t.status.cfg = true := by
  obtain ⟨scl, sda, env, eng, ⟨_, _, _, _, _, _, herr⟩, rfl⟩ := hm
  refine ⟨⟨h.legal, fun hf => absurd (hc.symm.trans hf) nofun, h.kind, fun f hf => ?_⟩, hc⟩
  rcases herr with herr | ⟨x, hx, hk⟩
  · exact h.failure f (herr.symm.trans hf)
  · obtain rfl : x = f := Option.some.inj (hx.symm.trans hf)
    rcases hk with hk | hk | hk <;> rw [hk] <;> rfl

/-! ### The completion of a command -/

/-- A `finish` with a kind the block writes leaves the engine idle and the rest of the invariant as it was. -/
theorem Sound.inv_finish {s : State} (h : Sound s) {k : Kind} (hk : k.written = true) (d : Word) (r : Result) :
    Inv (finish k d r s) :=
  ⟨⟨rfl, rfl⟩, h.legal, h.released, hk, nofun⟩

theorem Sound.inv_concludeWith {s t : State} (h : Sound s) (ht : Inv t) (r : Result) :
    Inv (concludeWith r s t) := by
  cases he : s.eng.err with
  | none => rwa [concludeWith_none he]
  | some f =>
    rw [concludeWith_some he]
    exact h.inv_finish (Kind.written_of_ofLineEvents (h.failure f he)) _ _

/-! ### A command that runs -/

/-- A command whose line events still to come are `todo` and `after` runs on a sound block. Unlike `PhaseCoherent` this
does not speak of the phase, so that it also holds inside a run turn, which performs no phase changes. -/
structure Runs (s : State) (todo after : List Micro) (p : Report) : Prop where
  sound : Sound s
  coherent : RunCoherent s todo after p

/-- Every command but CONFIG and DECONFIG runs on a configured block only. -/
theorem runCoherent_iff_configured {p : Report} (hconfig : p ≠ .configCheck) (hdeconfig : p ≠ .unconfigure)
    (s : State) (todo after : List Micro) : RunCoherent s todo after p ↔ s.status.cfg = true := by
  cases p with
  | configCheck => exact absurd rfl hconfig
  | unconfigure => exact absurd rfl hdeconfig
  | _ => rfl

/-- Line events of a command other than CONFIG and DECONFIG, whatever is left of its lists after them. -/
theorem Runs.of_lineMoves {s t : State} {todo after todo' after' : List Micro} {p : Report} {new : List LineEvent}
    (h : Runs s todo after p) (hconfig : p ≠ .configCheck) (hdeconfig : p ≠ .unconfigure)
    (hm : LineMoves s t new) : Runs t todo' after' p := by
  have hc := (runCoherent_iff_configured hconfig hdeconfig s todo after).mp h.coherent
  obtain ⟨ht, htc⟩ := h.sound.of_lineMoves hc hm
  exact ⟨ht, (runCoherent_iff_configured hconfig hdeconfig t todo' after').mpr htc⟩

/-- With `todo` used up, the events of `after` are the ones to come. -/
theorem Runs.shift {s : State} {after : List Micro} {p : Report} (h : Runs s [] after p) : Runs s after [] p := by
  obtain ⟨hs, hco⟩ := h
  refine ⟨hs, ?_⟩
  cases p with
  | configCheck =>
    obtain ⟨_, rfl, hc⟩ := hco
    exact ⟨rfl, rfl, hc⟩
  | unconfigure =>
    obtain ⟨rfl, hco⟩ := hco
    exact ⟨rfl, hco⟩
  | _ => exact hco

/-- The `finish` at the end of a command: CONFIG sets CFG on a legal configuration only (R136), DECONFIG clears it with
both lines released (R138, R139). -/
theorem Runs.inv_complete {s : State} {p : Report} (h : Runs s [] [] p) : Inv (complete p s) := by
  obtain ⟨hs, hco⟩ := h
  cases p with
  | plain | received | ackFlag | writeFrame | idleBits => exact hs.inv_concludeWith (hs.inv_finish rfl _ _) _
  | readFrame | recovery =>
    refine hs.inv_concludeWith ?_ _
    split <;> exact hs.inv_finish rfl _ _
  | configCheck =>
    simp only [complete]
    split
    case isTrue hlegal =>
      have configured : Sound (s.setCfg true) :=
        ⟨fun _ => (configFaults_eq_zero_iff _).mp hlegal, nofun, hs.kind, hs.failure⟩
      exact configured.inv_finish rfl _ _
    case isFalse => exact hs.inv_finish rfl _ _
  | unconfigure =>
    obtain ⟨_, h | ⟨h, _⟩ | ⟨_, hscl, hsda⟩⟩ := hco
    · cases h
    · cases h
    · have unconfigured : Sound (s.setCfg false) := ⟨nofun, fun _ => ⟨hscl, hsda⟩, hs.kind, hs.failure⟩
      exact unconfigured.inv_finish rfl _ _

/-- The two releases of DECONFIG, one after another (R138). -/
theorem Runs.release_scl {s : State} (h : Sound s) : Runs (s.setSCL true) [.driveSDA true] [] .unconfigure :=
  ⟨h.setSCL_high, rfl, .inr (.inl ⟨rfl, rfl⟩)⟩

theorem Runs.release_sda {s : State} (h : Sound s) (hscl : s.sclO = true) :
    Runs (s.setSDA true) [] [] .unconfigure :=
  ⟨h.setSDA_high, rfl, .inr (.inr ⟨rfl, hscl, rfl⟩)⟩

/-! ### One engine step of a running command -/

theorem inv_setPhase_run {s : State} {todo after : List Micro} {p : Report} (h : Runs s todo after p)
    (hb : s.status.busy = true) : Inv (s.setPhase (.run todo after p)) :=
  (inv_iff _).mpr ⟨⟨hb, h.coherent⟩, h.sound.setEng (.inr rfl)⟩

/-- After a line event the engine stands in the same command, with some lists still to come. -/
theorem settle_spec (r : Fired) (rest after : List Micro) (p : Report) :
    ∃ todo' after', settle r rest after p = r.state.setPhase (.run todo' after' p) := by
  cases r <;> exact ⟨_, _, rfl⟩

/-- No line event changes STATUS. -/
theorem fire_status (m : Micro) (s : State) : (fire m s).state.status = s.status := by
  obtain ⟨_, _, _, _, _, _, ht⟩ := fire_spec m s
  rw [ht]

theorem Runs.inv_settle {s : State} {m : Micro} {rest after : List Micro} {p : Report}
    (h : Runs s (m :: rest) after p) (hb : s.status.busy = true) : Inv (settle (fire m s) rest after p) := by
  by_cases hconfig : p = .configCheck
  · subst hconfig
    obtain ⟨htodo, _⟩ := h.coherent
    cases htodo
  by_cases hdeconfig : p = .unconfigure
  · subst hdeconfig
    obtain ⟨rfl, htodo | ⟨htodo, hscl⟩ | ⟨htodo, _⟩⟩ := h.coherent <;> cases htodo
    · exact inv_setPhase_run (.release_scl h.sound) hb
    · exact inv_setPhase_run (.release_sda h.sound hscl) hb
  · obtain ⟨ev, hm⟩ := fire_spec m s
    obtain ⟨todo', after', heq⟩ := settle_spec (fire m s) rest after p
    rw [heq]
    exact inv_setPhase_run (h.of_lineMoves hconfig hdeconfig hm) ((fire_status m s).symm ▸ hb)

theorem Runs.inv_advance {s : State} {todo after : List Micro} {p : Report} (h : Runs s todo after p)
    (hb : s.status.busy = true) : Inv (advance todo after p s) := by
  cases todo with
  | cons m rest => exact h.inv_settle hb
  | nil =>
    cases after with
    | cons m rest => exact h.shift.inv_settle hb
    | nil => exact h.inv_complete

/-! ### An undisturbed run of a command -/

/-- A run of `todo`, whether or not it fails, leaves `after` to come. -/
theorem runs_runSeq {s : State} {todo after : List Micro} {p : Report} (h : Runs s todo after p) :
    Runs (runSeq todo s).state [] after p := by
  by_cases hconfig : p = .configCheck
  · subst hconfig
    obtain ⟨rfl, _⟩ := h.coherent
    exact h
  by_cases hdeconfig : p = .unconfigure
  · subst hdeconfig
    obtain ⟨rfl, rfl | ⟨rfl, hscl⟩ | ⟨rfl, _⟩⟩ := h.coherent
    · rw [runSeq_cons_done rfl, runSeq_cons_done rfl]
      exact .release_sda h.sound.setSCL_high rfl
    · rw [runSeq_cons_done rfl]
      exact .release_sda h.sound hscl
    · exact h
  · obtain ⟨new, hm⟩ := runSeq_spec todo s
    exact h.of_lineMoves hconfig hdeconfig hm

theorem Runs.inv_runJob {s : State} {todo after : List Micro} {p : Report} (h : Runs s todo after p) :
    Inv (runJob { todo := todo, after := after, report := p } s) :=
  (runs_runSeq (runs_runSeq h).shift).inv_complete

/-! ### The decode step -/

/-- A refusal of the gate is of a kind the block writes (R70, R150). -/
theorem gate_kind_written {i : Instr} {s : State} {f : Failure} (h : gate i s = some f) :
    f.kind.written = true := by
  unfold gate at h
  split at h
  · cases h; rfl
  split at h
  · cases h; rfl
  split at h
  · cases h; rfl
  · cases h

/-- What passes the gate: CONFIG on an unconfigured block, DECONFIG, and the others on a configured one (R70). -/
theorem cfg_of_gate_none {i : Instr} {s : State} (h : gate i s = none) :
    (i = .config → s.status.cfg = false) ∧ (needsConfigured i = true → s.status.cfg = true) := by
  unfold gate at h
  split at h
  · cases h
  split at h
  · cases h
  split at h
  · cases h
  · rename_i _ hconfig hneeds
    exact ⟨fun hi => Bool.eq_false_iff.mpr fun hc => hconfig ⟨hi, hc⟩,
      fun hi => Bool.eq_true_of_not_eq_false fun hc => hneeds ⟨hi, hc⟩⟩

/-- A command that passes the gate starts to run. -/
theorem runs_commandOf {i : Instr} {s : State} (h : Sound s) (hg : gate i s = none) :
    Runs (commandOf i s).1 (commandOf i s).2.todo (commandOf i s).2.after (commandOf i s).2.report := by
  obtain ⟨e, heq, herr, -⟩ := commandOf_spec i s
  obtain ⟨hconfig, hneeds⟩ := cfg_of_gate_none hg
  refine ⟨heq ▸ h.setEng (.inl herr), ?_⟩
  cases i with
  | config => exact ⟨rfl, rfl, hconfig rfl⟩
  | deconfig => exact ⟨rfl, .inl rfl⟩
  | _ => exact hneeds rfl

theorem commandOf_status (i : Instr) (s : State) : (commandOf i s).1.status = s.status := by
  obtain ⟨e, heq, -⟩ := commandOf_spec i s
  rw [heq, State.setEng_status]

theorem Sound.inv_refuseWord {s : State} (h : Sound s) : Inv (refuseWord s) := h.inv_finish rfl _ _

theorem Sound.inv_decodeStep {s : State} (h : Sound s) (hb : s.status.busy = true) : Inv (decodeStep s) := by
  unfold decodeStep
  split
  · exact h.inv_refuseWord
  · split
    · rename_i hg
      exact h.inv_finish (gate_kind_written hg) _ _
    · rename_i hg
      exact inv_setPhase_run (runs_commandOf h hg) ((commandOf_status _ s).symm ▸ hb)

/-! ### Every turn -/

theorem Sound.inv_exec {s : State} (h : Sound s) (i : Instr) : Inv (afterOutcome s (exec i s)) := by
  rw [exec_eq]
  cases hg : gate i s with
  | some f => rw [runGated_some rfl]; exact h.inv_finish (gate_kind_written hg) _ _
  | none => rw [runGated_none rfl]; exact (runs_commandOf h hg).inv_runJob

theorem Inv.runs {s : State} (h : Inv s) {todo after : List Micro} {p : Report}
    (hp : s.eng.phase = .run todo after p) : Runs s todo after p := by
  obtain ⟨hphase, hs⟩ := (inv_iff s).mp h
  rw [PhaseCoherent, hp] at hphase
  exact ⟨hs, hphase.2⟩

theorem inv_engineStep {s : State} (h : Inv s) : Inv (engineStep s) := by
  obtain ⟨_, hs⟩ := (inv_iff s).mp h
  unfold engineStep
  split
  case isFalse => exact h
  case isTrue hb =>
    split
    case h_1 => exact h
    case h_2 => exact hs.inv_decodeStep hb
    case h_3 hp => exact (h.runs hp).inv_advance hb

theorem inv_runTurn {s : State} (h : Inv s) : Inv (afterOutcome s (runTurn s)) := by
  obtain ⟨_, hs⟩ := (inv_iff s).mp h
  unfold runTurn
  split
  case isFalse => exact h
  case isTrue =>
    split
    case h_1 => exact h
    case h_2 =>
      split
      · exact hs.inv_refuseWord
      · exact hs.inv_exec _
    case h_3 hp => exact (h.runs hp).inv_runJob

/-- The invariant does not depend on CMD, OVR, LASTOP, RESULT, DETAIL, the trace, the draws, the turns to come and the
host's response, nor on the configuration registers while CFG = 0. -/
theorem Inv.congr {s t : State} (h : Inv s) (heng : t.eng = s.eng) (hbusy : t.status.busy = s.status.busy)
    (hcfg : t.status.cfg = s.status.cfg) (hkind : t.status.kind = s.status.kind)
    (hconf : s.status.cfg = true → t.conf = s.conf) (hscl : t.sclO = s.sclO) (hsda : t.sdaO = s.sdaO) : Inv t where
  phase := by
    have hp := h.phase
    unfold PhaseCoherent RunCoherent at hp ⊢
    rwa [heng, hbusy, hcfg, hscl, hsda]
  legal hc := by
    rw [hcfg] at hc
    rw [hconf hc]
    exact h.legal hc
  released hc := by
    rw [hscl, hsda]
    exact h.released (hcfg ▸ hc)
  kind := hkind ▸ h.kind
  failure := heng ▸ h.failure

/-- While BUSY = 0 the engine is idle and keeps no failure. -/
theorem Inv.err_of_not_busy {s : State} (h : Inv s) (hb : s.status.busy = false) : s.eng.err = none := by
  have hp := h.phase
  unfold PhaseCoherent at hp
  split at hp
  · exact hp.2
  · exact hp.2
  · exact absurd (hb.symm.trans hp.1) nofun

/-- An accepted word puts the engine about to decode (R22). -/
theorem inv_accept {s : State} (h : Inv s) (hb : s.status.busy = false) (w : Word) : Inv (s.accept w) :=
  ⟨⟨rfl, h.err_of_not_busy hb⟩, h.legal, h.released, h.kind, h.failure⟩

theorem inv_writeWindow {s : State} (h : Inv s) (idx : Nat) (w : Word) : Inv (writeWindow idx w s) := by
  obtain ⟨heq, hb⟩ | ⟨v, heq⟩ | ⟨c, heq, hlock⟩ := writeWindow_spec idx w s <;> rw [heq]
  · exact inv_accept h hb w
  · exact h.congr rfl rfl rfl rfl (fun _ => rfl) rfl rfl
  · exact h.congr rfl rfl rfl rfl (fun hc => hlock (by simp [locked, hc])) rfl rfl

theorem inv_readWindow {s : State} (h : Inv s) (idx : Nat) : Inv (readWindow idx s).2 := by
  obtain ⟨e, heq⟩ := readWindow_spec idx s
  rw [heq]
  exact h.congr rfl rfl rfl rfl (fun _ => rfl) rfl rfl

theorem inv_withRsp {s : State} (h : Inv s) (r : Response) : Inv { s with rsp := r } :=
  h.congr rfl rfl rfl rfl (fun _ => rfl) rfl rfl

theorem inv_hostAccess {s : State} (h : Inv s) (a : Access) : Inv (afterOutcome s (hostAccess a s)) := by
  cases a with
  | read addr width =>
    simp only [hostAccess]
    split
    · exact inv_withRsp h _
    split
    · exact inv_withRsp h _
    · exact inv_withRsp (inv_readWindow h _) _
  | write addr width v =>
    simp only [hostAccess]
    split
    · exact inv_withRsp h _
    split
    · exact inv_withRsp h _
    · exact inv_withRsp (inv_writeWindow h _ _) _

theorem inv_assertRst (s : State) : Inv s.assertRst :=
  ⟨⟨rfl, rfl⟩, nofun, fun _ => ⟨rfl, rfl⟩, rfl, nofun⟩

theorem inv_takeTurn {s : State} (h : Inv s) (turn : Turn) : Inv (afterOutcome s (takeTurn turn s)) := by
  cases turn with
  | host a => exact inv_hostAccess h a
  | engine => exact inv_engineStep h
  | run => exact inv_runTurn h
  | rst => exact inv_assertRst s

/-- The state before an outcome is the one to go on from after a refusal only. -/
theorem inv_afterOutcome_from {s s' : State} {o : Host.Outcome State Fault Refusal} (h : Inv s')
    (ho : Inv (afterOutcome s o)) : Inv (afterOutcome s' o) := by
  cases o with
  | next t => exact ho
  | fault r => exact ho
  | refused r => exact h

/-- The next turn keeps the invariant, whatever its outcome. -/
theorem inv_proceed {s : State} (h : Inv s) : Inv (proceed s) := by
  unfold proceed nextTurn
  split
  · exact inv_runTurn h
  · have hsched : ∀ ts, Inv { s with sched := ts } :=
      fun ts => h.congr rfl rfl rfl rfl (fun _ => rfl) rfl rfl
    exact inv_afterOutcome_from h (inv_takeTurn (hsched _) _)

/-- Settles O58: each value stands in `State.reset`. -/
theorem resetValues : Obligations.ResetValues :=
  ⟨rfl, rfl, rfl, rfl, rfl, rfl, rfl, rfl, rfl, rfl⟩

/-- Settles O59: reset is what an assertion of RST leads to. -/
theorem resetMeetsInvariant : Obligations.ResetMeetsInvariant := inv_assertRst State.reset

/-- Settles O60: the state after a `.next` and after a host bus error is the one `proceed` goes on from. -/
theorem stepKeepsInvariant : Obligations.StepKeepsInvariant := by
  intro s t h hstep
  have hproceed : proceed s = t := by
    obtain hstep | ⟨addr, width, hstep⟩ := hstep <;> exact congrArg (afterOutcome s) hstep
  exact hproceed ▸ inv_proceed h

end Sys2Proof.Machine

/-! Host accesses that do not reach the block (20_memory.md R48, R51; 60_exceptions.md R153), and the levels of SDA that
a byte sent on the wire drives (20_memory.md R50; 41_serdes.md R110). -/

namespace Sys2Proof.Machine

/-! ### The three outcomes of a host access -/

/-- The access is a read or a write at `addr`, `width` bytes wide. -/
def Access.At (a : Access) (addr width : Nat) : Prop :=
  a = .read addr width ∨ ∃ v, a = .write addr width v

theorem step_host {s : State} {a : Access} {ts : List Turn} (h : s.sched = .host a :: ts) :
    step s = hostAccess a { s with sched := ts } := by
  simp only [step, nextTurn, h, takeTurn]

theorem hostAccess_outside {a : Access} {addr width : Nat} (ha : a.At addr width) (h : inWindow addr = false)
    (s : State) : hostAccess a s = .next { s with rsp := .notSelected } := by
  obtain rfl | ⟨v, rfl⟩ := ha <;> simp only [hostAccess, h, if_true]

theorem hostAccess_illegal {a : Access} {addr width : Nat} (ha : a.At addr width) (hw : inWindow addr = true)
    (hl : legalAccess addr width = false) (s : State) : hostAccess a s = hostBusError addr width s := by
  obtain rfl | ⟨v, rfl⟩ := ha <;> simp [hostAccess, hw, hl]

theorem hostAccess_legal {a : Access} {addr width : Nat} (ha : a.At addr width) (hw : inWindow addr = true)
    (hl : legalAccess addr width = true) (s : State) : ∃ t, hostAccess a s = .next t := by
  obtain rfl | ⟨v, rfl⟩ := ha <;> simp [hostAccess, hw, hl]

/-- Settles O55: the window holds none of the addresses below BASE or from BASE + 0x40 on. -/
theorem accessOutsideTheWindow : Obligations.AccessOutsideTheWindow := by
  intro s ts a addr width hsched ha hout
  have outside : inWindow addr = false := by
    rw [← Bool.not_eq_true, inWindow_iff]
    omega
  rw [step_host hsched, hostAccess_outside ha outside]

/-! ### The engine does not depend on the host's last response -/

theorem concludeWith_withRsp (res : Result) (s : State) {t t' : State} {r : Response} (ht : t' = t.withRsp r) :
    concludeWith res (s.withRsp r) t' = (concludeWith res s t).withRsp r := by
  subst ht
  cases h : s.eng.err with
  | none => rw [concludeWith_none h, concludeWith_none (s := s.withRsp r) h]
  | some f =>
    rw [concludeWith_some h, concludeWith_some (s := s.withRsp r) h]
    rfl

theorem complete_withRsp (p : Report) (s : State) (r : Response) :
    complete p (s.withRsp r) = (complete p s).withRsp r := by
  cases p with
  | plain | received | ackFlag | writeFrame | idleBits => exact concludeWith_withRsp _ s rfl
  | readFrame | recovery => exact concludeWith_withRsp _ s (by rw [apply_ite (State.withRsp · r)]; rfl)
  | configCheck =>
    simp only [complete, apply_ite (State.withRsp · r)]
    rfl
  | unconfigure => rfl

theorem settle_withRsp (x : Fired) (rest after : List Micro) (p : Report) (r : Response) :
    settle (x.withRsp r) rest after p = (settle x rest after p).withRsp r := by
  cases x <;> rfl

theorem advance_withRsp (todo after : List Micro) (p : Report) (s : State) (r : Response) :
    advance todo after p (s.withRsp r) = (advance todo after p s).withRsp r := by
  match todo, after with
  | _ :: _, _ | [], _ :: _ => simp only [advance, fire_withRsp, settle_withRsp]
  | [], [] => exact complete_withRsp p s r

theorem decodeStep_withRsp (s : State) (r : Response) : decodeStep (s.withRsp r) = (decodeStep s).withRsp r := by
  have hfetch : (s.withRsp r).fetch = s.fetch := rfl
  unfold decodeStep
  rw [hfetch]
  cases s.fetch with
  | error _ => rfl
  | ok i =>
    have hgate : gate i (s.withRsp r) = gate i s := rfl
    simp only [hgate]
    cases gate i s with
    | some f => rfl
    | none => cases i <;> rfl

theorem engineStep_withRsp (s : State) (r : Response) : engineStep (s.withRsp r) = (engineStep s).withRsp r := by
  have hbusy : (s.withRsp r).status.busy = s.status.busy := rfl
  have hphase : (s.withRsp r).eng.phase = s.eng.phase := rfl
  unfold engineStep
  rw [hbusy, hphase]
  split
  · cases s.eng.phase with
    | idle => rfl
    | decode => exact decodeStep_withRsp s r
    | run todo after p => exact advance_withRsp todo after p s r
  · rfl

theorem iterate_engineStep_withRsp (k : Nat) (s : State) (r : Response) :
    engineStep^[k] (s.withRsp r) = (engineStep^[k] s).withRsp r :=
  ((Function.Semiconj.iterate_right (f := (State.withRsp · r)) (fun s => (engineStep_withRsp s r).symm) k) s).symm

/-- Settles O54: the block goes on from the state before the access but for the host's response, on which no engine
step depends. -/
theorem hostBusErrorExactly : Obligations.HostBusErrorExactly := by
  intro s ts a addr width hsched ha hlo hhi
  have inside : inWindow addr = true := (inWindow_iff addr).mpr ⟨hlo, hhi⟩
  refine ⟨fun hbad => ?_, fun hwidth halign => ?_⟩
  · have illegal : legalAccess addr width = false := by
      rw [← Bool.not_eq_true, legalAccess_iff]
      omega
    have hstep : step s = hostBusError addr width { s with sched := ts } :=
      (step_host hsched).trans (hostAccess_illegal ha inside illegal _)
    have hproceed : proceed s = { s with sched := ts, rsp := .busError } := congrArg (afterOutcome s) hstep
    refine ⟨hstep, hproceed, fun k => ?_⟩
    rw [hproceed]
    exact iterate_engineStep_withRsp k { s with sched := ts } .busError
  · have legal : legalAccess addr width = true := (legalAccess_iff addr width).mpr ⟨hwidth, halign⟩
    rw [step_host hsched]
    exact hostAccess_legal ha inside legal _

/-! ### A sequence of line events fails exactly where it keeps a failure -/

/-- What the two events of a bounded wait can lead to: the sample ends it, fails it with the per-bit budget spent, or
leads to the poll delay (R93). -/
theorem fire_wait_cases (f : FailAs) (s : State) : ∃ v e,
    fire (.wait f) s = .done { s with
        env := e, trace := s.trace ++ [.sampleSCL v], eng := { s.eng with acc := s.eng.acc + s.eng.n } } ∨
      (∃ x, fire (.wait f) s = .failed
        (({ s with env := e, trace := s.trace ++ [.sampleSCL v] } : State).keepFailure x)) ∨
      s.eng.n.toNat < s.conf.tBitTo.toNat ∧
        fire (.wait f) s = .again (.pollDelay f) { s with env := e, trace := s.trace ++ [.sampleSCL v] } := by
  obtain ⟨v, e, h⟩ := sampleSCL_spec s
  refine ⟨v, e, ?_⟩
  simp only [fire, poll, h]
  cases v with
  | true => exact .inl rfl
  | false =>
    by_cases hn : s.conf.tBitTo.zeroExtend 33 ≤ s.eng.n
    · exact .inr (.inl ⟨_, if_pos hn⟩)
    · refine .inr (.inr ⟨?_, if_neg hn⟩)
      rwa [BitVec.le_def, zeroExtend_word_toNat, Nat.not_le] at hn

/-- The poll delay fails the wait or leads to its next sample (R93). -/
theorem fire_pollDelay_cases (f : FailAs) (s : State) :
    (∃ x, fire (.pollDelay f) s = .failed
      (({ s with trace := s.trace ++ [.delay 1], eng := s.eng.tick } : State).keepFailure x)) ∨
      fire (.pollDelay f) s = .again (.wait f) { s with trace := s.trace ++ [.delay 1], eng := s.eng.tick } := by
  by_cases h : s.conf.tByteTo.zeroExtend 33 < s.eng.acc + (s.eng.n + Config.pollUs)
  · exact .inl ⟨_, if_pos h⟩
  · exact .inr (if_neg h)

/-- A run that starts with `before` as the failure kept keeps it if it ends, and keeps one if it fails. -/
def Ran.KeepsFailure (before : Option Failure) : Ran → Prop
  | .ok t => t.eng.err = before
  | .failed t => t.eng.err.isSome = true

/-- A bounded wait never fails for want of fuel: at most `j` poll delays are left to it (R94, log 13). -/
theorem runMicro_wait_keepsFailure (f : FailAs) (j : Nat) : ∀ (s : State) (fuel : Nat),
    s.conf.tBitTo.toNat ≤ s.eng.n.toNat + j → 2 * j + 1 ≤ fuel →
      (runMicro fuel (.wait f) s).KeepsFailure s.eng.err := by
  induction j with
  | zero =>
    intro s fuel hj hf
    obtain ⟨fuel, rfl⟩ : ∃ m, fuel = m + 1 := ⟨fuel - 1, by omega⟩
    obtain ⟨v, e, h | ⟨x, h⟩ | ⟨hn, -⟩⟩ := fire_wait_cases f s
    · simp [runMicro, h, Ran.KeepsFailure]
    · simp [runMicro, h, Ran.KeepsFailure]
    · omega
  | succ j ih =>
    intro s fuel hj hf
    obtain ⟨fuel, rfl⟩ : ∃ m, fuel = m + 2 := ⟨fuel - 2, by omega⟩
    obtain ⟨v, e, h | ⟨x, h⟩ | ⟨hn, h⟩⟩ := fire_wait_cases f s
    · simp [runMicro, h, Ran.KeepsFailure]
    · simp [runMicro, h, Ran.KeepsFailure]
    · have htick : s.eng.tick.n.toNat = s.eng.n.toNat + 1 :=
        count_add_toNat (y := 1#33) (by have := s.conf.tBitTo.isLt; simp only [BitVec.toNat_ofNat]; omega)
      simp only [runMicro, h]
      obtain ⟨x, h⟩ | h := fire_pollDelay_cases f { s with env := e, trace := s.trace ++ [.sampleSCL v] } <;>
        simp only [h]
      · simp [Ran.KeepsFailure]
      · exact ih _ fuel (by simp only [htick]; omega) (by omega)

theorem runMicro_keepsFailure (m : Micro) (s : State) :
    (runMicro (waitFuel s) m s).KeepsFailure s.eng.err := by
  cases m with
  | wait f => exact runMicro_wait_keepsFailure f s.conf.tBitTo.toNat s _ (by omega) (by rw [waitFuel]; omega)
  | pollDelay f =>
    rw [waitFuel_pos, runMicro]
    obtain ⟨x, h⟩ | h := fire_pollDelay_cases f s <;> simp only [h]
    · simp [Ran.KeepsFailure]
    · exact runMicro_wait_keepsFailure f s.conf.tBitTo.toNat _ _ (Nat.le_add_left _ _) (Nat.le_refl _)
  | closeAck k counted =>
    simp only [waitFuel_pos, runMicro, fire, endAck]
    split_ifs <;> simp [Ran.KeepsFailure]
  | closeByte dst => cases dst <;> rfl
  | sampleBit | senseSDA =>
    obtain ⟨v, e, h⟩ := sampleSDA_spec s
    simp [waitFuel_pos, runMicro, fire, h, Ran.KeepsFailure]
  | senseSCL =>
    obtain ⟨v, e, h⟩ := sampleSCL_spec s
    simp [waitFuel_pos, runMicro, fire, h, Ran.KeepsFailure]
  | _ => rfl

theorem runSeq_keepsFailure (ms : List Micro) (s : State) : (runSeq ms s).KeepsFailure s.eng.err := by
  induction ms generalizing s with
  | nil => rfl
  | cons m rest ih =>
    have hm := runMicro_keepsFailure m s
    cases hrun : runMicro (waitFuel s) m s with
    | ok t =>
      rw [hrun] at hm
      have ht : t.eng.err = s.eng.err := hm
      rw [runSeq_cons_ok hrun, ← ht]
      exact ih t
    | failed t =>
      rw [hrun] at hm
      rwa [runSeq_cons_stopped hrun]

/-- The failure that a failed sequence leaves is one of line events, where none was kept before (R154). -/
theorem runSeq_failed_err {ms : List Micro} {s t : State} (hs : s.eng.err = none) (h : runSeq ms s = .failed t) :
    ∃ f, t.eng.err = some f ∧ f.kind.ofLineEvents = true := by
  have hsome := runSeq_keepsFailure ms s
  rw [h] at hsome
  obtain ⟨f, hf⟩ := Option.isSome_iff_exists.mp hsome
  obtain ⟨new, hm⟩ := runSeq_spec ms s
  rw [h] at hm
  obtain ⟨_, _, _, eng, ⟨_, _, _, _, _, _, herr⟩, ht⟩ := hm
  have heng : t.eng = eng := congrArg State.eng ht
  rw [← heng, hf, hs] at herr
  obtain herr | ⟨x, hx, hk⟩ := herr
  · cases herr
  · cases hx
    refine ⟨f, hf, ?_⟩
    rcases hk with hk | hk | hk <;> rw [hk] <;> rfl

/-- A job that reports no data and has no line event after its own finishes `Ok` exactly by performing them all. -/
theorem runJob_plain_ok {ms : List Micro} {s : State} (hs : s.eng.err = none)
    (hk : (runJob { todo := ms, after := [], report := .plain } s).status.kind = .ok) :
    ∃ t, runSeq ms s = .ok t ∧
      runJob { todo := ms, after := [], report := .plain } s = finish .ok 0#32 {} t := by
  cases hrun : runSeq ms s with
  | ok t =>
    have ht := runSeq_keepsFailure ms s
    rw [hrun, hs] at ht
    exact ⟨t, rfl, (runJob_ok hrun).trans (concludeWith_none ht)⟩
  | failed t =>
    obtain ⟨f, hf, hline⟩ := runSeq_failed_err hs hrun
    rw [runJob_failed hrun, complete, concludeWith_some hf, finish_status] at hk
    have hok : f.kind = .ok := hk
    rw [hok] at hline
    cases hline

/-! ### The levels of SDA that a byte drives -/

theorem sdaLevels_append (xs ys : List LineEvent) : sdaLevels (xs ++ ys) = sdaLevels xs ++ sdaLevels ys := by
  induction xs with
  | nil => rfl
  | cons e es ih => cases e <;> simp [sdaLevels, ih]

/-- From `s` to `t` SDA was driven to `bs`, one after another, and the shift register was left alone. -/
def Drives (s t : State) (bs : List Level) : Prop :=
  t.eng.sr = s.eng.sr ∧ ∃ new, t.trace = s.trace ++ new ∧ sdaLevels new = bs

theorem Drives.refl (s : State) : Drives s s [] := ⟨rfl, [], by simp, rfl⟩

theorem Drives.trans {s t u : State} {bs cs : List Level} (h : Drives s t bs) (k : Drives t u cs) :
    Drives s u (bs ++ cs) := by
  obtain ⟨hsr, new, ht, rfl⟩ := h
  obtain ⟨ksr, more, ku, rfl⟩ := k
  exact ⟨ksr.trans hsr, new ++ more, by rw [ku, ht, List.append_assoc], sdaLevels_append _ _⟩

theorem drives_setSCL (v : Level) (s : State) : Drives s (s.setSCL v) [] := ⟨rfl, [.driveSCL v], rfl, rfl⟩

theorem drives_setSDA (v : Level) (s : State) : Drives s (s.setSDA v) [v] := ⟨rfl, [.driveSDA v], rfl, rfl⟩

theorem drives_pause (us : Nat) (s : State) : Drives s (s.pause us) [] := ⟨rfl, [.delay us], rfl, rfl⟩

/-- A bounded wait, begun with its sample or with its poll delay, drives no SDA, whatever its outcome. -/
theorem drives_runMicro_wait (f : FailAs) (fuel : Nat) : ∀ s : State,
    Drives s (runMicro fuel (.wait f) s).state [] ∧ Drives s (runMicro fuel (.pollDelay f) s).state [] := by
  induction fuel with
  | zero => exact fun s => ⟨.refl s, .refl s⟩
  | succ fuel ih =>
    intro s
    constructor
    · obtain ⟨v, e, h | ⟨x, h⟩ | ⟨-, h⟩⟩ := fire_wait_cases f s <;> simp only [runMicro, h]
      · exact ⟨rfl, [.sampleSCL v], rfl, rfl⟩
      · exact ⟨by simp [Ran.state], [.sampleSCL v], State.keepFailure_trace _ _, rfl⟩
      · have sample : Drives s { s with env := e, trace := s.trace ++ [.sampleSCL v] } [] :=
          ⟨rfl, [.sampleSCL v], rfl, rfl⟩
        exact sample.trans (ih _).2
    · obtain ⟨x, h⟩ | h := fire_pollDelay_cases f s <;> simp only [runMicro, h]
      · exact ⟨by simp [Ran.state, Engine.tick], [.delay 1], State.keepFailure_trace _ _, rfl⟩
      · exact (drives_pause 1 s).trans (ih _).1

theorem runSeq_append_eq_ok {xs ys : List Micro} {s t : State} (h : runSeq (xs ++ ys) s = .ok t) :
    ∃ u, runSeq xs s = .ok u ∧ runSeq ys u = .ok t := by
  cases hx : runSeq xs s with
  | ok u => exact ⟨u, rfl, (runSeq_append_ok hx).symm.trans h⟩
  | failed u => cases (runSeq_append_failed hx).symm.trans h

theorem drives_of_runSeq_wait {f : FailAs} {ms : List Micro} {s t : State} (h : runSeq (.wait f :: ms) s = .ok t) :
    ∃ u, Drives s u [] ∧ runSeq ms u = .ok t := by
  cases hwait : runMicro (waitFuel s) (.wait f) s with
  | ok u =>
    obtain ⟨hu, -⟩ := drives_runMicro_wait f (waitFuel s) s
    rw [hwait] at hu
    exact ⟨u, hu, (runSeq_cons_ok hwait).symm.trans h⟩
  | failed u => cases (runSeq_cons_stopped hwait).symm.trans h

/-- A write cell after its first event drives no SDA (R107). -/
theorem drives_clockOut {s t : State} (h : runSeq clockOut s = .ok t) : Drives s t [] := by
  rw [clockOut, runSeq_cons_done rfl, runSeq_cons_done rfl] at h
  obtain ⟨u, hwait, hrest⟩ := drives_of_runSeq_wait h
  rw [runSeq_cons_done rfl, runSeq_cons_done rfl, runSeq_cons_done rfl] at hrest
  obtain rfl := Ran.ok.inj hrest
  have before := (drives_pause (Hold.setup.us s.conf) s).trans (drives_setSCL true _)
  have after := (drives_pause (Hold.high.us u.conf) u).trans
    ((drives_setSCL false _).trans (drives_pause (Hold.low.us u.conf) _))
  exact before.trans (hwait.trans after)

/-- A write cell whose first event is done drives SDA in that event only (R107). -/
theorem drives_writeCell {first : Micro} {ms : List Micro} {s u t : State} (hf : fire first s = .done u)
    (h : runSeq (writeCell first ++ ms) s = .ok t) : ∃ v, Drives u v [] ∧ runSeq ms v = .ok t := by
  obtain ⟨v, hcell, hrest⟩ := runSeq_append_eq_ok h
  rw [writeCell, runSeq_cons_done hf] at hcell
  exact ⟨v, drives_clockOut hcell, hrest⟩

/-- The cells of the bits at `is` drive SDA to those bits of the shift register in turn (R110). -/
theorem drives_writeBits (is : List Nibble) {s t : State}
    (h : runSeq (is.flatMap fun i => writeCell (.nextWrite i)) s = .ok t) :
    Drives s t (is.map (srBit s.eng.sr)) := by
  induction is generalizing s with
  | nil =>
    obtain rfl := Ran.ok.inj h
    exact .refl s
  | cons i is ih =>
    obtain ⟨u, hcell, hrest⟩ := drives_writeCell rfl h
    have first : Drives s u [srBit s.eng.sr i] :=
      (drives_setSDA (srBit s.eng.sr i) (s.setEng { s.eng with i := i })).trans hcell
    have hsr : u.eng.sr = s.eng.sr := first.1
    have more := hsr ▸ ih hrest
    exact first.trans more

/-- `WRITE_BYTE_SEQ(x)` drives SDA to the bits of `x`, most significant first (R110). -/
theorem sdaLevels_of_writeByteSeq {x : Byte} {s t : State} (h : runSeq (writeByteSeq x) s = .ok t) :
    ∃ new, t.trace = s.trace ++ new ∧ sdaLevels new = wireBits x := by
  obtain ⟨u, hcell, hrest⟩ := drives_writeCell rfl h
  have first := (drives_setSDA (srBit x 7#4) (s.setEng { s.eng with acc := 0#33, sr := x, i := 7#4 })).trans hcell
  have hsr : u.eng.sr = x := first.1
  have more := hsr ▸ drives_writeBits _ hrest
  obtain ⟨-, bits⟩ := first.trans more
  exact bits

/-- No refusal of the gate is `Ok` (R70). -/
theorem gate_kind_ne_ok {i : Instr} {s : State} {f : Failure} (h : gate i s = some f) : f.kind ≠ .ok := by
  unfold gate at h
  split_ifs at h <;> cases h <;> nofun

/-- Settles O27: a WBYTE that finishes `Ok` passed the gate and performed the whole of `WRITE_BYTE_SEQ`. -/
theorem serializerSendsMostSignificantBitFirst : Obligations.SerializerSendsMostSignificantBitFirst := by
  refine ⟨fun s t x h hok => ?_, by decide, by decide⟩
  rw [exec_eq] at h
  cases hg : gate (.wbyte x) s with
  | some f =>
    rw [runGated_some hg] at h
    cases h
    exact absurd hok (gate_kind_ne_ok hg)
  | none =>
    rw [runGated_none hg] at h
    cases h
    obtain ⟨u, hrun, hfinish⟩ := runJob_plain_ok (s := s.beginCommand) rfl hok
    obtain ⟨new, htrace, hlevels⟩ := sdaLevels_of_writeByteSeq hrun
    exact ⟨new, (congrArg State.trace hfinish).trans htrace, hlevels⟩

end Sys2Proof.Machine

/-! The command word (30_encoding.md R67 to R75): its fields, the row of the opcode map that each command matches, and
the decoder as the inverse of the encoder on the well-formed commands. -/

namespace Sys2Proof

open Laws.EncodedOpcode (opOf_layout)

/-! ### The fields of a word -/

section
variable (rsv b a : Byte) (nib op : Nibble)

theorem opOf_append : opOf (rsv ++ b ++ a ++ nib ++ op) = op := BitVec.extractLsb'_append_eq_right

theorem nibOf_append : nibOf (rsv ++ b ++ a ++ nib ++ op) = nib := by
  rw [nibOf, BitVec.extractLsb'_append_eq_of_le (by decide)]
  exact BitVec.extractLsb'_append_eq_right

theorem aOf_append : aOf (rsv ++ b ++ a ++ nib ++ op) = a := by
  rw [aOf, BitVec.extractLsb'_append_eq_of_le (by decide), BitVec.extractLsb'_append_eq_of_le (by decide)]
  exact BitVec.extractLsb'_append_eq_right

theorem bOf_append : bOf (rsv ++ b ++ a ++ nib ++ op) = b := by
  rw [bOf, BitVec.extractLsb'_append_eq_of_le (by decide), BitVec.extractLsb'_append_eq_of_le (by decide),
    BitVec.extractLsb'_append_eq_of_le (by decide)]
  exact BitVec.extractLsb'_append_eq_right

theorem rsvOf_append : rsvOf (rsv ++ b ++ a ++ nib ++ op) = rsv := by
  rw [rsvOf, BitVec.extractLsb'_append_eq_of_le (by decide), BitVec.extractLsb'_append_eq_of_le (by decide),
    BitVec.extractLsb'_append_eq_of_le (by decide)]
  exact BitVec.extractLsb'_append_eq_left

end

section
variable (op nib : Nibble) (a b : Byte)

@[simp] theorem nibOf_layout : nibOf (layout op nib a b) = nib := nibOf_append _ _ _ _ _
@[simp] theorem aOf_layout : aOf (layout op nib a b) = a := aOf_append _ _ _ _ _
@[simp] theorem bOf_layout : bOf (layout op nib a b) = b := bOf_append _ _ _ _ _
@[simp] theorem rsvOf_layout : rsvOf (layout op nib a b) = 0#8 := rsvOf_append _ _ _ _ _

end

/-- The five fields are the whole word (R69). -/
theorem append_fields (w : Word) : rsvOf w ++ bOf w ++ aOf w ++ nibOf w ++ opOf w = w := by
  simp only [rsvOf, bOf, aOf, nibOf, opOf]
  rw [BitVec.extractLsb'_append_extractLsb'_eq_extractLsb' (by rfl),
    BitVec.extractLsb'_append_extractLsb'_eq_extractLsb' (by rfl),
    BitVec.extractLsb'_append_extractLsb'_eq_extractLsb' (by rfl),
    BitVec.extractLsb'_append_extractLsb'_eq_extractLsb' (by rfl)]
  exact BitVec.extractLsb'_eq_self

theorem word_eq_iff_fields {w v : Word} : w = v ↔
    rsvOf w = rsvOf v ∧ bOf w = bOf v ∧ aOf w = aOf v ∧ nibOf w = nibOf v ∧ opOf w = opOf v := by
  refine ⟨fun h => h ▸ ⟨rfl, rfl, rfl, rfl, rfl⟩, fun ⟨hrsv, hb, ha, hnib, hop⟩ => ?_⟩
  rw [← append_fields w, ← append_fields v, hrsv, hb, ha, hnib, hop]

/-! ### The rows of the opcode map -/

/-- The row of the opcode map whose OP is `op` and whose mask tests, beside OP and RSV, the bits `nib`, `a` and `b` of
NIB, A and B (R71). -/
def rowTesting (op nib : Nibble) (a b : Byte) : OpcodeRow :=
  ⟨op, layout op 0#4 0#8 0#8, 0xFF#8 ++ b ++ a ++ nib ++ 0xF#4⟩

/-- The row of a command (R71). -/
def Instr.row : Instr → OpcodeRow
  | .wbit _ => rowTesting 0x5#4 0xF#4 0xFE#8 0xFF#8
  | .sack _ => rowTesting 0xA#4 0xF#4 0xFE#8 0xFF#8
  | .wbyte _ => rowTesting 0x7#4 0xF#4 0x00#8 0xFF#8
  | .rframe _ => rowTesting 0xB#4 0x0#4 0xFF#8 0xFF#8
  | .wframe _ _ _ => rowTesting 0xC#4 0x0#4 0x00#8 0x00#8
  | i => rowTesting i.opcode 0xF#4 0xFF#8 0xFF#8

/-- The word has the row's value on the bits that the row tests (R70). -/
def OpcodeRow.Matches (r : OpcodeRow) (w : Word) : Prop := w &&& r.mask = r.value

theorem byte_and_allOnes (x : Byte) : x &&& 0xFF#8 = x := BitVec.and_allOnes

theorem nibble_and_allOnes (n : Nibble) : n &&& 0xF#4 = n := BitVec.and_allOnes

/-- A word matches a row when its OP is the row's and the other tested bits are 0 (R70). -/
theorem matches_rowTesting_iff {w : Word} {op nib : Nibble} {a b : Byte} : (rowTesting op nib a b).Matches w ↔
    rsvOf w = 0#8 ∧ bOf w &&& b = 0#8 ∧ aOf w &&& a = 0#8 ∧ nibOf w &&& nib = 0#4 ∧ opOf w = op := by
  have fields_and (m : Word) : rsvOf (w &&& m) = rsvOf w &&& rsvOf m ∧ bOf (w &&& m) = bOf w &&& bOf m ∧
      aOf (w &&& m) = aOf w &&& aOf m ∧ nibOf (w &&& m) = nibOf w &&& nibOf m ∧
      opOf (w &&& m) = opOf w &&& opOf m :=
    ⟨BitVec.extractLsb'_and, BitVec.extractLsb'_and, BitVec.extractLsb'_and, BitVec.extractLsb'_and,
      BitVec.extractLsb'_and⟩
  rw [OpcodeRow.Matches, word_eq_iff_fields]
  simp only [fields_and, rowTesting, layout, rsvOf_append, bOf_append, aOf_append, nibOf_append, opOf_append,
    byte_and_allOnes, nibble_and_allOnes]

/-- The opcode map has one row for each opcode that is not reserved (R71, R73). -/
theorem rowFor_eq_none_iff {w : Word} : rowFor w = none ↔ opOf w = 0x0#4 ∨ opOf w = 0xF#4 := by
  have rows : ∀ op : Nibble, (opcodeRows.find? fun r => r.op == op) = none ↔ op = 0x0#4 ∨ op = 0xF#4 := by decide
  exact rows (opOf w)

/-- The operands read from a word are those of a command with its opcode (R72). -/
theorem opcode_of_instrOf {w : Word} {i : Instr} (h : instrOf w = some i) : opOf w = i.opcode := by
  unfold instrOf at h
  split at h <;> cases h <;> exact BitVec.eq_of_toNat_eq ‹_›

/-- No operands are read from a word of a reserved opcode, and from no other (R73). -/
theorem instrOf_eq_none_iff {w : Word} : instrOf w = none ↔ opOf w = 0x0#4 ∨ opOf w = 0xF#4 := by
  have hop := (opOf w).isLt
  unfold instrOf
  simp only [← BitVec.toNat_inj, BitVec.toNat_ofNat]
  split
  case h_15 =>
    simp only [imp_false, true_iff] at *
    omega
  all_goals simp only [reduceCtorEq, false_iff]; omega

/-- The decoder tests the row of the command whose operands it reads (R70). -/
theorem rowFor_of_instrOf {w : Word} {i : Instr} (h : instrOf w = some i) : rowFor w = some i.row := by
  rw [rowFor, opcode_of_instrOf h]
  cases i <;> rfl

/-- The decoder tests the row that a word matches, if there is one: every row tests the whole of OP. -/
theorem rowFor_of_matches {w : Word} {r : OpcodeRow} (hr : r ∈ opcodeRows) (h : r.Matches w) : rowFor w = some r := by
  have tests_op : ∀ r ∈ opcodeRows, opOf r.mask = BitVec.allOnes 4 ∧
      opcodeRows.find? (fun r' => r'.op == opOf r.value) = some r := by decide
  obtain ⟨hmask, hfind⟩ := tests_op r hr
  have hop : opOf w = opOf r.value := by
    rw [← h, opOf, opOf, BitVec.extractLsb'_and]
    exact (hmask ▸ BitVec.and_allOnes).symm
  rwa [rowFor, hop]

/-! ### The decoder -/

/-- A word of a reserved opcode is refused; any other word is read as the command of its opcode, and refused when a bit
outside the command's fields is 1 (R70, R73). -/
theorem decode_cases (w : Word) :
    (opOf w = 0x0#4 ∨ opOf w = 0xF#4) ∧ rowFor w = none ∧ decode w = .error .reservedOpcode ∨
      ∃ i, instrOf w = some i ∧ rowFor w = some i.row ∧
        (i.row.Matches w ∧ decode w = .ok i ∨ ¬ i.row.Matches w ∧ decode w = .error .unusedBits) := by
  cases hi : instrOf w with
  | none =>
    have hop := instrOf_eq_none_iff.mp hi
    have hrow := rowFor_eq_none_iff.mpr hop
    exact .inl ⟨hop, hrow, by rw [decode, hrow]⟩
  | some i =>
    have hrow := rowFor_of_instrOf hi
    refine .inr ⟨i, rfl, hrow, ?_⟩
    by_cases hm : i.row.Matches w
    · exact .inl ⟨hm, by rw [decode, hrow, hi]; exact if_pos hm⟩
    · exact .inr ⟨hm, by rw [decode, hrow]; exact if_neg hm⟩

theorem decode_eq_ok_iff {w : Word} {i : Instr} : decode w = .ok i ↔ instrOf w = some i ∧ i.row.Matches w := by
  obtain ⟨hop, -, hdec⟩ | ⟨j, hj, -, ⟨hm, hdec⟩ | ⟨hm, hdec⟩⟩ := decode_cases w
  · simp [hdec, instrOf_eq_none_iff.mpr hop]
  · simp only [hdec, hj, Except.ok.injEq, Option.some.injEq, iff_self_and]
    exact fun h => h ▸ hm
  · simp only [hdec, hj, reduceCtorEq, Option.some.injEq, false_iff, not_and]
    exact fun h => h ▸ hm

/-- A word that matches the row of the command read from it has no bit set outside the command's fields, so it is the
command's own word (R70, R72). -/
theorem eq_encode_of_instrOf {w : Word} {i : Instr} (hi : instrOf w = some i) (hm : i.row.Matches w) :
    i.wellFormed = true ∧ w = encode i := by
  rw [word_eq_iff_fields]
  unfold instrOf at hi
  split at hi <;> cases hi <;>
    simp only [Instr.row, Instr.opcode, matches_rowTesting_iff, byte_and_allOnes, nibble_and_allOnes] at hm <;>
    simp [Instr.wellFormed, oneBitOperand, encode, opOf_layout, hm]

/-- The word of a well-formed command matches the command's row, and its operands are read back from it (R71, R75). -/
theorem instrOf_encode {i : Instr} (h : i.wellFormed = true) :
    instrOf (encode i) = some i ∧ i.row.Matches (encode i) := by
  cases i with
  | wbit a | sack a =>
    have hbit : a &&& 0xFE#8 = 0#8 := by simpa [Instr.wellFormed, oneBitOperand] using h
    simp [Instr.row, matches_rowTesting_iff, instrOf, encode, opOf_layout, hbit]
  | _ => simp [Instr.row, matches_rowTesting_iff, instrOf, encode, opOf_layout, Instr.opcode]

/-- Settles O1: the operands read from the command's word are the command's, and its row is the one tested. -/
theorem decodeInvertsEncode : Obligations.DecodeInvertsEncode :=
  fun _ h => decode_eq_ok_iff.mpr (instrOf_encode h)

/-- Settles O2: the row tested leaves no bit of the word to differ from the command's own word. -/
theorem decodedWordIsItsEncoding : Obligations.DecodedWordIsItsEncoding := by
  intro w i h
  obtain ⟨hi, hm⟩ := decode_eq_ok_iff.mp h
  obtain ⟨hwf, hw⟩ := eq_encode_of_instrOf hi hm
  exact ⟨hwf, hw.symm⟩

/-- The opcode map has a row that the word matches exactly when the word matches the row the decoder tests. -/
theorem exists_matches_iff {w : Word} {i : Instr} (hrow : rowFor w = some i.row) :
    (∃ r ∈ opcodeRows, w &&& r.mask = r.value) ↔ i.row.Matches w := by
  refine ⟨fun ⟨r, hr, hm⟩ => ?_, fun hm => ⟨i.row, List.mem_of_find?_eq_some hrow, hm⟩⟩
  obtain rfl : r = i.row := Option.some.inj ((rowFor_of_matches hr hm).symm.trans hrow)
  exact hm

/-- Settles O3: the one row that a word can match is the row the decoder tests. -/
theorem decoderFollowsOpcodeMap : Obligations.DecoderFollowsOpcodeMap := by
  intro w
  have no_match_iff : (∀ r ∈ opcodeRows, w &&& r.mask ≠ r.value) ↔ ¬ ∃ r ∈ opcodeRows, w &&& r.mask = r.value := by
    simp
  rw [no_match_iff]
  obtain ⟨hop, hrow, hdec⟩ | ⟨i, hi, hrow, hdec⟩ := decode_cases w
  · have no_match : ¬ ∃ r ∈ opcodeRows, w &&& r.mask = r.value := fun ⟨r, hr, hm⟩ => by
      cases hrow.symm.trans (rowFor_of_matches hr hm)
    simp only [hdec, hop, no_match, ← not_or]
    simp
  · have not_reserved : ¬ (opOf w = 0x0#4 ∨ opOf w = 0xF#4) := by
      rw [← instrOf_eq_none_iff, hi]
      nofun
    rw [exists_matches_iff hrow]
    obtain ⟨hm, hdec⟩ | ⟨hm, hdec⟩ := hdec <;> simp only [hdec, hm, not_reserved, ← not_or] <;> simp

/-- Settles O4: each word is the one that the encoder gives for its command. -/
theorem workedWordsDecode : Obligations.WorkedWordsDecode :=
  ⟨decodeInvertsEncode .config rfl, decodeInvertsEncode .start rfl, decodeInvertsEncode (.wbit 1#8) rfl,
    decodeInvertsEncode (.wbyte 0x71#8) rfl, decodeInvertsEncode (.sack 1#8) rfl,
    decodeInvertsEncode (.rframe 0xF#4) rfl, decodeInvertsEncode (.wframe 0x1#4 0x10#8 0x55#8) rfl,
    decodeInvertsEncode .recover rfl⟩

end Sys2Proof

/-! The control byte, the run turn, the refusals of the gate (30_encoding.md R70, R80), and primitive commands that finish
`Ok`. -/

namespace Sys2Proof.Machine

/-! ### The control byte -/

/-- The fields of the control byte side by side: the nibble, three bits of the device address, and R/W (R80). -/
theorem controlByte_eq_append (nib : Nibble) (dev : Byte) (rw : Bool) :
    controlByte nib dev rw = nib ++ dev.extractLsb' 0 3 ++ flagBit rw := by
  refine BitVec.eq_of_getLsbD_eq fun i hi => ?_
  rw [BitVec.getLsbD_append, BitVec.getLsbD_append]
  cases rw <;> interval_cases i <;> simp [controlByte, flagBit]

/-- Settles O29: a legal device address fits in the three bits that the control byte has for it. -/
theorem controlByteLayout : Obligations.ControlByteLayout := by
  refine ⟨fun nib dev rw hdev => ?_, by decide, by decide⟩
  have hdev3 : (dev.extractLsb' 0 3).toNat = dev.toNat := by
    rw [BitVec.extractLsb'_toNat, Nat.shiftRight_zero, Nat.mod_eq_of_lt (by omega)]
  have hrw : rw.toNat = if rw then 1 else 0 := by cases rw <;> rfl
  rw [controlByte_eq_append, toNat_append_eq_add, toNat_append_eq_add, flagBit_toNat, hdev3, hrw]
  omega

/-! ### The run turn of a decoded word -/

/-- At an accepted word that decodes to `i`, a run turn is the whole of `exec i` (R70, log 7). -/
theorem runTurn_decode {s : State} {i : Instr} (hbusy : s.status.busy = true) (hphase : s.eng.phase = .decode)
    (hdec : decode s.cmd = .ok i) : runTurn s = exec i s := by
  simp only [runTurn, hbusy, hphase, State.fetch, hdec, if_true]

/-- Settles O5: both steps are run turns, which decode the word in CMD. -/
theorem stepRunsDecodedCommand : Obligations.StepRunsDecodedCommand := by
  intro s i hbusy hphase hdec
  refine ⟨fun hsched => ?_, fun ts hsched => ?_⟩
  · rw [step, nextTurn, hsched]
    exact runTurn_decode hbusy hphase hdec
  · rw [step, nextTurn, hsched]
    exact runTurn_decode (s := { s with sched := ts }) hbusy hphase hdec

/-! ### What the gate refuses -/

/-- The one-bit operands that a word can have are 0 and 1 (R71). -/
theorem oneBitOperand_iff (a : Byte) : oneBitOperand a = true ↔ a.toNat < 2 := by
  revert a; decide +kernel

/-- An ill-formed operand is refused first (R70, log 17). -/
theorem gate_malformed {i : Instr} (s : State) (hw : i.wellFormed = false) :
    gate i s = some ⟨.invalidParam, s.cmd⟩ := by
  simp [gate, hw]

/-- CONFIG of a configured block is refused (R70). -/
theorem gate_config_again {s : State} (hc : s.status.cfg = true) :
    gate .config s = some ⟨.alreadyInitialized, 0#32⟩ := by
  simp [gate, Instr.wellFormed, hc]

/-- A well-formed command that needs a configured block is refused on another (R70). -/
theorem gate_unconfigured {i : Instr} {s : State} (hw : i.wellFormed = true) (hn : needsConfigured i = true)
    (hc : s.status.cfg = false) : gate i s = some ⟨.notInitialized, 0#32⟩ := by
  simp [gate, hw, hn, hc]

theorem needsConfigured_of_ne {i : Instr} (hconfig : i ≠ .config) (hdeconfig : i ≠ .deconfig) :
    needsConfigured i = true := by
  cases i with
  | config => exact absurd rfl hconfig
  | deconfig => exact absurd rfl hdeconfig
  | _ => rfl

/-- A refused command is its `finish` and nothing more. -/
theorem exec_of_gate_some {i : Instr} {s : State} {k : Kind} {d : Word} (h : gate i s = some ⟨k, d⟩) :
    exec i s = .next { s.withRecord k d {} with eng := { s.eng with phase := .idle, err := none } } := by
  rw [exec_eq, runGated_some h, finish_eq]

/-- Settles O7: each refusal is the answer of the gate to one of three exclusive cases. -/
theorem gateRefusesInOrder : Obligations.GateRefusesInOrder := by
  intro s
  refine ⟨_, Engine.settled_finish s.eng, Engine.keeps_finish s.eng, fun a ha => ?_, fun hcfg => ?_,
    fun hcfg i hwf hconfig hdeconfig => ?_⟩
  · have malformed : oneBitOperand a = false := by
      rw [← Bool.not_eq_true, oneBitOperand_iff]
      omega
    exact ⟨exec_of_gate_some (gate_malformed s malformed), exec_of_gate_some (gate_malformed s malformed)⟩
  · exact exec_of_gate_some (gate_config_again hcfg)
  · exact exec_of_gate_some (gate_unconfigured hwf (needsConfigured_of_ne hconfig hdeconfig) hcfg)

/-! ### Primitive commands that finish `Ok` -/

theorem complete_plain {s : State} (h : s.eng.err = none) : complete .plain s = finish .ok 0#32 {} s :=
  concludeWith_none h

theorem complete_received {s : State} (h : s.eng.err = none) :
    complete .received s = finish .ok 0#32 { data := s.eng.sr } s :=
  concludeWith_none h

theorem complete_ackFlag {s : State} (h : s.eng.err = none) :
    complete .ackFlag s = finish .ok 0#32 { data := if srBit s.eng.sr 0#4 then 0#8 else 1#8 } s :=
  concludeWith_none h

/-- Settles O19: RACK is one read cell, whose bit is then in `sr`. -/
theorem rackCompletes : Obligations.RackCompletes := by
  intro s k v rest rest' hcfg hfits hscl hsda
  refine ⟨{ s.eng with
    phase := .idle, err := none, n := BitVec.ofNat 33 k, acc := BitVec.ofNat 33 k, sr := if v then 1#8 else 0#8,
    i := 0#4 }, ⟨rfl, rfl, rfl, rfl, rfl, rfl⟩, ⟨rfl, rfl, rfl, rfl⟩, ?_⟩
  have hrun := runSeq_readBit (s := s.beginCommand) (last := .hold .low) (ms := []) (k := k)
    (by simpa [stretched] using hscl) hsda hfits
  rw [List.append_nil, runSeq_cons_done rfl] at hrun
  rw [exec_eq, runGated_none (gate_none rfl (by decide) hcfg)]
  refine congrArg _ ((runJob_ok hrun).trans ((complete_ackFlag rfl).trans ?_))
  have hack : srBit (if v then 1#8 else 0#8) 0#4 = v := by cases v <;> rfl
  have htrace : (readCellTrace s.conf k v).dropLast ++ [LineEvent.delay s.conf.tLow.toNat] =
      readCellTrace s.conf k v := by
    rw [readCellTrace_dropLast]
    simp [readCellTrace]
  simp [finish, State.withRecord, State.pause, State.record, State.beginCommand, State.setEng, Hold.us, hack, htrace]
end Sys2Proof.Machine

/-! The line events that a list of engine steps can perform, on every draw (40_framing_engine.md R91, R95), and what
they say of the two wires (30_encoding.md R77; 40_framing_engine.md R104). -/

namespace Sys2Proof.Machine

/-! ### The line events of an engine step and of a sequence of them -/

/-- The event is one of a bounded wait: a sample of SCL or a poll delay (R93). -/
def LineEvent.OfWait (ev : LineEvent) : Prop := (∃ v, ev = .sampleSCL v) ∨ ∃ us, ev = .delay us

/-- The line events that a sub-operation can perform: one, but for a bounded wait (R91, R93). -/
def Micro.Performs : Micro → List LineEvent → Prop
  | .driveSCL v, new => new = [.driveSCL v]
  | .releaseSCL _, new => new = [.driveSCL true]
  | .driveSDA v, new => new = [.driveSDA v]
  | .openWrite _ _, new | .nextWrite _, new | .openRead _, new | .nextRead _, new => ∃ v, new = [.driveSDA v]
  | .sampleBit, new | .senseSDA, new => ∃ v, new = [.sampleSDA v]
  | .senseSCL, new => ∃ v, new = [.sampleSCL v]
  | .hold _, new | .closeAck _ _, new | .closeByte _, new => ∃ us, new = [.delay us]
  | .wait _, new | .pollDelay _, new => ∀ ev ∈ new, ev.OfWait

/-- The line events that a sequence can perform: those of its sub-operations in turn, up to any of them (R95). -/
def SeqPerforms : List Micro → List LineEvent → Prop
  | [], new => new = []
  | m :: ms, new => new = [] ∨ ∃ xs ys, new = xs ++ ys ∧ m.Performs xs ∧ SeqPerforms ms ys

theorem SeqPerforms.none (ms : List Micro) : SeqPerforms ms [] := by
  cases ms with
  | nil => rfl
  | cons m ms => exact .inl rfl

/-- A bounded wait, begun with its sample or with its poll delay, samples SCL and delays, whatever its outcome (R93). -/
theorem runMicro_wait_performs (f : FailAs) (fuel : Nat) : ∀ s : State,
    (∃ new, (runMicro fuel (.wait f) s).state.trace = s.trace ++ new ∧ ∀ ev ∈ new, ev.OfWait) ∧
      ∃ new, (runMicro fuel (.pollDelay f) s).state.trace = s.trace ++ new ∧ ∀ ev ∈ new, ev.OfWait := by
  induction fuel with
  | zero => exact fun s => ⟨⟨[], by simp [runMicro, Ran.state], by simp⟩, ⟨[], by simp [runMicro, Ran.state], by simp⟩⟩
  | succ fuel ih =>
    intro s
    constructor
    · obtain ⟨v, e, h | ⟨x, h⟩ | ⟨-, h⟩⟩ := fire_wait_cases f s <;> simp only [runMicro, h]
      · exact ⟨[.sampleSCL v], rfl, by simp [LineEvent.OfWait]⟩
      · exact ⟨[.sampleSCL v], State.keepFailure_trace _ _, by simp [LineEvent.OfWait]⟩
      · obtain ⟨-, new, ht, hnew⟩ := ih { s with env := e, trace := s.trace ++ [.sampleSCL v] }
        exact ⟨.sampleSCL v :: new, by simp [ht], by simpa [LineEvent.OfWait] using hnew⟩
    · obtain ⟨x, h⟩ | h := fire_pollDelay_cases f s <;> simp only [runMicro, h]
      · exact ⟨[.delay 1], State.keepFailure_trace _ _, by simp [LineEvent.OfWait]⟩
      · obtain ⟨⟨new, ht, hnew⟩, -⟩ := ih { s with trace := s.trace ++ [.delay 1], eng := s.eng.tick }
        exact ⟨.delay 1 :: new, by simp [ht], by simpa [LineEvent.OfWait] using hnew⟩

/-- A sub-operation performs the line events of its kind, whatever its outcome (R91). -/
theorem runMicro_performs (m : Micro) (s : State) :
    ∃ new, (runMicro (waitFuel s) m s).state.trace = s.trace ++ new ∧ m.Performs new := by
  cases m with
  | wait f => exact (runMicro_wait_performs f _ s).1
  | pollDelay f => exact (runMicro_wait_performs f _ s).2
  | driveSCL v | releaseSCL v | driveSDA v => exact ⟨_, rfl, rfl⟩
  | hold h | openWrite x i | nextWrite i | openRead i | nextRead i => exact ⟨_, rfl, _, rfl⟩
  | closeByte dst => cases dst <;> exact ⟨_, rfl, _, rfl⟩
  | closeAck k counted =>
    refine ⟨[.delay (Hold.low.us s.conf)], ?_, _, rfl⟩
    simp only [waitFuel_pos, runMicro, fire, endAck]
    split_ifs <;> simp [Ran.state]
  | sampleBit | senseSDA =>
    obtain ⟨v, e, h⟩ := sampleSDA_spec s
    exact ⟨[.sampleSDA v], by simp [waitFuel_pos, runMicro, fire, h, Ran.state], v, rfl⟩
  | senseSCL =>
    obtain ⟨v, e, h⟩ := sampleSCL_spec s
    exact ⟨[.sampleSCL v], by simp [waitFuel_pos, runMicro, fire, h, Ran.state], v, rfl⟩

/-- A sequence performs line events of its sub-operations in turn, whatever its outcome (R91, R95). -/
theorem runSeq_performs (ms : List Micro) (s : State) :
    ∃ new, (runSeq ms s).state.trace = s.trace ++ new ∧ SeqPerforms ms new := by
  induction ms generalizing s with
  | nil => exact ⟨[], by simp [runSeq, Ran.state], rfl⟩
  | cons m ms ih =>
    obtain ⟨xs, ht, hm⟩ := runMicro_performs m s
    cases hrun : runMicro (waitFuel s) m s with
    | ok t =>
      rw [hrun] at ht
      obtain ⟨ys, hu, hms⟩ := ih t
      rw [runSeq_cons_ok hrun]
      exact ⟨xs ++ ys, by rw [hu, show t.trace = _ from ht, List.append_assoc], .inr ⟨xs, ys, rfl, hm, hms⟩⟩
    | failed t =>
      rw [hrun] at ht
      rw [runSeq_cons_stopped hrun]
      exact ⟨xs, ht, .inr ⟨xs, [], (List.append_nil xs).symm, hm, .none ms⟩⟩

/-! ### SDA is driven while SCL is driven low -/

/-- Where a sub-operation leaves SCL, which was driven to `scl`; `none` where it would drive SDA with SCL high (R77). -/
def Micro.sclAfter (scl : Level) : Micro → Option Level
  | .driveSCL v => some v
  | .releaseSCL _ => some true
  | .driveSDA _ | .openWrite _ _ | .nextWrite _ | .openRead _ | .nextRead _ => if scl then none else some false
  | _ => some scl

theorem sdaDrivenLow_append_of_wait (scl : Level) {xs : List LineEvent} (h : ∀ ev ∈ xs, ev.OfWait)
    (ys : List LineEvent) : sdaDrivenLow scl (xs ++ ys) = sdaDrivenLow scl ys := by
  induction xs with
  | nil => rfl
  | cons ev xs ih =>
    obtain ⟨hev, hxs⟩ := List.forall_mem_cons.mp h
    obtain ⟨v, rfl⟩ | ⟨us, rfl⟩ := hev <;> exact ih hxs

theorem Micro.Performs.sdaDrivenLow_append {m : Micro} {xs : List LineEvent} (h : m.Performs xs) {scl scl' : Level}
    (hscl : m.sclAfter scl = some scl') (ys : List LineEvent) : sdaDrivenLow scl (xs ++ ys) = sdaDrivenLow scl' ys := by
  cases m with
  | wait f | pollDelay f =>
    obtain rfl := Option.some.inj hscl
    exact sdaDrivenLow_append_of_wait scl h ys
  | driveSCL v | releaseSCL v =>
    obtain rfl := Option.some.inj hscl
    obtain rfl : xs = _ := h
    rfl
  | driveSDA v =>
    obtain rfl : xs = _ := h
    cases scl <;> cases hscl
    rfl
  | openWrite x i | nextWrite i | openRead i | nextRead i =>
    obtain ⟨v, rfl⟩ := h
    cases scl <;> cases hscl
    rfl
  | _ =>
    obtain rfl := Option.some.inj hscl
    obtain ⟨v, rfl⟩ := h
    rfl

/-- A sequence whose drives of SDA stand where it has SCL driven low drives SDA only there, on every draw (R77). -/
theorem SeqPerforms.sdaDrivenLow {ms : List Micro} {new : List LineEvent} (h : SeqPerforms ms new) {scl : Level}
    (hscl : (ms.foldlM Micro.sclAfter scl).isSome = true) : sdaDrivenLow scl new = true := by
  induction ms generalizing scl new with
  | nil =>
    obtain rfl : new = [] := h
    rfl
  | cons m ms ih =>
    obtain rfl | ⟨xs, ys, rfl, hm, hys⟩ := h
    · rfl
    rw [List.foldlM_cons] at hscl
    cases hl : m.sclAfter scl with
    | none => simp [hl] at hscl
    | some scl' =>
      rw [hm.sdaDrivenLow_append hl]
      exact ih hys (by simpa [hl] using hscl)

/-! ### Sending never samples SDA -/

/-- The sub-operation samples SDA. -/
def Micro.samplesSDA : Micro → Bool
  | .sampleBit | .senseSDA => true
  | _ => false

theorem Micro.Performs.isSampleSDA {m : Micro} {xs : List LineEvent} (h : m.Performs xs) (hm : m.samplesSDA = false) :
    ∀ ev ∈ xs, ev.isSampleSDA = false := by
  cases m with
  | sampleBit | senseSDA => cases hm
  | wait f | pollDelay f =>
    intro ev hev
    obtain ⟨v, rfl⟩ | ⟨us, rfl⟩ := h ev hev <;> rfl
  | driveSCL v | releaseSCL v | driveSDA v =>
    obtain rfl : xs = _ := h
    simp [LineEvent.isSampleSDA]
  | _ =>
    obtain ⟨v, rfl⟩ := h
    simp [LineEvent.isSampleSDA]

/-- A sequence without a sample of SDA performs none, on every draw (R104). -/
theorem SeqPerforms.isSampleSDA {ms : List Micro} {new : List LineEvent} (h : SeqPerforms ms new)
    (hms : ms.any Micro.samplesSDA = false) : ∀ ev ∈ new, ev.isSampleSDA = false := by
  induction ms generalizing new with
  | nil =>
    obtain rfl : new = [] := h
    simp
  | cons m ms ih =>
    obtain rfl | ⟨xs, ys, rfl, hm, hys⟩ := h
    · simp
    obtain ⟨hfirst, hrest⟩ := Bool.or_eq_false_iff.mp hms
    exact List.forall_mem_append.mpr ⟨hm.isSampleSDA hfirst, ih hys hrest⟩

/-! ### The events of a command -/

/-- The `finish` of a command adds nothing to the trace. -/
theorem complete_trace (p : Report) (s : State) : (complete p s).trace = s.trace := by
  obtain ⟨k, d, r, c, h, -⟩ := complete_spec p s
  rw [h, finish_trace, State.setCfg_trace]

/-- A command performs line events of its two lists, one after the other; none when it is refused. -/
theorem exec_performs {i : Instr} {s t : State} (h : exec i s = .next t) :
    ∃ xs ys, t.trace = s.trace ++ (xs ++ ys) ∧ SeqPerforms (commandOf i s).2.todo xs ∧
      SeqPerforms (commandOf i s).2.after ys := by
  rw [exec_eq] at h
  cases hg : gate i s with
  | some f =>
    rw [runGated_some hg] at h
    cases h
    exact ⟨[], [], by simp, .none _, .none _⟩
  | none =>
    rw [runGated_none hg] at h
    cases h
    obtain ⟨e, hbegin, -⟩ := commandOf_spec i s
    obtain ⟨xs, ht, hxs⟩ := runSeq_performs (commandOf i s).2.todo (commandOf i s).1
    obtain ⟨ys, hu, hys⟩ := runSeq_performs (commandOf i s).2.after
      (runSeq (commandOf i s).2.todo (commandOf i s).1).state
    refine ⟨xs, ys, ?_, hxs, hys⟩
    rw [runJob, complete_trace, hu, ht, hbegin, State.setEng_trace, List.append_assoc]

/-- Settles O25: each command's list of line events says where it drives SDA and whether it samples it, and none of
these commands has an event after a failure. -/
theorem wireDiscipline : Obligations.WireDiscipline := by
  intro s t i h
  obtain ⟨xs, ys, ht, hxs, hys⟩ := exec_performs h
  refine ⟨xs ++ ys, ht, fun _ hi => ?_, fun hi => ?_⟩
  · have job : (commandOf i s).2.after = [] ∧ ((commandOf i s).2.todo.foldlM Micro.sclAfter false).isSome = true := by
      obtain ⟨a, rfl⟩ | rfl | ⟨x, rfl⟩ | rfl | rfl | ⟨a, rfl⟩ := hi <;> exact ⟨rfl, rfl⟩
    obtain ⟨hafter, htodo⟩ := job
    obtain rfl : ys = [] := by rwa [hafter] at hys
    rw [List.append_nil]
    exact hxs.sdaDrivenLow htodo
  · have job : (commandOf i s).2.after = [] ∧ (commandOf i s).2.todo.any Micro.samplesSDA = false := by
      obtain rfl | rfl | ⟨a, rfl⟩ | ⟨x, rfl⟩ | ⟨a, rfl⟩ := hi <;> exact ⟨rfl, rfl⟩
    obtain ⟨hafter, htodo⟩ := job
    obtain rfl : ys = [] := by rwa [hafter] at hys
    rw [List.append_nil]
    exact hxs.isSampleSDA htodo

end Sys2Proof.Machine

/-! RFRAME and the primitive commands of RFRAME_RAW perform the same line events (30_encoding.md R76): what an engine
step does on the wire depends on the part of the state that `State.wire` names, which is the same in both. -/

namespace Sys2Proof.Machine

/-! ### The part of the state that the line events of a byte depend on -/

/-- The lines, the trace, the draws, the configuration, and the engine's counters, shift register and bit index. -/
structure WireView where
  scl : Level
  sda : Level
  trace : List LineEvent
  env : Env
  conf : Conf
  n : Count
  acc : Count
  sr : Byte
  i : Nibble

def State.wire (s : State) : WireView :=
  ⟨s.sclO, s.sdaO, s.trace, s.env, s.conf, s.eng.n, s.eng.acc, s.eng.sr, s.eng.i⟩

/-- The line event `ev` at the end of the trace. -/
def WireView.record (w : WireView) (ev : LineEvent) : WireView := { w with trace := w.trace ++ [ev] }

/-- A sample is determined by the line, the store and the count of free draws (R29). -/
theorem Sampled.unique {free : Nat → Level} {forced : Bool} {store xs ys : List Level} {n k l : Nat} {v w : Level}
    (h : Sampled free forced store xs n k v) (h' : Sampled free forced store ys n l w) : v = w ∧ xs = ys ∧ k = l := by
  cases forced <;> cases store <;> simp only [Sampled, if_true, Bool.false_eq_true, if_false] at h h' <;>
    obtain ⟨rfl, rfl, rfl⟩ := h <;> obtain ⟨rfl, rfl, rfl⟩ := h' <;> exact ⟨rfl, rfl, rfl⟩

/-- States with the same wire take the same sample of SCL. -/
theorem sampleSCL_of_wire {s t : State} (h : s.wire = t.wire) : ∃ v e,
    sampleSCL s = (v, { s with env := e, trace := s.trace ++ [.sampleSCL v] }) ∧
      sampleSCL t = (v, { t with env := e, trace := t.trace ++ [.sampleSCL v] }) := by
  have hscl : s.sclO = t.sclO := congrArg WireView.scl h
  have henv : s.env = t.env := congrArg WireView.env h
  obtain ⟨v, xs, n, hv, hs⟩ := levelSCL_sampled s
  obtain ⟨w, ys, k, hw, ht⟩ := levelSCL_sampled t
  rw [hscl, henv] at hv
  obtain ⟨rfl, rfl, rfl⟩ := hv.unique hw
  exact ⟨v, { t.env with scl := xs, drawn := n }, by simp [sampleSCL, hs, henv, State.record],
    by simp [sampleSCL, ht, State.record]⟩

/-- States with the same wire take the same sample of SDA. -/
theorem sampleSDA_of_wire {s t : State} (h : s.wire = t.wire) : ∃ v e,
    sampleSDA s = (v, { s with env := e, trace := s.trace ++ [.sampleSDA v] }) ∧
      sampleSDA t = (v, { t with env := e, trace := t.trace ++ [.sampleSDA v] }) := by
  have hsda : s.sdaO = t.sdaO := congrArg WireView.sda h
  have henv : s.env = t.env := congrArg WireView.env h
  obtain ⟨v, xs, n, hv, hs⟩ := levelSDA_sampled s
  obtain ⟨w, ys, k, hw, ht⟩ := levelSDA_sampled t
  rw [hsda, henv] at hv
  obtain ⟨rfl, rfl, rfl⟩ := hv.unique hw
  exact ⟨v, { t.env with sda := xs, drawn := n }, by simp [sampleSDA, hs, henv, State.record],
    by simp [sampleSDA, ht, State.record]⟩

/-! ### An engine step of a frame and of a primitive command -/

/-- The sub-operation that a primitive command performs in the place of a frame's: a frame closes a byte or an ACK cycle
with the same `Delay(T_LOW)` as a primitive command, which then keeps no frame byte and refuses no NACK. -/
def Micro.asPrimitive : Micro → Micro
  | .closeAck _ _ | .closeByte _ => .hold .low
  | m => m

/-- Where the first goes on, the second goes on in the same way and with the same wire. -/
def Fired.MimickedBy : Fired → Fired → Prop
  | .done s, r => ∃ t, r = .done t ∧ s.wire = t.wire
  | .again m s, r => ∃ t, r = .again m.asPrimitive t ∧ s.wire = t.wire
  | .failed _, _ => True

theorem poll_mimicked (f : FailAs) {s t : State} (h : s.wire = t.wire) : (poll f s).MimickedBy (poll f t) := by
  obtain ⟨v, e, hs, ht⟩ := sampleSCL_of_wire h
  have hn : s.eng.n = t.eng.n := congrArg WireView.n h
  have hconf : s.conf = t.conf := congrArg WireView.conf h
  simp only [poll, hs, ht]
  cases v with
  | true =>
    exact ⟨_, rfl, congrArg (fun w : WireView => { w.record (.sampleSCL true) with env := e, acc := w.acc + w.n }) h⟩
  | false =>
    simp only [hn, hconf]
    split
    · trivial
    · exact ⟨_, rfl, congrArg (fun w : WireView => { w.record (.sampleSCL false) with env := e, conf := t.conf }) h⟩

theorem pollPause_mimicked (f : FailAs) {s t : State} (h : s.wire = t.wire) :
    (pollPause f s).MimickedBy (pollPause f t) := by
  have hn : s.eng.n = t.eng.n := congrArg WireView.n h
  have hacc : s.eng.acc = t.eng.acc := congrArg WireView.acc h
  have hconf : s.conf = t.conf := congrArg WireView.conf h
  simp only [pollPause, State.setEng_eng, State.setEng_conf, State.pause_eng, State.pause_conf, hn, hacc, hconf]
  split
  case isTrue => trivial
  case isFalse hover =>
    exact ⟨_, if_neg hover, congrArg (fun w : WireView =>
      { w.record (.delay Config.pollUs.toNat) with n := t.eng.n + Config.pollUs, acc := t.eng.acc }) h⟩

theorem pause_wire {s t : State} (h : s.wire = t.wire) (p : Hold) :
    (s.pause (p.us s.conf)).wire = (t.pause (p.us t.conf)).wire :=
  congrArg (fun w : WireView => w.record (.delay (p.us w.conf))) h

/-- ONE ENGINE STEP depends on the wire only, and leaves the same wire, in a frame as in a primitive command. -/
theorem fire_mimicked (m : Micro) {s t : State} (h : s.wire = t.wire) :
    (fire m s).MimickedBy (fire m.asPrimitive t) := by
  cases m with
  | wait f => exact poll_mimicked f h
  | pollDelay f => exact pollPause_mimicked f h
  | driveSCL v => exact ⟨_, rfl, congrArg (fun w : WireView => { w.record (.driveSCL v) with scl := v }) h⟩
  | driveSDA v => exact ⟨_, rfl, congrArg (fun w : WireView => { w.record (.driveSDA v) with sda := v }) h⟩
  | releaseSCL fresh =>
    exact ⟨_, rfl, congrArg (fun w : WireView =>
      { w.record (.driveSCL true) with scl := true, n := 0#33, acc := if fresh then 0#33 else w.acc }) h⟩
  | hold p => exact ⟨_, rfl, pause_wire h p⟩
  | openWrite x i =>
    exact ⟨_, rfl, congrArg (fun w : WireView =>
      { w.record (.driveSDA (srBit x i)) with sda := srBit x i, acc := 0#33, sr := x, i := i }) h⟩
  | nextWrite i =>
    exact ⟨_, rfl, congrArg (fun w : WireView =>
      { w.record (.driveSDA (srBit w.sr i)) with sda := srBit w.sr i, i := i }) h⟩
  | openRead i =>
    exact ⟨_, rfl, congrArg (fun w : WireView =>
      { w.record (.driveSDA true) with sda := true, acc := 0#33, sr := 0#8, i := i }) h⟩
  | nextRead i =>
    exact ⟨_, rfl, congrArg (fun w : WireView => { w.record (.driveSDA true) with sda := true, i := i }) h⟩
  | sampleBit =>
    obtain ⟨v, e, hs, ht⟩ := sampleSDA_of_wire h
    simp only [fire, Micro.asPrimitive, hs, ht]
    exact ⟨_, rfl, congrArg (fun w : WireView =>
      { w.record (.sampleSDA v) with env := e, sr := setSrBit w.sr w.i v }) h⟩
  | closeAck k counted =>
    simp only [fire, endAck]
    split_ifs
    · trivial
    · exact ⟨_, rfl, pause_wire h .low⟩
    · exact ⟨_, rfl, pause_wire h .low⟩
  | closeByte dst => cases dst <;> exact ⟨_, rfl, pause_wire h .low⟩
  | senseSCL =>
    obtain ⟨v, e, hs, ht⟩ := sampleSCL_of_wire h
    simp only [fire, Micro.asPrimitive, hs, ht]
    exact ⟨_, rfl, congrArg (fun w : WireView => { w.record (.sampleSCL v) with env := e, sr := idleBits v false }) h⟩
  | senseSDA =>
    obtain ⟨v, e, hs, ht⟩ := sampleSDA_of_wire h
    simp only [fire, Micro.asPrimitive, hs, ht]
    exact ⟨_, rfl, congrArg (fun w : WireView =>
      { w.record (.sampleSDA v) with env := e, sr := idleBits (srBit w.sr 1#4) v }) h⟩

/-- Where the first ends, the second ends with the same wire. -/
def Ran.MimickedBy : Ran → Ran → Prop
  | .ok s, r => ∃ t, r = .ok t ∧ s.wire = t.wire
  | .failed _, _ => True

theorem runMicro_mimicked (fuel : Nat) (m : Micro) {s t : State} (h : s.wire = t.wire) :
    (runMicro fuel m s).MimickedBy (runMicro fuel m.asPrimitive t) := by
  induction fuel generalizing m s t with
  | zero => trivial
  | succ fuel ih =>
    have step := fire_mimicked m h
    rw [runMicro, runMicro]
    cases hfire : fire m s with
    | done s' =>
      rw [hfire] at step
      obtain ⟨t', ht, hw⟩ := step
      rw [ht]
      exact ⟨t', rfl, hw⟩
    | again m' s' =>
      rw [hfire] at step
      obtain ⟨t', ht, hw⟩ := step
      rw [ht]
      exact ih m' hw
    | failed s' => trivial

/-- A SEQUENCE of a frame that runs to its end is mimicked by its primitive form from a state with the same wire. -/
theorem runSeq_mimicked (ms : List Micro) {s t : State} (h : s.wire = t.wire) :
    (runSeq ms s).MimickedBy (runSeq (ms.map Micro.asPrimitive) t) := by
  induction ms generalizing s t with
  | nil => exact ⟨t, rfl, h⟩
  | cons m ms ih =>
    have hfuel : waitFuel s = waitFuel t := congrArg (fun w : WireView => 2 * w.conf.tBitTo.toNat + 2) h
    have first := runMicro_mimicked (waitFuel s) m h
    cases hrun : runMicro (waitFuel s) m s with
    | ok s' =>
      rw [hrun, hfuel] at first
      obtain ⟨t', ht, hw⟩ := first
      rw [runSeq_cons_ok hrun, List.map_cons, runSeq_cons_ok ht]
      exact ih hw
    | failed s' =>
      rw [runSeq_cons_stopped hrun]
      trivial

/-! ### Sequences that keep no failure -/

/-- Where a failure kept is one of line events, it still is after more line events (R154). -/
theorem LineMoves.err_ofLineEvents {s t : State} {new : List LineEvent} (h : LineMoves s t new)
    (hs : ∀ f, s.eng.err = some f → f.kind.ofLineEvents = true) :
    ∀ f, t.eng.err = some f → f.kind.ofLineEvents = true := by
  obtain ⟨_, _, _, eng, ⟨_, _, _, _, _, _, herr⟩, rfl⟩ := h
  intro f hf
  obtain herr | ⟨x, hx, hk⟩ := herr
  · exact hs f (herr.symm.trans hf)
  · obtain rfl : x = f := Option.some.inj (hx.symm.trans hf)
    rcases hk with hk | hk | hk <;> rw [hk] <;> rfl

/-- A sequence that leaves no failure kept ran to its end, and none was kept before it. -/
theorem runSeq_eq_ok_of_err_none {ms : List Micro} {s : State} (h : (runSeq ms s).state.eng.err = none) :
    ∃ t, runSeq ms s = .ok t ∧ s.eng.err = none := by
  have keeps := runSeq_keepsFailure ms s
  cases hrun : runSeq ms s with
  | ok t =>
    rw [hrun] at h keeps
    exact ⟨t, rfl, (show t.eng.err = s.eng.err from keeps).symm.trans h⟩
  | failed t =>
    rw [hrun] at h keeps
    have hsome : t.eng.err.isSome = true := keeps
    rw [show t.eng.err = none from h] at hsome
    cases hsome

/-! ### Primitive commands in a row -/

/-- `i` is a primitive command: its line events are the primitive form of `ms`, no event follows a failure, and its
report `p` adds no failure of its own. -/
structure IsPrimitive (i : Instr) (ms : List Micro) (p : Report) : Prop where
  wellFormed : i.wellFormed = true
  ne_config : i ≠ .config
  job (s : State) : commandOf i s = (s.beginCommand, { todo := ms.map Micro.asPrimitive, after := [], report := p })
  report : p = .plain ∨ p = .received ∨ p = .ackFlag

/-- A primitive command that keeps no failure finishes `Ok`. -/
theorem IsPrimitive.complete {i : Instr} {ms : List Micro} {p : Report} (hp : IsPrimitive i ms p) {s : State}
    (h : s.eng.err = none) : ∃ r, complete p s = finish .ok 0#32 r s ∧ (p = .plain → r = {}) := by
  obtain rfl | rfl | rfl := hp.report
  · exact ⟨_, complete_plain h, fun _ => rfl⟩
  · exact ⟨_, complete_received h, nofun⟩
  · exact ⟨_, complete_ackFlag h, nofun⟩

/-- A primitive command finishes `Ok` with the wire that the same line events of a frame leave. -/
theorem IsPrimitive.exec {i : Instr} {ms : List Micro} {p : Report} (hp : IsPrimitive i ms p) {s s' t : State}
    (hcfg : t.status.cfg = true) (hwire : s.wire = t.wire) (hrun : runSeq ms s = .ok s') :
    ∃ t', exec i t = .next t' ∧ t'.status.kind = .ok ∧ t'.status.cfg = true ∧ s'.wire = t'.wire ∧
      (p = .plain → t'.result = {}) := by
  have mimicked := runSeq_mimicked ms (t := t.beginCommand) hwire
  rw [hrun] at mimicked
  obtain ⟨u, hu, hwire'⟩ := mimicked
  have herr := runSeq_keepsFailure (ms.map Micro.asPrimitive) t.beginCommand
  obtain ⟨new, hmoves⟩ := runSeq_spec (ms.map Micro.asPrimitive) t.beginCommand
  rw [hu] at herr hmoves
  obtain ⟨r, hfinish, hr⟩ := hp.complete (s := u) herr
  have hstatus : u.status = t.status := by
    obtain ⟨_, _, _, _, _, h⟩ := hmoves
    have := congrArg State.status h
    exact this
  refine ⟨finish .ok 0#32 r u, ?_, rfl, ?_, hwire', hr⟩
  · rw [exec_eq, runGated_none (gate_none hp.wellFormed hp.ne_config hcfg), hp.job, runJob_ok hu, hfinish]
  · rw [finish_status, hstatus, hcfg]

theorem execAll_cons_ok {i : Instr} {is : List Instr} {s t : State} (h : exec i s = .next t)
    (hk : t.status.kind = .ok) : execAll (i :: is) s = execAll is t := by
  simp [execAll, h, hk]

/-- Primitive commands in a row finish `Ok` with the wire that the same line events of a frame leave. -/
theorem execAll_primitives {is : List Instr} {mss : List (List Micro)}
    (hp : List.Forall₂ (fun i ms => ∃ p, IsPrimitive i ms p) is mss) {s s' t : State} (hcfg : t.status.cfg = true)
    (hwire : s.wire = t.wire) (hrun : runSeq mss.flatten s = .ok s') :
    ∃ t', t'.status.cfg = true ∧ s'.wire = t'.wire ∧ ∀ more, execAll (is ++ more) t = execAll more t' := by
  induction hp generalizing s t with
  | nil =>
    obtain rfl := Ran.ok.inj hrun
    exact ⟨t, hcfg, hwire, fun _ => rfl⟩
  | cons hi _ ih =>
    obtain ⟨p, hi⟩ := hi
    obtain ⟨u, hfirst, hrest⟩ := runSeq_append_eq_ok hrun
    obtain ⟨t₁, hexec, hok, hcfg₁, hwire₁, -⟩ := hi.exec hcfg hwire hfirst
    obtain ⟨t', hcfg', hwire', hall⟩ := ih hcfg₁ hwire₁ hrest
    exact ⟨t', hcfg', hwire', fun more => (execAll_cons_ok hexec hok).trans (hall more)⟩

/-! ### A read frame received whole -/

/-- The line events of RFRAME, cut into those of the primitive commands of RFRAME_RAW (R76, R127). -/
def readFrameParts (ctrl : Byte) : List (List Micro) :=
  [startSeq, writeByteSeq ctrl, frameAckSeq 0 false, readByteSeq (.closeByte .d), sendAckSeq 1#8,
    readByteSeq (.closeByte .c), sendAckSeq 0#8]

theorem readFrameParts_flatten (ctrl : Byte) : (readFrameParts ctrl).flatten = readFrameSeq ctrl := by
  simp [readFrameParts, readFrameSeq]

/-- Each command of RFRAME_RAW performs its part of RFRAME (R76). -/
theorem isPrimitive_readFrameParts (ctrl : Byte) :
    List.Forall₂ (fun i ms => ∃ p, IsPrimitive i ms p)
      [.start, .wbyte ctrl, .rack, .rbyte, .sack 1#8, .rbyte, .sack 0#8] (readFrameParts ctrl) := by
  have start : IsPrimitive .start startSeq .plain := ⟨rfl, by decide, fun _ => rfl, .inl rfl⟩
  have wbyte : IsPrimitive (.wbyte ctrl) (writeByteSeq ctrl) .plain := ⟨rfl, by simp, fun _ => rfl, .inl rfl⟩
  have rack : IsPrimitive .rack (frameAckSeq 0 false) .ackFlag := ⟨rfl, by decide, fun _ => rfl, .inr (.inr rfl)⟩
  have rbyte (dst : FrameByte) : IsPrimitive .rbyte (readByteSeq (.closeByte dst)) .received :=
    ⟨rfl, by decide, fun _ => rfl, .inr (.inl rfl)⟩
  have sack (a : Byte) (h : oneBitOperand a = true) : IsPrimitive (.sack a) (sendAckSeq a) .plain :=
    ⟨h, by simp, fun _ => rfl, .inl rfl⟩
  exact .cons ⟨_, start⟩ (.cons ⟨_, wbyte⟩ (.cons ⟨_, rack⟩ (.cons ⟨_, rbyte .d⟩ (.cons ⟨_, sack 1#8 rfl⟩
    (.cons ⟨_, rbyte .c⟩ (.cons ⟨_, sack 0#8 rfl⟩ .nil))))))

/-- The `finish` of a command leaves the wire alone. -/
theorem complete_wire (p : Report) (s : State) : (complete p s).wire = s.wire := by
  obtain ⟨k, d, r, c, h, -⟩ := complete_spec p s
  rw [h]
  rfl

/-- A read frame that finishes with a kind of no line event has performed all its line events (R126, R128). -/
theorem runJob_readFrame_received {todo after : List Micro} {s : State} (hs : s.eng.err = none)
    (hk : (runJob { todo := todo, after := after, report := .readFrame } s).status.kind.ofLineEvents = false) :
    ∃ u v, runSeq todo s = .ok u ∧ runSeq after u = .ok v ∧
      (runJob { todo := todo, after := after, report := .readFrame } s).wire = v.wire := by
  obtain ⟨_, hfirst⟩ := runSeq_spec todo s
  obtain ⟨_, hsecond⟩ := runSeq_spec after (runSeq todo s).state
  have hkept := hsecond.err_ofLineEvents (hfirst.err_ofLineEvents (by simp [hs]))
  have herr : (runSeq after (runSeq todo s).state).state.eng.err = none := by
    cases he : (runSeq after (runSeq todo s).state).state.eng.err with
    | none => rfl
    | some f =>
      rw [runJob, complete, concludeWith_some he, finish_status] at hk
      cases hk.symm.trans (hkept f he)
  obtain ⟨v, hv, hu⟩ := runSeq_eq_ok_of_err_none herr
  obtain ⟨u, hrun, -⟩ := runSeq_eq_ok_of_err_none hu
  rw [hrun] at hv
  refine ⟨u, v, hrun, hv, ?_⟩
  rw [runJob, complete_wire, hrun, hv]
  rfl

/-- The line events of an RFRAME that receives its whole frame, from a state with the same wire (R127, R128). -/
theorem exec_rframe_received {nib : Nibble} {s t : State} (hcfg : s.status.cfg = true)
    (h : exec (.rframe nib) s = .next t) (hk : t.status.kind.ofLineEvents = false) :
    ∃ s₀ u v, s₀.wire = s.wire ∧ runSeq (readFrameSeq (controlByte nib s.conf.devAddr true)) s₀ = .ok u ∧
      runSeq (stopSeq .timeout) u = .ok v ∧ t.wire = v.wire := by
  rw [exec_eq, runGated_none (gate_none rfl (by simp) hcfg)] at h
  obtain rfl := Host.Outcome.next.inj h
  obtain ⟨u, v, hframe, hstop, hwire⟩ := runJob_readFrame_received rfl hk
  exact ⟨(commandOf (.rframe nib) s).1, u, v, rfl, hframe, hstop, hwire⟩

/-- Settles O40: the frame performs all its line events, and each primitive command mimics its part of them. -/
theorem primitivesReproduceReadFrame : Obligations.PrimitivesReproduceReadFrame := by
  intro s t nib hcfg h hkind
  have hline : t.status.kind.ofLineEvents = false := by
    obtain hk | hk := hkind <;> rw [hk] <;> rfl
  obtain ⟨s₀, u, v, hbegin, hframe, hstop, hwire⟩ := exec_rframe_received hcfg h hline
  rw [← readFrameParts_flatten] at hframe
  obtain ⟨t₁, hcfg₁, hwire₁, hall⟩ := execAll_primitives (isPrimitive_readFrameParts _) hcfg hbegin hframe
  have stop : IsPrimitive .stop (stopSeq .timeout) .plain := ⟨rfl, by decide, fun _ => rfl, .inl rfl⟩
  obtain ⟨t₂, hexec, hok, -, hwire₂, hresult⟩ := stop.exec hcfg₁ hwire₁ hstop
  have hw := hwire₂.symm.trans hwire.symm
  exact ⟨t₂, (hall [.stop]).trans (execAll_cons_ok hexec hok), congrArg WireView.trace hw, congrArg WireView.scl hw,
    congrArg WireView.sda hw, congrArg WireView.env hw, hresult rfl⟩

end Sys2Proof.Machine

/-! The engine steps of a command (40_framing_engine.md R91): what one of them performs, that those of an accepted
command end in what `exec` answers, and what a command leaves as it was. -/

namespace Sys2Proof.Machine

/-! ### No line event depends on the phase of the engine or changes it -/

/-- Another phase, in what an engine step leads to. -/
def Fired.setPhase (q : Phase) : Fired → Fired
  | .done s => .done (s.setPhase q)
  | .again m s => .again m (s.setPhase q)
  | .failed s => .failed (s.setPhase q)

theorem sampleSCL_setPhase (s : State) (q : Phase) :
    sampleSCL (s.setPhase q) = ((sampleSCL s).1, (sampleSCL s).2.setPhase q) := by
  obtain ⟨v, xs, n, hv, hs⟩ := levelSCL_sampled s
  obtain ⟨w, ys, k, hw, ht⟩ := levelSCL_sampled (s.setPhase q)
  obtain ⟨rfl, rfl, rfl⟩ := hv.unique hw
  simp only [sampleSCL, hs, ht]
  rfl

theorem sampleSDA_setPhase (s : State) (q : Phase) :
    sampleSDA (s.setPhase q) = ((sampleSDA s).1, (sampleSDA s).2.setPhase q) := by
  obtain ⟨v, xs, n, hv, hs⟩ := levelSDA_sampled s
  obtain ⟨w, ys, k, hw, ht⟩ := levelSDA_sampled (s.setPhase q)
  obtain ⟨rfl, rfl, rfl⟩ := hv.unique hw
  simp only [sampleSDA, hs, ht]
  rfl

@[simp] theorem State.setPhase_setPhase (s : State) (q q' : Phase) : (s.setPhase q).setPhase q' = s.setPhase q' := rfl

theorem State.keepFailure_setPhase (f : Failure) (s : State) (q : Phase) :
    (s.setPhase q).keepFailure f = (s.keepFailure f).setPhase q := by
  rw [State.keepFailure_eq, State.keepFailure_eq]
  rfl

theorem fire_setPhase (m : Micro) (s : State) (q : Phase) : fire m (s.setPhase q) = (fire m s).setPhase q := by
  cases m with
  | wait f =>
    obtain ⟨v, e, h⟩ := sampleSCL_spec s
    simp only [fire, poll, sampleSCL_setPhase, h]
    cases v with
    | true => rfl
    | false => 
      simp only [State.keepFailure_setPhase, apply_ite (Fired.setPhase q)]
      rfl
  | pollDelay f =>
    have tick : ((s.setPhase q).pause Config.pollUs.toNat).setEng
          { ((s.setPhase q).pause Config.pollUs.toNat).eng with
            n := ((s.setPhase q).pause Config.pollUs.toNat).eng.n + Config.pollUs } =
        ((s.pause Config.pollUs.toNat).setEng { (s.pause Config.pollUs.toNat).eng with
            n := (s.pause Config.pollUs.toNat).eng.n + Config.pollUs }).setPhase q := rfl
    simp only [fire, pollPause, tick, State.keepFailure_setPhase, apply_ite (Fired.setPhase q)]
    rfl
  | closeAck k counted =>
    have pause : (s.setPhase q).pause (Hold.low.us (s.setPhase q).conf) =
        (s.pause (Hold.low.us s.conf)).setPhase q := rfl
    simp only [fire, endAck, pause, State.keepFailure_setPhase, apply_ite (Fired.setPhase q)]
    rfl
  | sampleBit => simp only [fire, sampleSDA_setPhase]; rfl
  | senseSCL => simp only [fire, sampleSCL_setPhase]; rfl
  | senseSDA => simp only [fire, sampleSDA_setPhase]; rfl
  | closeByte dst => cases dst <;> rfl
  | _ => rfl

theorem settle_setPhase (r : Fired) (q : Phase) (rest after : List Micro) (p : Report) :
    settle (r.setPhase q) rest after p = settle r rest after p := by
  cases r <;> rfl

/-- With `todo` used up, the events of `after` are the ones to come. -/
theorem advance_nil (after : List Micro) (p : Report) (s : State) : advance [] after p s = advance after [] p s := by
  cases after <;> rfl

/-- The `finish` of a command makes the phase idle, whatever it was. -/
theorem complete_setPhase (p : Report) (s : State) (q : Phase) : complete p (s.setPhase q) = complete p s := by
  have conclude (r : Result) (t t' : State) (h : t = t') :
      concludeWith r (s.setPhase q) t = concludeWith r s t' := by
    subst h
    cases he : s.eng.err with
    | none => rw [concludeWith_none he, concludeWith_none (s := s.setPhase q) he]
    | some f =>
      rw [concludeWith_some he, concludeWith_some (s := s.setPhase q) he]
      rfl
  cases p with
  | plain | received | ackFlag | readFrame | writeFrame | recovery | idleBits => exact conclude _ _ _ rfl
  | configCheck | unconfigure => rfl

/-! ### Engine steps of a busy block -/

/-- From `s` some number of engine steps lead to `t`, with BUSY = 1 before each of them (R91). -/
def Reaches (s t : State) : Prop := ∃ k, engineStep^[k] s = t ∧ ∀ j < k, (engineStep^[j] s).status.busy = true

theorem Reaches.refl (s : State) : Reaches s s := ⟨0, rfl, by simp⟩

theorem Reaches.step {s t : State} (hb : s.status.busy = true) (h : Reaches (engineStep s) t) : Reaches s t := by
  obtain ⟨k, hk, hbusy⟩ := h
  refine ⟨k + 1, by rwa [Function.iterate_succ_apply], fun j hj => ?_⟩
  cases j with
  | zero => exact hb
  | succ j =>
    rw [Function.iterate_succ_apply]
    exact hbusy j (by omega)

theorem Reaches.trans {s t u : State} (h : Reaches s t) (h' : Reaches t u) : Reaches s u := by
  obtain ⟨k, rfl, hbusy⟩ := h
  induction k generalizing s with
  | zero => exact h'
  | succ k ih =>
    refine .step (hbusy 0 (by omega)) (ih (fun j hj => ?_) ?_)
    · simpa only [Function.iterate_succ_apply] using hbusy (j + 1) (by omega)
    · simpa only [Function.iterate_succ_apply] using h'

/-- The fuel suffices for the sub-operation: it is done or fails before the fuel is used up (log 13). -/
def FuelSuffices : Nat → Micro → State → Prop
  | 0, _, _ => False
  | fuel + 1, m, s =>
    match fire m s with
    | .again m' s' => FuelSuffices fuel m' s'
    | .done _ | .failed _ => True

theorem fuelSuffices_wait (f : FailAs) (j : Nat) : ∀ (s : State) (fuel : Nat),
    s.conf.tBitTo.toNat ≤ s.eng.n.toNat + j → 2 * j + 1 ≤ fuel → FuelSuffices fuel (.wait f) s := by
  induction j with
  | zero =>
    intro s fuel hj hf
    obtain ⟨fuel, rfl⟩ : ∃ m, fuel = m + 1 := ⟨fuel - 1, by omega⟩
    obtain ⟨v, e, h | ⟨x, h⟩ | ⟨hn, -⟩⟩ := fire_wait_cases f s
    · simp [FuelSuffices, h]
    · simp [FuelSuffices, h]
    · omega
  | succ j ih =>
    intro s fuel hj hf
    obtain ⟨fuel, rfl⟩ : ∃ m, fuel = m + 2 := ⟨fuel - 2, by omega⟩
    obtain ⟨v, e, h | ⟨x, h⟩ | ⟨hn, h⟩⟩ := fire_wait_cases f s
    · simp [FuelSuffices, h]
    · simp [FuelSuffices, h]
    · have htick : s.eng.tick.n.toNat = s.eng.n.toNat + 1 :=
        count_add_toNat (y := 1#33) (by have := s.conf.tBitTo.isLt; simp only [BitVec.toNat_ofNat]; omega)
      simp only [FuelSuffices, h]
      obtain ⟨x, h⟩ | h := fire_pollDelay_cases f { s with env := e, trace := s.trace ++ [.sampleSCL v] } <;>
        simp only [h]
      exact ih _ fuel (by simp only [htick]; omega) (by omega)

/-- The fuel of a sub-operation suffices in every state, also for one begun in the middle of a bounded wait. -/
theorem fuelSuffices_waitFuel (m : Micro) (s : State) : FuelSuffices (waitFuel s) m s := by
  cases m with
  | wait f => exact fuelSuffices_wait f s.conf.tBitTo.toNat s _ (by omega) (by rw [waitFuel]; omega)
  | pollDelay f =>
    rw [waitFuel_pos, FuelSuffices]
    obtain ⟨x, h⟩ | h := fire_pollDelay_cases f s <;> simp only [h]
    exact fuelSuffices_wait f s.conf.tBitTo.toNat _ _ (Nat.le_add_left _ _) (Nat.le_refl _)
  | closeAck k counted =>
    simp only [waitFuel_pos, FuelSuffices, fire, endAck]
    split_ifs <;> trivial
  | closeByte dst => cases dst <;> trivial
  | _ => trivial

/-- A running command with `ms` still to come, then `after`. -/
def State.running (s : State) (ms after : List Micro) (p : Report) : State := s.setPhase (.run ms after p)

/-- An engine step of a running command does what its first event does (R91). -/
theorem engineStep_running {s : State} (hb : s.status.busy = true) (ms after : List Micro) (p : Report) :
    engineStep (s.running ms after p) = advance ms after p (s.running ms after p) := by
  simp [engineStep, State.running, hb]

/-- Where the engine stands after a run of some of its first list's events, with `rest` of them still to come. -/
def Ran.resume (rest after : List Micro) (p : Report) : Ran → State
  | .ok t => t.running rest after p
  | .failed t => t.running after [] p

/-- The engine steps of one sub-operation (R91, R93). -/
theorem reaches_runMicro {rest after : List Micro} {p : Report} (fuel : Nat) : ∀ (m : Micro) (s : State),
    FuelSuffices fuel m s → s.status.busy = true →
      Reaches (s.running (m :: rest) after p) ((runMicro fuel m s).resume rest after p) := by
  induction fuel with
  | zero => exact fun m s h => h.elim
  | succ fuel ih =>
    intro m s hfuel hb
    refine .step hb ?_
    have first : engineStep (s.running (m :: rest) after p) = settle (fire m s) rest after p := by
      rw [engineStep_running hb, advance, State.running, fire_setPhase, settle_setPhase]
    have hstatus := fire_status m s
    rw [first, runMicro]
    rw [FuelSuffices] at hfuel
    cases hfire : fire m s with
    | done t => exact .refl _
    | failed t => exact .refl _
    | again m' t =>
      rw [hfire] at hfuel hstatus
      exact ih m' t hfuel ((congrArg Status.busy hstatus).trans hb)

theorem runMicro_busy {s t : State} {m : Micro} {fuel : Nat} (hb : s.status.busy = true)
    (h : (runMicro fuel m s).state = t) : t.status.busy = true := by
  obtain ⟨_, _, _, _, _, _, ht⟩ := runMicro_spec fuel m s
  rw [← h, ht]
  exact hb

/-- The engine steps of a sequence, up to its end or to its first failure (R91, R95). -/
theorem reaches_runSeq {after : List Micro} {p : Report} (ms : List Micro) : ∀ s : State, s.status.busy = true →
    Reaches (s.running ms after p) ((runSeq ms s).resume [] after p) := by
  induction ms with
  | nil => exact fun s _ => .refl _
  | cons m rest ih =>
    intro s hb
    have first := reaches_runMicro (rest := rest) (after := after) (p := p) _ m s (fuelSuffices_waitFuel m s) hb
    cases hrun : runMicro (waitFuel s) m s with
    | ok t =>
      rw [hrun] at first
      rw [runSeq_cons_ok hrun]
      exact first.trans (ih t (runMicro_busy hb (congrArg Ran.state hrun)))
    | failed t =>
      rw [hrun] at first
      rw [runSeq_cons_stopped hrun]
      exact first

theorem runSeq_busy (ms : List Micro) {s : State} (hb : s.status.busy = true) :
    (runSeq ms s).state.status.busy = true := by
  obtain ⟨_, _, _, _, _, _, ht⟩ := runSeq_spec ms s
  rw [ht]
  exact hb

/-- The last list of a command, and its `finish`. -/
theorem reaches_complete (ms : List Micro) (p : Report) {s : State} (hb : s.status.busy = true) :
    Reaches (s.running ms [] p) (complete p (runSeq ms s).state) := by
  refine (reaches_runSeq ms s hb).trans ?_
  have hresume : (runSeq ms s).resume [] [] p = (runSeq ms s).state.running [] [] p := by cases runSeq ms s <;> rfl
  have hbusy := runSeq_busy ms hb
  rw [hresume]
  refine .step hbusy ?_
  rw [engineStep_running hbusy, advance, State.running, complete_setPhase]
  exact .refl _

/-- With its first list used up, the engine goes on with the second one. -/
theorem reaches_after {after : List Micro} {p : Report} {s t : State} (hb : s.status.busy = true)
    (ht : t.status.busy = false) (h : Reaches (s.running after [] p) t) : Reaches (s.running [] after p) t := by
  obtain ⟨k, hk, hbusy⟩ := h
  cases k with
  | zero =>
    have : s.status.busy = false := (congrArg (fun s => s.status.busy) hk).trans ht
    exact absurd (hb.symm.trans this) nofun
  | succ k =>
    have same : engineStep (s.running [] after p) = engineStep (s.running after [] p) := by
      rw [engineStep_running hb, engineStep_running hb, advance_nil]
      cases after with
      | nil => rfl
      | cons m rest => simp only [advance, State.running, fire_setPhase, settle_setPhase]
    refine .step hb ?_
    rw [same]
    refine ⟨k, by rwa [Function.iterate_succ_apply] at hk, fun j hj => ?_⟩
    simpa only [Function.iterate_succ_apply] using hbusy (j + 1) (by omega)

theorem complete_busy (p : Report) (s : State) : (complete p s).status.busy = false := by
  obtain ⟨k, d, r, c, h, -⟩ := complete_spec p s
  rw [h, finish_status]

/-- THE ENGINE STEPS OF A COMMAND, from its first line event, end in its `finish` (R91). -/
theorem reaches_runJob (todo after : List Micro) (p : Report) {s : State} (hb : s.status.busy = true) :
    Reaches (s.running todo after p) (runJob { todo := todo, after := after, report := p } s) := by
  refine (reaches_runSeq todo s hb).trans ?_
  have hbusy := runSeq_busy todo hb
  have rest := reaches_complete after p hbusy
  cases hrun : runSeq todo s with
  | ok t =>
    rw [hrun] at hbusy rest
    rw [runJob, hrun]
    exact reaches_after hbusy (complete_busy _ _) rest
  | failed t =>
    rw [hrun] at rest
    rw [runJob, hrun]
    exact rest

/-- THE ENGINE STEPS OF AN ACCEPTED COMMAND: the decode step, then its line events, if it is not refused (R70, R91). -/
theorem exec_reached {s : State} {i : Instr} (hb : s.status.busy = true) (hp : s.eng.phase = .decode)
    (hd : decode s.cmd = .ok i) : ∃ t, exec i s = .next t ∧ Reaches s t := by
  have first : engineStep s = decodeStep s := by simp [engineStep, hb, hp]
  have hfetch : s.fetch = .ok i := hd
  rw [exec_eq]
  cases hg : gate i s with
  | some f =>
    refine ⟨_, runGated_some rfl, .step hb ?_⟩
    simp only [first, decodeStep, hfetch, hg]
    exact .refl _
  | none =>
    refine ⟨_, runGated_none rfl, .step hb ?_⟩
    simp only [first, decodeStep, hfetch, hg]
    have hbusy : (commandOf i s).1.status.busy = true := by rwa [commandOf_status]
    exact reaches_runJob _ _ _ hbusy

/-- Settles O48: the decode step and the line events of the command are engine steps. -/
theorem engineStepsComposeToExec : Obligations.EngineStepsComposeToExec := by
  intro s i hb hp hd
  obtain ⟨t, hexec, k, hk, hbusy⟩ := exec_reached hb hp hd
  exact ⟨t, k, hexec, hk, hbusy⟩

/-- A run turn, from any point of a command, is some number of engine steps (log 7). -/
theorem runTurn_reached {s t : State} (h : runTurn s = .next t) : Reaches s t := by
  cases hb : s.status.busy with
  | false =>
    simp only [runTurn, hb] at h
    cases h
    exact .refl s
  | true =>
    cases hp : s.eng.phase with
    | idle =>
      simp only [runTurn, hb, hp] at h
      cases h
      exact .refl s
    | decode =>
      cases hd : decode s.cmd with
      | error x =>
        simp only [runTurn, hb, hp, State.fetch, hd] at h
        cases h
        refine .step hb ?_
        simp only [engineStep, hb, hp, decodeStep, State.fetch, hd]
        exact .refl _
      | ok i =>
        rw [runTurn_decode hb hp hd] at h
        obtain ⟨u, hexec, hreach⟩ := exec_reached hb hp hd
        cases hexec.symm.trans h
        exact hreach
    | run todo after p =>
      simp only [runTurn, hb, hp] at h
      cases h
      have here : s.running todo after p = s := by rw [State.running, State.setPhase, ← hp]
      have reach := reaches_runJob todo after p hb
      rwa [here] at reach

/-- Settles O57: the turn scheduled is a run turn. -/
theorem runTurnIsEngineSteps : Obligations.RunTurnIsEngineSteps := by
  intro s t ts hsched h
  have hrun : runTurn { s with sched := ts } = .next t := by
    rw [← h, step, nextTurn, hsched]
    rfl
  obtain ⟨k, hk, -⟩ := runTurn_reached hrun
  exact ⟨k, hk.symm⟩

/-! ### One engine step -/

/-- What one engine step can do besides its line event: it leaves the configuration, CMD and the turns to come alone. -/
def StepsTo (s t : State) : Prop :=
  ∃ es : List LineEvent, es.length ≤ 1 ∧ t.trace = s.trace ++ es ∧ t.conf = s.conf ∧ t.cmd = s.cmd ∧ t.sched = s.sched

theorem StepsTo.quiet {s t : State} (htrace : t.trace = s.trace) (hconf : t.conf = s.conf) (hcmd : t.cmd = s.cmd)
    (hsched : t.sched = s.sched) : StepsTo s t := ⟨[], by simp, by simp [htrace], hconf, hcmd, hsched⟩

/-- The `finish` of a command performs no line event. -/
theorem complete_stepsTo (p : Report) (s : State) : StepsTo s (complete p s) := by
  obtain ⟨k, d, r, c, h, -⟩ := complete_spec p s
  rw [h]
  exact .quiet rfl rfl rfl rfl

/-- A step of a list of line events performs one. -/
theorem settle_stepsTo (m : Micro) (s : State) (rest after : List Micro) (p : Report) :
    StepsTo s (settle (fire m s) rest after p) := by
  obtain ⟨ev, _, _, _, _, _, ht⟩ := fire_spec m s
  obtain ⟨todo', after', heq⟩ := settle_spec (fire m s) rest after p
  rw [heq, ht]
  exact ⟨[ev], by simp, rfl, rfl, rfl, rfl⟩

theorem advance_stepsTo (todo after : List Micro) (p : Report) (s : State) : StepsTo s (advance todo after p s) := by
  match todo, after with
  | m :: rest, _ => exact settle_stepsTo m s rest _ p
  | [], m :: rest => exact settle_stepsTo m s rest [] p
  | [], [] => exact complete_stepsTo p s

/-- The decode step performs no line event (R70). -/
theorem decodeStep_stepsTo (s : State) : StepsTo s (decodeStep s) := by
  unfold decodeStep
  cases s.fetch with
  | error _ => exact .quiet rfl rfl rfl rfl
  | ok i =>
    cases hg : gate i s with
    | some f => simp only [hg]; exact .quiet rfl rfl rfl rfl
    | none =>
      obtain ⟨e, he, -⟩ := commandOf_spec i s
      simp only [hg, he]
      exact .quiet rfl rfl rfl rfl

theorem engineStep_idle {s : State} (hb : s.status.busy = false) : engineStep s = s := by simp [engineStep, hb]

theorem engineStep_stepsTo (s : State) : StepsTo s (engineStep s) := by
  cases hb : s.status.busy with
  | false => rw [engineStep_idle hb]; exact .quiet rfl rfl rfl rfl
  | true =>
    simp only [engineStep, hb, if_true]
    split
    · exact .quiet rfl rfl rfl rfl
    · exact decodeStep_stepsTo s
    · exact advance_stepsTo _ _ _ s

/-- Settles O47: an engine step is the decode step, one line event, or a `finish`. -/
theorem engineStepPerformsOneEvent : Obligations.EngineStepPerformsOneEvent := by
  intro s ts
  refine ⟨fun hsched => ?_, engineStep_idle, engineStep_stepsTo s⟩
  rw [step, nextTurn, hsched]
  rfl

/-! ### What every command leaves as it was -/

/-- The sub-operation changes no frame byte: it ends no byte and no ACK cycle of a frame. -/
def Micro.keepsFrameBytes : Micro → Bool
  | .closeAck _ _ | .closeByte _ => false
  | _ => true

theorem Engine.KeepsFrameBytes.refl (e : Engine) : e.KeepsFrameBytes e := ⟨rfl, rfl, rfl, rfl⟩

theorem Engine.KeepsFrameBytes.trans {e f g : Engine} (h : g.KeepsFrameBytes f) (h' : f.KeepsFrameBytes e) :
    g.KeepsFrameBytes e := by
  obtain ⟨hctrl, hd, hc, hacked⟩ := h
  obtain ⟨hctrl', hd', hc', hacked'⟩ := h'
  exact ⟨hctrl.trans hctrl', hd.trans hd', hc.trans hc', hacked.trans hacked'⟩

/-- A bounded wait, begun with its sample or with its poll delay, changes no frame byte. -/
theorem runMicro_wait_keepsFrameBytes (f : FailAs) (fuel : Nat) : ∀ s : State,
    (runMicro fuel (.wait f) s).state.eng.KeepsFrameBytes s.eng ∧
      (runMicro fuel (.pollDelay f) s).state.eng.KeepsFrameBytes s.eng := by
  induction fuel with
  | zero => exact fun s => ⟨.refl _, .refl _⟩
  | succ fuel ih =>
    intro s
    constructor
    · obtain ⟨v, e, h | ⟨x, h⟩ | ⟨-, h⟩⟩ := fire_wait_cases f s <;> simp only [runMicro, h]
      · exact .refl _
      · rw [State.keepFailure_eq]
        exact .refl _
      · exact (ih _).2
    · obtain ⟨x, h⟩ | h := fire_pollDelay_cases f s <;> simp only [runMicro, h]
      · rw [State.keepFailure_eq]
        exact .refl _
      · exact .trans (ih _).1 (.refl _)

theorem runMicro_keepsFrameBytes {m : Micro} (hm : m.keepsFrameBytes = true) (s : State) :
    (runMicro (waitFuel s) m s).state.eng.KeepsFrameBytes s.eng := by
  cases m with
  | wait f => exact (runMicro_wait_keepsFrameBytes f _ s).1
  | pollDelay f => exact (runMicro_wait_keepsFrameBytes f _ s).2
  | closeAck k counted | closeByte dst => cases hm
  | sampleBit | senseSDA =>
    obtain ⟨v, e, h⟩ := sampleSDA_spec s
    simp only [waitFuel_pos, runMicro, fire, h]
    exact .refl _
  | senseSCL =>
    obtain ⟨v, e, h⟩ := sampleSCL_spec s
    simp only [waitFuel_pos, runMicro, fire, h]
    exact .refl _
  | _ => exact .refl _

/-- A sequence that ends no byte and no ACK cycle of a frame changes no frame byte, on every draw. -/
theorem runSeq_keepsFrameBytes {ms : List Micro} (hms : ms.all Micro.keepsFrameBytes = true) (s : State) :
    (runSeq ms s).state.eng.KeepsFrameBytes s.eng := by
  induction ms generalizing s with
  | nil => exact .refl _
  | cons m rest ih =>
    obtain ⟨hm, hrest⟩ := Bool.and_eq_true_iff.mp hms
    have first := runMicro_keepsFrameBytes hm s
    cases hrun : runMicro (waitFuel s) m s with
    | ok t =>
      rw [hrun] at first
      rw [runSeq_cons_ok hrun]
      exact (ih hrest t).trans first
    | failed t =>
      rw [hrun] at first
      rw [runSeq_cons_stopped hrun]
      exact first

/-- The whole of a command's line events, and its `finish`: what of the state they are and what they leave alone. -/
theorem runJob_spec (j : Job) (s : State) : ∃ (k : Kind) (d : Word) (r : Result) (cfg : Bool) (u : State)
    (new : List LineEvent), runJob j s = finish k d r (u.setCfg cfg) ∧ LineMoves s u new ∧
      (j.report ≠ .configCheck → j.report ≠ .unconfigure → cfg = s.status.cfg) ∧
      (j.todo.all Micro.keepsFrameBytes = true → j.after.all Micro.keepsFrameBytes = true →
        u.eng.KeepsFrameBytes s.eng) := by
  obtain ⟨xs, hxs⟩ := runSeq_spec j.todo s
  obtain ⟨ys, hys⟩ := runSeq_spec j.after (runSeq j.todo s).state
  obtain ⟨k, d, r, cfg, hfinish, hcfg⟩ := complete_spec j.report (runSeq j.after (runSeq j.todo s).state).state
  have moves := hxs.trans hys
  have hstatus : (runSeq j.after (runSeq j.todo s).state).state.status = s.status := by
    obtain ⟨_, _, _, _, _, h⟩ := moves
    rw [h]
  rw [hstatus] at hcfg
  exact ⟨k, d, r, cfg, _, _, hfinish, moves, hcfg, fun htodo hafter =>
    (runSeq_keepsFrameBytes hafter _).trans (runSeq_keepsFrameBytes htodo s)⟩

/-- CONFIG and DECONFIG alone have a `finish` that writes CFG (R136, R138). -/
theorem commandOf_report {i : Instr} (hconfig : i ≠ .config) (hdeconfig : i ≠ .deconfig) (s : State) :
    (commandOf i s).2.report ≠ .configCheck ∧ (commandOf i s).2.report ≠ .unconfigure := by
  cases i with
  | config => exact absurd rfl hconfig
  | deconfig => exact absurd rfl hdeconfig
  | _ => exact ⟨nofun, nofun⟩

/-- Frame commands alone change frame bytes. -/
theorem commandOf_keepsFrameBytes {i : Instr} (hr : ∀ n, i ≠ .rframe n) (hw : ∀ n a d, i ≠ .wframe n a d) (s : State) :
    (commandOf i s).1.eng.KeepsFrameBytes s.eng ∧ (commandOf i s).2.todo.all Micro.keepsFrameBytes = true ∧
      (commandOf i s).2.after.all Micro.keepsFrameBytes = true := by
  cases i with
  | rframe n => exact absurd rfl (hr n)
  | wframe n a d => exact absurd rfl (hw n a d)
  | _ => exact ⟨.refl _, rfl, rfl⟩

/-- Settles O44: a command is one `finish`, at once when it is refused, else after its line events. -/
theorem everyCommandFinishes : Obligations.EveryCommandFinishes := by
  intro i s
  rw [exec_eq]
  cases hg : gate i s with
  | some f =>
    exact ⟨_, [], runGated_some rfl, rfl, rfl, Engine.settled_finish s.eng, ⟨rfl, rfl, rfl, rfl, rfl⟩, by simp,
      fun _ _ => rfl, fun _ _ => Engine.keeps_finish s.eng⟩
  | none =>
    obtain ⟨e, hbegin, -, -, hop, hnib, ha, hb⟩ := commandOf_spec i s
    obtain ⟨k, d, r, cfg, u, new, hjob, ⟨scl, sda, env, eng, hline, hu⟩, hcfg, hkeeps⟩ :=
      runJob_spec (commandOf i s).2 (commandOf i s).1
    obtain ⟨-, hop', hnib', ha', hb', -, -⟩ := hline
    rw [hbegin, State.setEng_eng] at hop' hnib' ha' hb'
    rw [hbegin] at hu
    refine ⟨_, new, runGated_none rfl, ?_⟩
    rw [hjob]
    refine ⟨rfl, ?_, ⟨rfl, rfl, ?_, ?_, ?_, ?_⟩, ?_, ?_, fun hconfig hdeconfig => ?_, fun hr hw => ?_⟩
    · rw [hu]; exact hop'.trans hop
    · rw [hu]; exact hop'.trans hop
    · rw [hu]; exact hnib'.trans hnib
    · rw [hu]; exact ha'.trans ha
    · rw [hu]; exact hb'.trans hb
    · rw [hu]; exact ⟨rfl, rfl, rfl, rfl, rfl⟩
    · rw [hu]; rfl
    · obtain ⟨hcheck, hunconf⟩ := commandOf_report hconfig hdeconfig s
      rw [finish_status]
      exact (hcfg hcheck hunconf).trans (congrArg Status.cfg (commandOf_status i s))
    · obtain ⟨hbytes, htodo, hafter⟩ := commandOf_keepsFrameBytes hr hw s
      exact .trans (f := u.eng) (.refl _) ((hkeeps htodo hafter).trans hbytes)

end Sys2Proof.Machine

/-! Commands whose waits are given by the samples in store: START and STOP that finish `Ok`, and the primitive commands
that a clock held low stops (40_framing_engine.md R93, R94). -/

namespace Sys2Proof.Machine

/-! ### Line events between which no failure is kept -/

/-- Line events `new` lead from `s` to `t`: of the engine they change its counters, shift register and bit index only. -/
def WireMoves (s t : State) (new : List LineEvent) : Prop :=
  ∃ scl sda env n acc sr i, t = { s with
    sclO := scl, sdaO := sda, trace := s.trace ++ new, env := env
    eng := { s.eng with n := n, acc := acc, sr := sr, i := i } }

theorem WireMoves.refl (s : State) : WireMoves s s [] :=
  ⟨s.sclO, s.sdaO, s.env, s.eng.n, s.eng.acc, s.eng.sr, s.eng.i, by simp⟩

theorem WireMoves.trans {s t u : State} {xs ys : List LineEvent} (h : WireMoves s t xs) (k : WireMoves t u ys) :
    WireMoves s u (xs ++ ys) := by
  obtain ⟨_, _, _, _, _, _, _, rfl⟩ := h
  obtain ⟨scl, sda, env, n, acc, sr, i, rfl⟩ := k
  exact ⟨scl, sda, env, n, acc, sr, i, by simp⟩

theorem WireMoves.conf {s t : State} {new : List LineEvent} (h : WireMoves s t new) : t.conf = s.conf := by
  obtain ⟨_, _, _, _, _, _, _, rfl⟩ := h
  rfl

theorem wireMoves_setSDA (v : Level) (s : State) : WireMoves s (s.setSDA v) [.driveSDA v] :=
  ⟨_, _, _, _, _, _, _, rfl⟩

theorem wireMoves_setSCL (v : Level) (s : State) : WireMoves s (s.setSCL v) [.driveSCL v] :=
  ⟨_, _, _, _, _, _, _, rfl⟩

theorem wireMoves_pause (us : Nat) (s : State) : WireMoves s (s.pause us) [.delay us] := ⟨_, _, _, _, _, _, _, rfl⟩

/-- A `finish` clears the failure kept. -/
theorem finish_keepFailure (k : Kind) (d : Word) (r : Result) (f : Failure) (s : State) :
    finish k d r (s.keepFailure f) = finish k d r s := by
  rw [State.keepFailure_eq]
  rfl

/-- The completion record after line events of a command. -/
theorem WireMoves.finish {s t : State} {new : List LineEvent} (h : WireMoves s.beginCommand t new) (k : Kind) (d : Word)
    (r : Result) : ∃ e : Engine, e.Settled s.eng ∧ e.KeepsFrameBytes s.eng ∧
      finish k d r t = { s.withRecord k d r with
        sclO := t.sclO, sdaO := t.sdaO, trace := s.trace ++ new, env := t.env, eng := e } := by
  obtain ⟨_, _, _, _, _, _, _, rfl⟩ := h
  refine ⟨_, ?_, ?_, finish_eq k d r _⟩
  · exact ⟨rfl, rfl, rfl, rfl, rfl, rfl⟩
  · exact ⟨rfl, rfl, rfl, rfl⟩

/-! ### Primitive commands -/

theorem isPrimitive_start : IsPrimitive .start startSeq .plain := ⟨rfl, by decide, fun _ => rfl, .inl rfl⟩

theorem isPrimitive_stop : IsPrimitive .stop (stopSeq .timeout) .plain := ⟨rfl, by decide, fun _ => rfl, .inl rfl⟩

theorem isPrimitive_wbit {a : Byte} (ha : a.toNat < 2) : IsPrimitive (.wbit a) (writeBitSeq (bitOperand a)) .plain :=
  ⟨(oneBitOperand_iff a).mpr ha, by simp, fun _ => rfl, .inl rfl⟩

theorem isPrimitive_rbit : IsPrimitive .rbit (readBitSeq (.hold .low)) .received :=
  ⟨rfl, by decide, fun _ => rfl, .inr (.inl rfl)⟩

theorem isPrimitive_rack : IsPrimitive .rack (readBitSeq (.hold .low)) .ackFlag :=
  ⟨rfl, by decide, fun _ => rfl, .inr (.inr rfl)⟩

theorem isPrimitive_sack {a : Byte} (ha : a.toNat < 2) : IsPrimitive (.sack a) (sendAckSeq a) .plain :=
  ⟨(oneBitOperand_iff a).mpr ha, by simp, fun _ => rfl, .inl rfl⟩

theorem isPrimitive_wbyte (x : Byte) : IsPrimitive (.wbyte x) (writeByteSeq x) .plain :=
  ⟨rfl, by simp, fun _ => rfl, .inl rfl⟩

theorem isPrimitive_rbyte : IsPrimitive .rbyte (readByteSeq (.hold .low)) .received :=
  ⟨rfl, by decide, fun _ => rfl, .inr (.inl rfl)⟩

/-- A primitive command of a configured block is its line events and their report. -/
theorem exec_of_isPrimitive {i : Instr} {ms : List Micro} {p : Report} (h : IsPrimitive i ms p) {s : State}
    (hcfg : s.status.cfg = true) :
    exec i s = .next (complete p (runSeq (ms.map Micro.asPrimitive) s.beginCommand).state) := by
  rw [exec_eq, runGated_none (gate_none h.wellFormed h.ne_config hcfg), h.job]
  rfl

/-- A primitive command that reports no data and performs all its line events finishes `Ok`. -/
theorem exec_of_isPrimitive_ok {i : Instr} {ms : List Micro} (h : IsPrimitive i ms .plain) {s t : State}
    (hcfg : s.status.cfg = true) {new : List LineEvent}
    (hrun : runSeq (ms.map Micro.asPrimitive) s.beginCommand = .ok t) (hmoves : WireMoves s.beginCommand t new) :
    ∃ e : Engine, e.Settled s.eng ∧ e.KeepsFrameBytes s.eng ∧
      exec i s = .next { s.withRecord .ok 0#32 {} with
        sclO := t.sclO, sdaO := t.sdaO, trace := s.trace ++ new, env := t.env, eng := e } := by
  obtain ⟨e, hsettled, hkeeps, hfinish⟩ := hmoves.finish .ok 0#32 {}
  have herr : t.eng.err = none := by
    obtain ⟨_, _, _, _, _, _, _, rfl⟩ := hmoves
    rfl
  refine ⟨e, hsettled, hkeeps, ?_⟩
  rw [exec_of_isPrimitive h hcfg, hrun, Ran.state, complete_plain herr, hfinish]

/-- A primitive command whose line events stop at a failure finishes with that failure and RESULT 0. -/
theorem exec_of_isPrimitive_failed {i : Instr} {ms : List Micro} {p : Report} (h : IsPrimitive i ms p) {s t : State}
    (hcfg : s.status.cfg = true) {f : Failure} {new : List LineEvent}
    (hrun : runSeq (ms.map Micro.asPrimitive) s.beginCommand = .failed (t.keepFailure f))
    (hmoves : WireMoves s.beginCommand t new) : exec i s = .next (finish f.kind f.detail {} t) := by
  have herr : (t.keepFailure f).eng.err = some f := by
    obtain ⟨_, _, _, _, _, _, _, rfl⟩ := hmoves
    rfl
  have hcomplete : complete p (t.keepFailure f) = finish f.kind f.detail {} (t.keepFailure f) := by
    obtain rfl | rfl | rfl := h.report <;> exact concludeWith_some herr
  rw [exec_of_isPrimitive h hcfg, hrun, Ran.state, hcomplete, finish_keepFailure]

/-- Settles O12, by START_SEQ on the samples in store. -/
theorem startCompletes : Obligations.StartCompletes := by
  intro s k rest hcfg hfits hscl
  have hrun := runSeq_start (s := s.beginCommand) (ms := []) (k := k) (by simpa [stretched] using hscl) hfits
  exact exec_of_isPrimitive_ok isPrimitive_start hcfg hrun ⟨_, _, _, _, _, _, _, rfl⟩

/-- Settles O13, by STOP_SEQ on the samples in store. -/
theorem stopCompletes : Obligations.StopCompletes := by
  intro s k rest hcfg hfits hscl
  have hrun := runSeq_stop (s := s.beginCommand) (f := .timeout) (ms := []) (k := k) (by simpa [stretched] using hscl)
    hfits
  exact exec_of_isPrimitive_ok isPrimitive_stop hcfg hrun ⟨_, _, _, _, _, _, _, rfl⟩

/-! ### A clock held low -/

/-- A run of `ms` from `s` stops in a wait that does not see SCL high, SDA driven to `b`: its events are `new`, `x` is the
elapsed time of the wait, and it leaves the draws `env`. -/
def StopsLow (s : State) (ms : List Micro) (f : FailAs) (b : Level) (new : List LineEvent) (env : Env) (x : Count) :
    Prop :=
  ∃ t, runSeq ms s = .failed (t.keepFailure (f.failure x)) ∧ WireMoves s t new ∧ t.sclO = true ∧ t.sdaO = b ∧ t.env = env

/-- Line events that lead to a run that stops. -/
theorem StopsLow.of_runSeq {s u : State} {ms ms' : List Micro} {f : FailAs} {b : Level} {xs new : List LineEvent}
    {env : Env} {x : Count} (hrun : runSeq ms s = runSeq ms' u) (hmoves : WireMoves s u xs)
    (h : StopsLow u ms' f b new env x) : StopsLow s ms f b (xs ++ new) env x := by
  obtain ⟨t, hstop, hnew, hlines⟩ := h
  exact ⟨t, hrun.trans hstop, hmoves.trans hnew, hlines⟩

/-- A primitive command whose clock is held low finishes `Timeout` with the elapsed time of the wait (R93). -/
theorem StopsLow.exec {i : Instr} {ms : List Micro} {p : Report} {s : State} {b : Level} {new : List LineEvent}
    {env : Env} {x : Count} {d : Word}
    (hstop : StopsLow s.beginCommand (ms.map Micro.asPrimitive) .timeout b new env x) (h : IsPrimitive i ms p)
    (hcfg : s.status.cfg = true) (hd : saturate x = d) :
    ∃ e : Engine, e.Settled s.eng ∧ e.KeepsFrameBytes s.eng ∧
      Machine.exec i s = .next { s.withRecord .timeout d {} with
        sclO := true, sdaO := b, trace := s.trace ++ new, env := env, eng := e } := by
  subst hd
  obtain ⟨t, hrun, hmoves, hscl, hsda, henv⟩ := hstop
  obtain ⟨e, hsettled, hkeeps, hfinish⟩ := hmoves.finish .timeout (saturate x) {}
  refine ⟨e, hsettled, hkeeps, ?_⟩
  rw [hscl, hsda, henv] at hfinish
  exact (exec_of_isPrimitive_failed h hcfg hrun hmoves).trans (congrArg _ hfinish)

/-- The samples `store` of SCL hold the clock low, and `rest` is left of them, in a wait that begins with `spent` µs of
the per-byte budget used. -/
def HoldsLow (c : Conf) (spent : Nat) (store rest : List Level) (new : List LineEvent) (x : Count) : Prop :=
  ∀ (s : State) (fresh : Bool) (f : FailAs) (ms : List Micro), s.conf = c → s.env.scl = store →
    (if fresh then 0#33 else s.eng.acc).toNat = spent →
      StopsLow s (.releaseSCL fresh :: .wait f :: ms) f s.sdaO (.driveSCL true :: new) { s.env with scl := rest } x

/-- Low samples that use up the per-bit budget (R93). -/
theorem holdsLow_bit {c : Conf} {spent : Nat} (rest : List Level) (h : spent + c.tBitTo.toNat ≤ c.tByteTo.toNat) :
    HoldsLow c spent (List.replicate (c.tBitTo.toNat + 1) false ++ rest) rest (stuckTrace c.tBitTo.toNat)
      (c.tBitTo.zeroExtend 33) := by
  rintro s fresh f ms rfl hscl rfl
  exact ⟨_, runSeq_release_stuck hscl h, ⟨_, _, _, _, _, _, _, rfl⟩, rfl, rfl, rfl⟩

/-- Low samples that exceed the per-byte budget first (R93, R94). -/
theorem holdsLow_byte {c : Conf} {spent j : Nat} (rest : List Level) (hbit : j < c.tBitTo.toNat)
    (hbyte : spent + j = c.tByteTo.toNat) :
    HoldsLow c spent (List.replicate (j + 1) false ++ rest) rest (overrunTrace (j + 1))
      (c.tByteTo.zeroExtend 33 + 1#33) := by
  rintro s fresh f ms rfl hscl rfl
  exact ⟨_, runSeq_release_over hscl hbit hbyte, ⟨_, _, _, _, _, _, _, rfl⟩, rfl, rfl, rfl⟩

/-- The detail of a wait that uses up the per-bit budget is the register (R93). -/
theorem saturate_zeroExtend (x : Word) : saturate (x.zeroExtend 33) = x := by
  have hbit : (x.zeroExtend 33).getLsbD 32 = false := by simp
  rw [saturate, hbit]
  simp [BitVec.truncate_eq_setWidth]

/-- The detail of a wait that exceeds the per-byte budget (R25, R94). -/
theorem saturate_overrun (c : Conf) : saturate (c.tByteTo.zeroExtend 33 + 1#33) = overrunDetail c := by
  have hlt := c.tByteTo.isLt
  have hsum : (c.tByteTo.zeroExtend 33 + 1#33).toNat = c.tByteTo.toNat + 1 := by
    rw [count_add_toNat] <;> simp only [zeroExtend_word_toNat, BitVec.toNat_ofNat]; omega
  have hbit : (c.tByteTo.zeroExtend 33 + 1#33).getLsbD 32 = decide (c.tByteTo = 0xFFFFFFFF#32) := by
    rw [BitVec.getLsbD, hsum, Nat.testBit_eq_decide_div_mod_eq, decide_eq_decide, ← BitVec.toNat_inj,
      BitVec.toNat_ofNat]
    omega
  rw [saturate, hbit, overrunDetail]
  by_cases hmax : c.tByteTo = 0xFFFFFFFF#32
  · simp [hmax]
  · simp only [hmax, decide_false, Bool.false_eq_true, if_false]
    refine BitVec.eq_of_toNat_eq ?_
    rw [BitVec.truncate_eq_setWidth, BitVec.toNat_setWidth, hsum, BitVec.toNat_add]
    rfl

/-- Settles O14: both waits have a fresh accumulator, so that the per-bit budget is spent first. -/
theorem startAndStopTimeOut : Obligations.StartAndStopTimeOut := by
  intro s rest hcfg hbudget hscl
  have spent : FailAs.timeout.failure (s.conf.tBitTo.zeroExtend 33) = ⟨.timeout, s.conf.tBitTo⟩ :=
    congrArg (Failure.mk .timeout) (saturate_zeroExtend _)
  refine ⟨{ s.eng with phase := .idle, err := none, n := BitVec.ofNat 33 s.conf.tBitTo.toNat, acc := 0#33 },
    ⟨rfl, rfl, rfl, rfl, rfl, rfl⟩, ⟨rfl, rfl, rfl, rfl⟩, ?_, ?_⟩
  · have head := wireMoves_setSDA true s.beginCommand
    have hrun : runSeq startSeq s.beginCommand = _ :=
      (runSeq_cons_done rfl).trans (runSeq_release_stuck (s := s.beginCommand.setSDA true) (rest := rest) hscl
        (by simpa using hbudget))
    rw [exec_of_isPrimitive_failed isPrimitive_start hcfg hrun (head.trans ⟨_, _, _, _, _, _, _, rfl⟩)]
    simp [spent, finish, State.withRecord, startHead]
  · have head := (wireMoves_setSDA false s.beginCommand).trans (wireMoves_pause (Hold.stopHold.us s.conf) _)
    have hrun : runSeq (stopSeq .timeout) s.beginCommand = _ :=
      (runSeq_cons_done rfl).trans ((runSeq_cons_done rfl).trans (runSeq_release_stuck
        (s := (s.beginCommand.setSDA false).pause (Hold.stopHold.us s.conf)) (rest := rest) hscl
        (by simpa using hbudget)))
    rw [exec_of_isPrimitive_failed isPrimitive_stop hcfg hrun (head.trans ⟨_, _, _, _, _, _, _, rfl⟩)]
    simp [spent, finish, State.withRecord, Hold.us, stopHead]

/-! ### Bits and bytes whose clock is held low -/

/-- The first event of a bit cell leads from `s` to `t`: it drives SDA to `b` (R107). -/
structure OpensCell (first : Micro) (s t : State) (b : Level) : Prop where
  fire : fire first s = .done t
  moves : WireMoves s t [.driveSDA b]
  sda : t.sdaO = b
  env : t.env = s.env

theorem opensCell_openWrite (x : Byte) (i : Nibble) (s : State) : OpensCell (.openWrite x i) s
    ((s.setEng { s.eng with acc := 0#33, sr := x, i := i }).setSDA (srBit x i)) (srBit x i) :=
  ⟨rfl, ⟨_, _, _, _, _, _, _, rfl⟩, rfl, rfl⟩

theorem opensCell_nextWrite (i : Nibble) (s : State) : OpensCell (.nextWrite i) s
    ((s.setEng { s.eng with i := i }).setSDA (srBit s.eng.sr i)) (srBit s.eng.sr i) :=
  ⟨rfl, ⟨_, _, _, _, _, _, _, rfl⟩, rfl, rfl⟩

theorem opensCell_openRead (i : Nibble) (s : State) : OpensCell (.openRead i) s
    ((s.setEng { s.eng with acc := 0#33, sr := 0#8, i := i }).setSDA true) true :=
  ⟨rfl, ⟨_, _, _, _, _, _, _, rfl⟩, rfl, rfl⟩

theorem opensCell_nextRead (i : Nibble) (s : State) : OpensCell (.nextRead i) s
    ((s.setEng { s.eng with i := i }).setSDA true) true :=
  ⟨rfl, ⟨_, _, _, _, _, _, _, rfl⟩, rfl, rfl⟩

/-- A bit cell, written or read, whose clock is held low (R107). -/
theorem stopsLow_cell {c : Conf} {spent : Nat} {store rest : List Level} {new : List LineEvent} {x : Count}
    (hlow : HoldsLow c spent store rest new x) {first : Micro} {s t : State} {b : Level} (hfirst : OpensCell first s t b)
    (hconf : s.conf = c) (hscl : s.env.scl = store) (hacc : t.eng.acc.toNat = spent) (ms : List Micro) :
    StopsLow s (first :: .hold .setup :: .releaseSCL false :: .wait .timeout :: ms) .timeout b (cellHead b ++ new)
      { s.env with scl := rest } x := by
  obtain ⟨hfire, hmoves, rfl, henv⟩ := hfirst
  rw [← henv] at hscl ⊢
  have htrace : cellHead t.sdaO ++ new = [.driveSDA t.sdaO] ++ ([.delay Config.dataSetupUs] ++ (.driveSCL true :: new)) :=
    rfl
  rw [htrace]
  refine .of_runSeq (runSeq_cons_done hfire) hmoves (.of_runSeq (runSeq_cons_done rfl) (wireMoves_pause _ t) ?_)
  exact hlow (t.pause Config.dataSetupUs) false .timeout ms (hmoves.conf.trans hconf) hscl hacc

/-- Settles O21: each of the four commands is one bit cell. -/
theorem bitCommandsTimeOut : Obligations.BitCommandsTimeOut := by
  intro s a rest hcfg ha hbudget hscl i b hmem
  have hlow := holdsLow_bit (spent := 0) rest (by rwa [Nat.zero_add])
  have sent (y : Byte) := stopsLow_cell hlow (opensCell_openWrite y 0#4 s.beginCommand) rfl hscl rfl
  have received := stopsLow_cell hlow (opensCell_openRead 0#4 s.beginCommand) rfl hscl rfl
  have stop : ∃ ms p, IsPrimitive i ms p ∧ StopsLow s.beginCommand (ms.map Micro.asPrimitive) .timeout b
      (cellHead b ++ stuckTrace s.conf.tBitTo.toNat) { s.env with scl := rest } (s.conf.tBitTo.zeroExtend 33) := by
    simp only [List.mem_cons, Prod.mk.injEq, List.not_mem_nil, or_false] at hmem
    obtain ⟨rfl, rfl⟩ | ⟨rfl, rfl⟩ | ⟨rfl, rfl⟩ | ⟨rfl, rfl⟩ := hmem
    · have hbit : srBit (bitOperand a) 0#4 = a.getLsbD 0 := by simp [srBit, bitOperand]
      exact ⟨_, _, isPrimitive_wbit ha, by rw [← hbit]; exact sent _ _⟩
    · exact ⟨_, _, isPrimitive_rbit, received _⟩
    · exact ⟨_, _, isPrimitive_rack, received _⟩
    · have hbit : srBit (ackOperand a) 0#4 = !a.getLsbD 0 := by
        cases h : a.getLsbD 0 <;> rw [ackOperand, h] <;> rfl
      exact ⟨_, _, isPrimitive_sack ha, by rw [← hbit]; exact sent _ _⟩
  obtain ⟨ms, p, hp, hstop⟩ := stop
  exact hstop.exec hp hcfg (saturate_zeroExtend _)

end Sys2Proof.Machine

/-! Bytes whose clock is held low after some of their bits (41_serdes.md R110 to R114). -/

namespace Sys2Proof.Machine

/-! ### A byte is eight bit cells with one accumulator -/

/-- The bit indices of a byte in wire order (R110). -/
def bitIndices : List Nibble := [7#4, 6#4, 5#4, 4#4, 3#4, 2#4, 1#4, 0#4]

/-- Sequences whose first events do the same run the same. -/
theorem runSeq_cons_congr {m m' : Micro} {s s' t : State} (hm : fire m s = .done t) (hm' : fire m' s' = .done t)
    (ms : List Micro) : runSeq (m :: ms) s = runSeq (m' :: ms) s' :=
  (runSeq_cons_done hm).trans (runSeq_cons_done hm').symm

/-- The state in which a byte's bit cells begin: a fresh accumulator, and `x` in the shift register (R111). -/
def State.beginByte (x : Byte) (s : State) : State := s.setEng { s.eng with acc := 0#33, sr := x }

theorem wireMoves_beginByte (x : Byte) (s : State) : WireMoves s (s.beginByte x) [] :=
  ⟨s.sclO, s.sdaO, s.env, s.eng.n, 0#33, x, s.eng.i, by simp [State.beginByte, State.setEng]⟩

/-- `WRITE_BYTE_SEQ(x)` is eight write cells, with `x` in the shift register and a fresh accumulator (R110, R111). -/
theorem runSeq_writeByteSeq (x : Byte) (ms : List Micro) (s : State) : runSeq (writeByteSeq x ++ ms) s =
    runSeq ((bitIndices.flatMap fun i => writeCell (.nextWrite i)) ++ ms) (s.beginByte x) :=
  runSeq_cons_congr rfl rfl _

/-- `READ_BYTE_SEQ()` is eight read cells, with a fresh accumulator (R110, R111). -/
theorem runSeq_readByteSeq (ms : List Micro) (s : State) : runSeq (readByteSeq (.hold .low) ++ ms) s =
    runSeq ((bitIndices.flatMap fun i => readCell (.nextRead i) (.hold .low)) ++ ms) (s.beginByte 0#8) :=
  runSeq_cons_congr rfl rfl _

/-- The bit at which a byte stops whose first `n` bits are clocked, and the bits before and after it. -/
theorem bitIndices_split {n : Nat} (h : n < 8) : ∃ is i is', bitIndices = is ++ i :: is' ∧ is.length = n ∧
    (∀ x, srBit x i = x.getLsbD (7 - n)) ∧ ∀ x, is.map (srBit x) = (wireBits x).take n := by
  refine ⟨bitIndices.take n, BitVec.ofNat 4 (7 - n), bitIndices.drop (n + 1), ?_, ?_, fun x => ?_, fun x => ?_⟩ <;>
    interval_cases n <;> rfl

/-! ### Bit cells whose clock rises -/

/-- The line events `ms` all happen: they lead from `s` to `t`, whatever comes after them, and are `new` on the trace. -/
structure Happen (ms : List Micro) (s t : State) (new : List LineEvent) : Prop where
  run (ms' : List Micro) : runSeq (ms ++ ms') s = runSeq ms' t
  moves : WireMoves s t new

theorem Happen.refl (s : State) : Happen [] s s [] := ⟨fun _ => rfl, .refl s⟩

theorem Happen.trans {ms ms' : List Micro} {s t u : State} {xs ys : List LineEvent} (h : Happen ms s t xs)
    (k : Happen ms' t u ys) : Happen (ms ++ ms') s u (xs ++ ys) :=
  ⟨fun more => by rw [List.append_assoc, h.run, k.run], h.moves.trans k.moves⟩

/-- Line events that all happen before a clock that is held low. -/
theorem Happen.stopsLow {ms ms' : List Micro} {s t : State} {f : FailAs} {b : Level} {xs ys : List LineEvent}
    {env : Env} {x : Count} (h : Happen ms s t xs) (k : StopsLow t ms' f b ys env x) :
    StopsLow s (ms ++ ms') f b (xs ++ ys) env x :=
  .of_runSeq (h.run ms') h.moves k

theorem accumulate_toNat {c : Conf} {acc : Count} {k : Nat} (h : acc.toNat + k ≤ c.tByteTo.toNat) :
    (acc + BitVec.ofNat 33 k).toNat = acc.toNat + k := by
  have hb := c.tByteTo.isLt
  rw [count_add_toNat] <;> rw [count_ofNat_toNat] <;> omega

/-- A write cell whose clock rises within both budgets (R107). -/
theorem writeCell_happens {s : State} {k : Nat} {rest : List Level} (i : Nibble)
    (hscl : s.env.scl = List.replicate k false ++ true :: rest) (hbit : k ≤ s.conf.tBitTo.toNat)
    (hbyte : s.eng.acc.toNat + k ≤ s.conf.tByteTo.toNat) :
    ∃ t, Happen (writeCell (.nextWrite i)) s t (writeCellTrace s.conf k (srBit s.eng.sr i)) ∧
      t.env = { s.env with scl := rest } ∧ t.eng.acc.toNat = s.eng.acc.toNat + k ∧ t.eng.sr = s.eng.sr := by
  have first := opensCell_nextWrite i s
  refine ⟨_, ⟨fun ms => (runSeq_cons_done first.fire).trans (runSeq_clockOut hscl hbit hbyte),
    first.moves.trans ⟨_, _, _, _, _, _, _, rfl⟩⟩, rfl, accumulate_toNat hbyte, rfl⟩

/-- A read cell of a primitive command whose clock rises within both budgets (R107). -/
theorem readCell_happens {s : State} {k : Nat} {v : Level} {rest rest' : List Level} (i : Nibble)
    (hscl : s.env.scl = List.replicate k false ++ true :: rest) (hsda : s.env.sda = v :: rest')
    (hbit : k ≤ s.conf.tBitTo.toNat) (hbyte : s.eng.acc.toNat + k ≤ s.conf.tByteTo.toNat) :
    ∃ t, Happen (readCell (.nextRead i) (.hold .low)) s t (readCellTrace s.conf k v) ∧
      t.env = { s.env with scl := rest, sda := rest' } ∧ t.eng.acc.toNat = s.eng.acc.toNat + k := by
  have first := opensCell_nextRead i s
  have trace : readCellTrace s.conf k v = [.driveSDA true] ++
      (([.delay Config.dataSetupUs, .driveSCL true] ++ waitTrace k ++
        [.delay (s.conf.tHigh.toNat / 2), .sampleSDA v, .delay (s.conf.tHigh.toNat - s.conf.tHigh.toNat / 2),
          .driveSCL false]) ++ [.delay s.conf.tLow.toNat]) := by
    simp [readCellTrace, cellHead]
  rw [trace]
  exact ⟨_, ⟨fun ms => (runSeq_readCell first.fire first.sda hscl hsda hbit hbyte).trans (runSeq_cons_done rfl),
    first.moves.trans (.trans ⟨_, _, _, _, _, _, _, rfl⟩ (wireMoves_pause _ _))⟩, rfl, accumulate_toNat hbyte⟩

/-- The cells of the bits `is` of a byte written, with `ks` poll delays (R110). -/
theorem writeBits_happen {c : Conf} (is : List Nibble) : ∀ (ks : List Nat) (s : State) (rest : List Level),
    ks.length = is.length → s.conf = c → (∀ k ∈ ks, k ≤ c.tBitTo.toNat) → s.eng.acc.toNat + ks.sum ≤ c.tByteTo.toNat →
      s.env.scl = stretched ks ++ rest →
      ∃ t, Happen (is.flatMap fun i => writeCell (.nextWrite i)) s t
          (List.zipWith (writeCellTrace c) ks (is.map (srBit s.eng.sr))).flatten ∧
        t.env = { s.env with scl := rest } ∧ t.eng.acc.toNat = s.eng.acc.toNat + ks.sum ∧ t.eng.sr = s.eng.sr := by
  induction is with
  | nil =>
    intro ks s rest hlen _ _ _ hscl
    obtain rfl : ks = [] := List.length_eq_zero_iff.mp hlen
    obtain rfl : s.env.scl = rest := hscl
    exact ⟨s, .refl s, rfl, rfl, rfl⟩
  | cons i is ih =>
    rintro ks s rest hlen rfl hbit hsum hscl
    obtain ⟨k, ks, rfl⟩ : ∃ k ks', ks = k :: ks' := List.exists_cons_of_length_eq_add_one hlen
    obtain ⟨hk, hks⟩ := List.forall_mem_cons.mp hbit
    rw [List.sum_cons] at hsum ⊢
    rw [stretched_cons] at hscl
    obtain ⟨t, hcell, henv, hacc, hsr⟩ := writeCell_happens i hscl hk (by omega)
    obtain ⟨u, hcells, henv', hacc', hsr'⟩ := ih ks t rest (by simpa using hlen) hcell.moves.conf hks (by omega)
      (by rw [henv])
    rw [hsr] at hcells
    exact ⟨u, hcell.trans hcells, by rw [henv', henv], by omega, hsr'.trans hsr⟩

/-- The cells of the bits `is` of a byte read by RBYTE, with `ks` poll delays and SDA sampled as `vs` (R110). -/
theorem readBits_happen {c : Conf} (is : List Nibble) : ∀ (ks : List Nat) (vs : List Level) (s : State)
    (rest rest' : List Level), ks.length = is.length → vs.length = is.length → s.conf = c →
      (∀ k ∈ ks, k ≤ c.tBitTo.toNat) → s.eng.acc.toNat + ks.sum ≤ c.tByteTo.toNat →
      s.env.scl = stretched ks ++ rest → s.env.sda = vs ++ rest' →
      ∃ t, Happen (is.flatMap fun i => readCell (.nextRead i) (.hold .low)) s t
          (List.zipWith (readCellTrace c) ks vs).flatten ∧
        t.env = { s.env with scl := rest, sda := rest' } ∧ t.eng.acc.toNat = s.eng.acc.toNat + ks.sum := by
  induction is with
  | nil =>
    intro ks vs s rest rest' hlen hlen' _ _ _ hscl hsda
    obtain rfl : ks = [] := List.length_eq_zero_iff.mp hlen
    obtain rfl : vs = [] := List.length_eq_zero_iff.mp hlen'
    obtain rfl : s.env.scl = rest := hscl
    obtain rfl : s.env.sda = rest' := hsda
    exact ⟨s, .refl s, rfl, rfl⟩
  | cons i is ih =>
    rintro ks vs s rest rest' hlen hlen' rfl hbit hsum hscl hsda
    obtain ⟨k, ks, rfl⟩ : ∃ k ks', ks = k :: ks' := List.exists_cons_of_length_eq_add_one hlen
    obtain ⟨v, vs, rfl⟩ : ∃ v vs', vs = v :: vs' := List.exists_cons_of_length_eq_add_one hlen'
    obtain ⟨hk, hks⟩ := List.forall_mem_cons.mp hbit
    rw [List.sum_cons] at hsum ⊢
    rw [stretched_cons] at hscl
    obtain ⟨t, hcell, henv, hacc⟩ := readCell_happens i hscl hsda hk (by omega)
    obtain ⟨u, hcells, henv', hacc'⟩ := ih ks vs t rest rest' (by simpa using hlen) (by simpa using hlen')
      hcell.moves.conf hks (by omega) (by rw [henv]) (by rw [henv]; rfl)
    exact ⟨u, hcell.trans hcells, by rw [henv', henv], by omega⟩

/-! ### Some bits clocked, the next one not -/

/-- Only as many bits of a byte are on the trace as were clocked. -/
theorem zipWith_take_length {α β γ : Type} (f : α → β → γ) (xs : List α) (ys : List β) :
    List.zipWith f xs (ys.take xs.length) = List.zipWith f xs ys := by
  induction xs generalizing ys with
  | nil => rfl
  | cons x xs ih => cases ys <;> simp [ih]

/-- WBYTE and RBYTE of a configured block whose first `ks.length` bits are clocked, while the next bit's clock is held
low (R111 to R114). -/
theorem exec_byte_heldLow {s : State} {x : Byte} {ks : List Nat} {spent : Nat} {store rest : List Level}
    {new : List LineEvent} {y : Count} {d : Word} (hcfg : s.status.cfg = true) (hlen : ks.length < 8)
    (hbit : ∀ k ∈ ks, k ≤ s.conf.tBitTo.toNat) (hspent : ks.sum = spent) (hbyte : spent ≤ s.conf.tByteTo.toNat)
    (hlow : HoldsLow s.conf spent store rest new y) (hd : saturate y = d) (hscl : s.env.scl = stretched ks ++ store) :
    (∃ e : Engine, e.Settled s.eng ∧ e.KeepsFrameBytes s.eng ∧
      exec (.wbyte x) s = .next { s.withRecord .timeout d {} with
        sclO := true, sdaO := x.getLsbD (7 - ks.length)
        trace := s.trace ++ (writeByteTrace s.conf ks x ++ cellHead (x.getLsbD (7 - ks.length)) ++ new)
        env := { s.env with scl := rest }, eng := e }) ∧
    ∀ rest', s.env.sda = (wireBits x).take ks.length ++ rest' →
      ∃ e : Engine, e.Settled s.eng ∧ e.KeepsFrameBytes s.eng ∧
        exec .rbyte s = .next { s.withRecord .timeout d {} with
          sclO := true, sdaO := true
          trace := s.trace ++ (readByteTrace s.conf ks x ++ cellHead true ++ new)
          env := { s.env with scl := rest, sda := rest' }, eng := e } := by
  obtain ⟨is, i, is', hsplit, hlen', hnext, hbefore⟩ := bitIndices_split hlen
  subst hspent
  constructor
  · obtain ⟨t, hcells, henv, hacc, hsr⟩ := writeBits_happen is ks (s.beginCommand.beginByte x) store hlen'.symm rfl hbit
      (by simpa [State.beginByte] using hbyte) hscl
    have hrun := runSeq_writeByteSeq x [] s.beginCommand
    rw [List.append_nil, List.append_nil, hsplit, List.flatMap_append] at hrun
    have hcell := stopsLow_cell hlow (opensCell_nextWrite i t) hcells.moves.conf (by rw [henv])
      (hacc.trans (Nat.zero_add _))
    have hstop := StopsLow.of_runSeq hrun (wireMoves_beginByte x _) (hcells.stopsLow (hcell _))
    have hx : t.eng.sr = x := hsr
    have hbits : (s.beginCommand.beginByte x).eng.sr = x := rfl
    rw [hx, hnext, hbits, hbefore, zipWith_take_length, henv, List.nil_append, ← List.append_assoc] at hstop
    exact hstop.exec (isPrimitive_wbyte x) hcfg hd
  · intro rest' hsda
    obtain ⟨t, hcells, henv, hacc⟩ := readBits_happen is ks ((wireBits x).take ks.length)
      (s.beginCommand.beginByte 0#8) store rest' hlen'.symm (by simp [hlen', wireBits]; omega) rfl hbit
      (by simpa [State.beginByte] using hbyte) hscl hsda
    have hrun := runSeq_readByteSeq [] s.beginCommand
    rw [List.append_nil, List.append_nil, hsplit, List.flatMap_append] at hrun
    have hcell := stopsLow_cell hlow (opensCell_nextRead i t) hcells.moves.conf (by rw [henv])
      (hacc.trans (Nat.zero_add _))
    have hstop := StopsLow.of_runSeq hrun (wireMoves_beginByte 0#8 _) (hcells.stopsLow (hcell _))
    rw [zipWith_take_length, henv, List.nil_append, ← List.append_assoc] at hstop
    exact hstop.exec isPrimitive_rbyte hcfg hd

/-- Settles O22: the byte's budget is exceeded with the per-bit budget not yet spent. -/
theorem byteCommandsExceedTheByteBudget : Obligations.ByteCommandsExceedTheByteBudget := by
  intro s x ks j rest hcfg hlen hbit hsum hj hscl
  rw [List.append_assoc] at hscl
  exact exec_byte_heldLow hcfg hlen hbit rfl (by omega) (holdsLow_byte rest hj hsum) (saturate_overrun s.conf) hscl

/-- Settles O23: the per-bit budget is spent within the byte's. -/
theorem byteCommandsExceedTheBitBudget : Obligations.ByteCommandsExceedTheBitBudget := by
  intro s x ks rest hcfg hlen hbit hsum hscl
  rw [List.append_assoc] at hscl
  exact exec_byte_heldLow hcfg hlen hbit rfl (by omega) (holdsLow_bit rest hsum) (saturate_zeroExtend _) hscl

end Sys2Proof.Machine

/-! What bounded waits, bit cells and bytes do on every draw, and what they put on the trace (40_framing_engine.md R93,
R94; 41_serdes.md R107, R110, R111). -/

namespace Sys2Proof.Machine

/-! ### Poll delays and samples of a trace -/

theorem sclSamples_append (xs ys : List LineEvent) : sclSamples (xs ++ ys) = sclSamples xs + sclSamples ys := by
  induction xs with
  | nil => simp [sclSamples]
  | cons ev xs ih => cases ev <;> simp [sclSamples, ih, Nat.add_right_comm]

theorem sdaSamples_append (xs ys : List LineEvent) : sdaSamples (xs ++ ys) = sdaSamples xs ++ sdaSamples ys := by
  induction xs with
  | nil => rfl
  | cons ev xs ih => cases ev <;> simp [sdaSamples, ih]

/-- No low sample of SCL ends the trace, so that no delay after it is a poll delay (R93). -/
def Joins (xs : List LineEvent) : Prop := ∀ ys, pollDelays (xs ++ ys) = pollDelays xs + pollDelays ys

theorem Joins.append {xs ys : List LineEvent} (hx : Joins xs) (hy : Joins ys) : Joins (xs ++ ys) := fun zs => by
  rw [List.append_assoc, hx, hy, hx, Nat.add_assoc]

/-- The events of bounded waits: `k` low samples, each with its poll delay. -/
theorem overrunTrace_counts (k : Nat) : (∀ ys, pollDelays (overrunTrace k ++ ys) = k + pollDelays ys) ∧
    sclSamples (overrunTrace k) = k ∧ sdaSamples (overrunTrace k) = [] := by
  induction k with
  | zero => exact ⟨fun ys => (Nat.zero_add _).symm, rfl, rfl⟩
  | succ k ih =>
    obtain ⟨hpoll, hscl, hsda⟩ := ih
    rw [overrunTrace_succ]
    refine ⟨fun ys => ?_, ?_, hsda⟩
    · rw [List.append_assoc]
      exact (congrArg (· + 1) (hpoll ys)).trans (by omega)
    · exact congrArg (· + 1) hscl

theorem waitTrace_eq (k : Nat) : waitTrace k = overrunTrace k ++ [.sampleSCL true] := rfl

theorem stuckTrace_eq (k : Nat) : stuckTrace k = overrunTrace k ++ [.sampleSCL false] := rfl

/-! ### The bounded wait on every draw -/

/-- How a wait ends that does not see SCL high, with `n` µs of the per-bit budget and `spent` of the per-byte budget used
before it: its events and its elapsed time (R93). -/
inductive WaitFailure (c : Conf) (n spent : Nat) : List LineEvent → Count → Prop
  | bit (k : Nat) (hbit : n + k = c.tBitTo.toNat) (hbyte : spent + k ≤ c.tByteTo.toNat) :
    WaitFailure c n spent (stuckTrace k) (c.tBitTo.zeroExtend 33)
  | byte (k : Nat) (hbit : n + k < c.tBitTo.toNat) (hbyte : spent + k = c.tByteTo.toNat) :
    WaitFailure c n spent (overrunTrace (k + 1)) (c.tByteTo.zeroExtend 33 + 1#33)

/-- A low sample and its poll delay before the rest of a wait that fails. -/
theorem WaitFailure.poll {c : Conf} {n spent : Nat} {new : List LineEvent} {x : Count}
    (h : WaitFailure c (n + 1) (spent + 1) new x) :
    WaitFailure c n spent ([.sampleSCL false, .delay 1] ++ new) x := by
  cases h with
  | bit k hbit hbyte => exact .bit (k + 1) (by omega) (by omega)
  | byte k hbit hbyte => exact .byte (k + 1) (by omega) (by omega)

/-- The engine's shift register and bit index are those of `s`, and its accumulator holds `a`. -/
def Accumulated (s t : State) (a : Nat) : Prop :=
  t.eng.acc.toNat = a ∧ t.eng.sr = s.eng.sr ∧ t.eng.i = s.eng.i

/-- The wait sees SCL high after `k` poll delays, with both budgets kept, or fails (R93, R94). -/
def WaitEnds (f : FailAs) (s : State) (r : Ran) : Prop :=
  (∃ k t, r = .ok t ∧ WireMoves s t (waitTrace k) ∧ s.eng.n.toNat + k ≤ s.conf.tBitTo.toNat ∧
    s.eng.acc.toNat + s.eng.n.toNat + k ≤ s.conf.tByteTo.toNat ∧
    Accumulated s t (s.eng.acc.toNat + s.eng.n.toNat + k)) ∨
  ∃ new x t, r = .failed (t.keepFailure (f.failure x)) ∧ WireMoves s t new ∧
    WaitFailure s.conf s.eng.n.toNat (s.eng.acc.toNat + s.eng.n.toNat) new x

/-- A low sample and its poll delay before the rest of a wait. -/
theorem WaitEnds.poll {f : FailAs} {s t : State} {r : Ran} (hmoves : WireMoves s t [.sampleSCL false, .delay 1])
    (hn : t.eng.n.toNat = s.eng.n.toNat + 1) (hacc : Accumulated s t s.eng.acc.toNat) (h : WaitEnds f t r) :
    WaitEnds f s r := by
  obtain ⟨hacc, hsr, hi⟩ := hacc
  obtain ⟨k, u, rfl, hu, hbit, hbyte, hacc', hsr', hi'⟩ | ⟨new, x, u, rfl, hu, hfail⟩ := h
  · rw [hmoves.conf] at hbit hbyte
    refine .inl ⟨k + 1, u, rfl, ?_, by omega, by omega, by omega, hsr'.trans hsr, hi'.trans hi⟩
    rw [waitTrace_succ]
    exact hmoves.trans hu
  · rw [hmoves.conf, hn, hacc] at hfail
    exact .inr ⟨_, x, u, rfl, hmoves.trans hu, hfail.poll⟩

/-- THE BOUNDED WAIT on every draw (R93, R94). -/
theorem runMicro_wait_ends (f : FailAs) (fuel : Nat) : ∀ s : State, s.eng.n.toNat ≤ s.conf.tBitTo.toNat →
    s.eng.acc.toNat + s.eng.n.toNat ≤ s.conf.tByteTo.toNat → 2 * (s.conf.tBitTo.toNat - s.eng.n.toNat) + 1 ≤ fuel →
    WaitEnds f s (runMicro fuel (.wait f) s) := by
  induction fuel using Nat.strong_induction_on with
  | h fuel ih =>
    intro s hbit hbyte hfuel
    obtain ⟨fuel, rfl⟩ : ∃ m, fuel = m + 1 := ⟨fuel - 1, by omega⟩
    have hb := s.conf.tBitTo.isLt
    have hb' := s.conf.tByteTo.isLt
    obtain ⟨v, e, h⟩ := sampleSCL_spec s
    cases v with
    | true =>
      refine .inl ⟨0, { s with
        env := e, trace := s.trace ++ [.sampleSCL true], eng := { s.eng with acc := s.eng.acc + s.eng.n } }, ?_,
        ⟨_, _, _, _, _, _, _, rfl⟩, hbit, hbyte, count_add_toNat (by omega), rfl, rfl⟩
      simp only [runMicro, fire, poll, h, State.setEng]
    | false =>
      have budget : s.conf.tBitTo.zeroExtend 33 ≤ s.eng.n ↔ s.conf.tBitTo.toNat ≤ s.eng.n.toNat := by
        rw [BitVec.le_def, zeroExtend_word_toNat]
      by_cases hn : s.conf.tBitTo.toNat ≤ s.eng.n.toNat
      · have hspent : s.conf.tBitTo.zeroExtend 33 = s.eng.n :=
          BitVec.eq_of_toNat_eq (by rw [zeroExtend_word_toNat]; omega)
        have hfail : fire (.wait f) s = .failed (({ s with
            env := e, trace := s.trace ++ [.sampleSCL false] } : State).keepFailure (f.failure s.eng.n)) := by
          simp only [fire, poll, h, if_pos (budget.mpr hn)]
        exact .inr ⟨_, _, { s with env := e, trace := s.trace ++ [.sampleSCL false] },
          by rw [runMicro, hfail, hspent], ⟨_, _, _, _, _, _, _, rfl⟩, .bit 0 (by omega) hbyte⟩
      · have hlow : fire (.wait f) s =
            .again (.pollDelay f) { s with env := e, trace := s.trace ++ [.sampleSCL false] } := by
          simp only [fire, poll, h, if_neg (fun h => hn (budget.mp h))]
        have htick : s.eng.tick.n.toNat = s.eng.n.toNat + 1 :=
          count_add_toNat (y := 1#33) (by simp only [BitVec.toNat_ofNat]; omega)
        have moves : WireMoves s { s with
            env := e, trace := s.trace ++ [.sampleSCL false] ++ [.delay 1], eng := s.eng.tick }
            ([.sampleSCL false] ++ [.delay 1]) :=
          .trans (t := { s with env := e, trace := s.trace ++ [.sampleSCL false] })
            ⟨_, _, _, _, _, _, _, rfl⟩ ⟨_, _, _, _, _, _, _, rfl⟩
        obtain ⟨fuel, rfl⟩ : ∃ m, fuel = m + 1 := ⟨fuel - 1, by omega⟩
        simp only [runMicro, hlow]
        by_cases hover : s.eng.acc.toNat + s.eng.n.toNat + 1 ≤ s.conf.tByteTo.toNat
        · rw [fire_pollDelay_within (by exact hover)]
          refine .poll moves htick ⟨rfl, rfl, rfl⟩ (ih fuel (by omega) _ ?_ ?_ ?_)
          · simp only [htick]; omega
          · simp only [htick]; exact hover
          · simp only [htick]; omega
        · have hsum : s.conf.tByteTo.zeroExtend 33 + 1#33 = s.eng.acc + s.eng.tick.n := by
            refine BitVec.eq_of_toNat_eq ?_
            rw [count_add_toNat, count_add_toNat] <;> simp only [htick, zeroExtend_word_toNat, BitVec.toNat_ofNat] <;>
              omega
          rw [fire_pollDelay_over (by simp only []; omega) (by simp only []; omega), ← hsum]
          exact .inr ⟨_, _, _, rfl, moves, .byte 0 (by omega) (by omega)⟩

/-- The line events `ms` stop at the failure `x`, whatever comes after them: `new` is on the trace before it. -/
structure Stops (ms : List Micro) (s t : State) (new : List LineEvent) (x : Failure) : Prop where
  run (ms' : List Micro) : runSeq (ms ++ ms') s = .failed (t.keepFailure x)
  moves : WireMoves s t new

theorem Happen.stops {ms ms' : List Micro} {s t u : State} {xs ys : List LineEvent} {x : Failure}
    (h : Happen ms s t xs) (k : Stops ms' t u ys x) : Stops (ms ++ ms') s u (xs ++ ys) x :=
  ⟨fun more => by rw [List.append_assoc, h.run, k.run], h.moves.trans k.moves⟩

theorem Stops.append {ms : List Micro} {s t : State} {new : List LineEvent} {x : Failure} (h : Stops ms s t new x)
    (ms' : List Micro) : Stops (ms ++ ms') s t new x :=
  ⟨fun more => by rw [List.append_assoc, h.run], h.moves⟩

/-- One engine step that is done is a sequence that happens. -/
theorem Happen.single {m : Micro} {s t : State} {new : List LineEvent} (hfire : fire m s = .done t)
    (hmoves : WireMoves s t new) : Happen [m] s t new :=
  ⟨fun _ => runSeq_cons_done hfire, hmoves⟩

theorem happen_hold (p : Hold) (s : State) : Happen [.hold p] s (s.pause (p.us s.conf)) [.delay (p.us s.conf)] :=
  .single rfl (wireMoves_pause _ s)

theorem happen_driveSCL (v : Level) (s : State) : Happen [.driveSCL v] s (s.setSCL v) [.driveSCL v] :=
  .single rfl (wireMoves_setSCL v s)

/-- Release SCL and wait for it with `a` µs of the per-byte budget used, on every draw (R93, R107). -/
theorem release_ends (fresh : Bool) (f : FailAs) (s : State) {a : Nat}
    (ha : (if fresh then 0#33 else s.eng.acc).toNat = a) (hbyte : a ≤ s.conf.tByteTo.toNat) :
    (∃ k t, Happen [.releaseSCL fresh, .wait f] s t (.driveSCL true :: waitTrace k) ∧ k ≤ s.conf.tBitTo.toNat ∧
      a + k ≤ s.conf.tByteTo.toNat ∧ Accumulated s t (a + k)) ∨
    ∃ new x t, Stops [.releaseSCL fresh, .wait f] s t (.driveSCL true :: new) (f.failure x) ∧
      WaitFailure s.conf 0 a new x := by
  obtain ⟨t, hfire, hmoves, hn, hacc, hsr, hi⟩ : ∃ t, fire (.releaseSCL fresh) s = .done t ∧
      WireMoves s t [.driveSCL true] ∧ t.eng.n.toNat = 0 ∧ t.eng.acc.toNat = a ∧ t.eng.sr = s.eng.sr ∧
      t.eng.i = s.eng.i := ⟨_, rfl, ⟨_, _, _, _, _, _, _, rfl⟩, rfl, ha, rfl, rfl⟩
  have hconf := hmoves.conf
  have wait := runMicro_wait_ends f (waitFuel t) t (by omega) (by rw [hconf]; omega) (by rw [waitFuel]; omega)
  rw [WaitEnds, hn, hacc, hconf, Nat.add_zero] at wait
  obtain ⟨k, u, hu, humoves, hbit, hbyte, haccu, hsru, hiu⟩ | ⟨new, x, u, hu, humoves, hfail⟩ := wait
  · exact .inl ⟨k, u, ⟨fun _ => (runSeq_cons_done hfire).trans (runSeq_cons_ok hu), hmoves.trans humoves⟩, by omega,
      hbyte, haccu, hsru.trans hsr, hiu.trans hi⟩
  · exact .inr ⟨new, x, u, ⟨fun _ => (runSeq_cons_done hfire).trans (runSeq_cons_stopped hu), hmoves.trans humoves⟩,
      hfail⟩

/-! ### Bit cells on every draw -/

/-- The line events of a bit cell up to the end of its wait, which are the same for a bit written and a bit read
(R107). -/
def cellStart (first : Micro) : List Micro := [first, .hold .setup, .releaseSCL false, .wait .timeout]

/-- The line events of a read cell after its wait, but for its last (R107). -/
def readCellEnd : List Micro := [.hold .halfHigh, .sampleBit, .hold .restHigh, .driveSCL false]

/-- The line events of a write cell after its wait (R107). -/
def writeCellEnd : List Micro := [.hold .high, .driveSCL false, .hold .low]

/-- A bit cell up to the end of its wait, on every draw. -/
theorem cellStart_ends {first : Micro} {s t : State} {b : Level} (h : OpensCell first s t b)
    (hbyte : t.eng.acc.toNat ≤ s.conf.tByteTo.toNat) :
    (∃ k u, Happen (cellStart first) s u (cellHead b ++ waitTrace k) ∧ k ≤ s.conf.tBitTo.toNat ∧
      t.eng.acc.toNat + k ≤ s.conf.tByteTo.toNat ∧ Accumulated t u (t.eng.acc.toNat + k)) ∨
    ∃ new x u, Stops (cellStart first) s u (cellHead b ++ new) (FailAs.timeout.failure x) ∧
      WaitFailure s.conf 0 t.eng.acc.toNat new x := by
  have hconf := h.moves.conf
  have start := (Happen.single h.fire h.moves).trans (happen_hold .setup t)
  have wait := release_ends false .timeout (t.pause (Hold.setup.us t.conf)) (a := t.eng.acc.toNat) rfl
    (by simpa [hconf] using hbyte)
  rw [State.pause_conf, hconf] at wait
  obtain ⟨k, u, hu, hbit, hbyte, hacc⟩ | ⟨new, x, u, hu, hfail⟩ := wait
  · exact .inl ⟨k, u, start.trans hu, hbit, hbyte, hacc⟩
  · exact .inr ⟨new, x, u, start.stops hu, hfail⟩

/-- The end of a write cell. -/
theorem writeCellEnd_happens (s : State) : ∃ t us us', Happen writeCellEnd s t [.delay us, .driveSCL false, .delay us'] ∧
    Accumulated s t s.eng.acc.toNat :=
  ⟨_, _, _, (happen_hold .high s).trans ((happen_driveSCL false _).trans (happen_hold .low _)), rfl, rfl, rfl⟩

/-- The end of a read cell, whose sample goes to the shift register (R107, R110). -/
theorem readCellEnd_happens (s : State) : ∃ t v us us',
    Happen readCellEnd s t [.delay us, .sampleSDA v, .delay us', .driveSCL false] ∧
      t.eng.acc = s.eng.acc ∧ t.eng.sr = setSrBit s.eng.sr s.eng.i v := by
  obtain ⟨v, e, h⟩ := sampleSDA_spec (s.pause (Hold.halfHigh.us s.conf))
  have sample : Happen [.sampleBit] (s.pause (Hold.halfHigh.us s.conf)) _ [.sampleSDA v] :=
    .single (by simp only [fire, h]; rfl) ⟨_, _, _, _, _, _, _, rfl⟩
  exact ⟨_, v, _, _, (happen_hold .halfHigh s).trans (sample.trans ((happen_hold .restHigh _).trans
    (happen_driveSCL false _))), rfl, rfl⟩

/-! ### Bit cells with one accumulator, on every draw -/

/-- What the cells of the bits `is`, with one accumulator, do from `s` to `t` when every clock rises: their waits share
the per-byte budget (R111), and cells that are read put their samples into the shift register (R110). -/
structure AllClocked (sampled : Bool) (is : List Nibble) (s t : State) (new : List LineEvent) : Prop where
  joins : Joins new
  delays : pollDelays new ≤ is.length * s.conf.tBitTo.toNat
  samples : sclSamples new = pollDelays new + is.length
  acc : t.eng.acc.toNat = s.eng.acc.toNat + pollDelays new
  byte : t.eng.acc.toNat ≤ s.conf.tByteTo.toNat
  bits : (sdaSamples new).length = if sampled then is.length else 0
  sr : t.eng.sr = (is.zip (sdaSamples new)).foldl (fun x p => setSrBit x p.1 p.2) s.eng.sr

/-- What the cells of the bits `is` have done from `s` when a clock did not rise, at the failure `x`. -/
structure SomeClocked (sampled : Bool) (is : List Nibble) (s : State) (new : List LineEvent) (x : Failure) : Prop where
  delays : pollDelays new ≤ is.length * s.conf.tBitTo.toNat
  samples : sclSamples new ≤ pollDelays new + is.length
  byte : s.eng.acc.toNat + pollDelays new ≤ s.conf.tByteTo.toNat + 1
  byteSamples : s.eng.acc.toNat + sclSamples new ≤ s.conf.tByteTo.toNat + is.length
  bits : (sdaSamples new).length < if sampled then is.length else 1
  failure : x = ⟨.timeout, s.conf.tBitTo⟩ ∨ x = ⟨.timeout, overrunDetail s.conf⟩ ∧
    s.conf.tByteTo.toNat < s.eng.acc.toNat + is.length * s.conf.tBitTo.toNat

theorem AllClocked.refl (sampled : Bool) {s : State} (h : s.eng.acc.toNat ≤ s.conf.tByteTo.toNat) :
    AllClocked sampled [] s s [] where
  joins _ := (Nat.zero_add _).symm
  delays := Nat.zero_le _
  samples := rfl
  acc := rfl
  byte := h
  bits := by cases sampled <;> rfl
  sr := rfl

theorem AllClocked.trans {sampled : Bool} {is is' : List Nibble} {s t u : State} {xs ys : List LineEvent}
    (h : AllClocked sampled is s t xs) (k : AllClocked sampled is' t u ys) (hconf : t.conf = s.conf) :
    AllClocked sampled (is ++ is') s u (xs ++ ys) := by
  obtain ⟨joins, delays, samples, acc, byte, bits, sr⟩ := h
  obtain ⟨joins', delays', samples', acc', byte', bits', sr'⟩ := k
  rw [hconf] at delays' byte'
  refine ⟨joins.append joins', ?_, ?_, ?_, byte', ?_, ?_⟩
  · rw [joins, List.length_append, Nat.add_mul]
    omega
  · rw [joins, sclSamples_append, List.length_append]
    omega
  · rw [joins]
    omega
  · rw [sdaSamples_append, List.length_append, List.length_append, bits, bits']
    cases sampled <;> rfl
  · rw [sdaSamples_append, sr', sr, ← List.foldl_append]
    cases sampled with
    | true => rw [List.zip_append bits.symm]
    | false =>
      rw [List.length_eq_zero_iff.mp bits, List.length_eq_zero_iff.mp bits']
      simp

/-- Cells whose clocks rise before one whose clock does not. -/
theorem AllClocked.some {sampled : Bool} {is is' : List Nibble} {s t : State} {xs ys : List LineEvent} {x : Failure}
    (h : AllClocked sampled is s t xs) (k : SomeClocked sampled is' t ys x) (hconf : t.conf = s.conf) :
    SomeClocked sampled (is ++ is') s (xs ++ ys) x := by
  obtain ⟨joins, delays, samples, acc, byte, bits, -⟩ := h
  obtain ⟨delays', samples', byte', byteSamples', bits', failure'⟩ := k
  rw [hconf] at delays' byte' byteSamples' failure'
  refine ⟨?_, ?_, ?_, ?_, ?_, failure'.imp_right fun ⟨hx, hlt⟩ => ⟨hx, ?_⟩⟩
  · rw [joins, List.length_append, Nat.add_mul]
    omega
  · rw [joins, sclSamples_append, List.length_append]
    omega
  · rw [joins]
    omega
  · rw [sclSamples_append, List.length_append]
    omega
  · rw [sdaSamples_append, List.length_append, List.length_append, bits]
    cases sampled <;> simp only [Bool.false_eq_true, if_true, if_false] at bits' ⊢ <;> omega
  · rw [List.length_append, Nat.add_mul]
    omega

/-- More cells that are not reached. -/
theorem SomeClocked.append {sampled : Bool} {is : List Nibble} {s : State} {new : List LineEvent} {x : Failure}
    (h : SomeClocked sampled is s new x) (is' : List Nibble) : SomeClocked sampled (is ++ is') s new x := by
  obtain ⟨delays, samples, byte, byteSamples, bits, failure⟩ := h
  have hlen : is.length ≤ (is ++ is').length := by simp
  have hmul := Nat.mul_le_mul_right s.conf.tBitTo.toNat hlen
  refine ⟨by omega, by omega, byte, by omega, ?_, failure.imp_right fun ⟨hx, hlt⟩ => ⟨hx, by omega⟩⟩
  cases sampled <;> simp only [Bool.false_eq_true, if_true, if_false] at bits ⊢ <;> omega

/-- The line events `ms` are the cells of the bits `is`: on every draw their clocks rise, or one does not. -/
def Clocks (sampled : Bool) (is : List Nibble) (ms : List Micro) (s : State) : Prop :=
  (∃ t new, Happen ms s t new ∧ AllClocked sampled is s t new) ∨
    ∃ t new x, Stops ms s t new x ∧ SomeClocked sampled is s new x

theorem Clocks.append {sampled : Bool} {is is' : List Nibble} {ms ms' : List Micro} {s : State}
    (h : Clocks sampled is ms s)
    (k : ∀ t, t.eng.acc.toNat ≤ t.conf.tByteTo.toNat → Clocks sampled is' ms' t) :
    Clocks sampled (is ++ is') (ms ++ ms') s := by
  obtain ⟨t, xs, hrun, hall⟩ | ⟨t, xs, x, hrun, hsome⟩ := h
  · have hconf := hrun.moves.conf
    obtain ⟨u, ys, hrun', hall'⟩ | ⟨u, ys, x, hrun', hsome⟩ := k t (by rw [hconf]; exact hall.byte)
    · exact .inl ⟨u, _, hrun.trans hrun', hall.trans hall' hconf⟩
    · exact .inr ⟨u, _, x, hrun.stops hrun', hall.some hsome hconf⟩
  · exact .inr ⟨t, xs, x, hrun.append ms', hsome.append is'⟩

/-- The cells of several bits, from those of one bit. -/
theorem clocks_flatMap {sampled : Bool} {cell : Nibble → List Micro}
    (h : ∀ i t, t.eng.acc.toNat ≤ t.conf.tByteTo.toNat → Clocks sampled [i] (cell i) t) (is : List Nibble) :
    ∀ s : State, s.eng.acc.toNat ≤ s.conf.tByteTo.toNat → Clocks sampled is (is.flatMap cell) s := by
  induction is with
  | nil => exact fun s hs => .inl ⟨s, [], .refl s, .refl sampled hs⟩
  | cons i is ih => exact fun s hs => (h i s hs).append ih

/-- The poll delays and samples of a cell whose clock rises: those of its wait. -/
theorem cell_counts (b : Level) (k : Nat) (ys : List LineEvent) :
    pollDelays (cellHead b ++ waitTrace k ++ ys) = k + pollDelays ys ∧
      sclSamples (cellHead b ++ waitTrace k ++ ys) = k + 1 + sclSamples ys ∧
      sdaSamples (cellHead b ++ waitTrace k ++ ys) = sdaSamples ys := by
  obtain ⟨delays, samples, bits⟩ := overrunTrace_counts k
  rw [List.append_assoc, waitTrace_eq, List.append_assoc]
  refine ⟨delays _, ?_, ?_⟩
  · rw [sclSamples_append, sclSamples_append, samples]
    simp only [cellHead, sclSamples, List.cons_append, List.nil_append]
    omega
  · rw [sdaSamples_append, sdaSamples_append, bits]
    rfl

/-- The events and the elapsed time of a wait that fails, counted (R94). -/
theorem WaitFailure.counts {c : Conf} {a : Nat} {new : List LineEvent} {x : Count} (h : WaitFailure c 0 a new x) :
    pollDelays new ≤ c.tBitTo.toNat ∧ sclSamples new ≤ pollDelays new + 1 ∧
      a + pollDelays new ≤ c.tByteTo.toNat + 1 ∧ a + sclSamples new ≤ c.tByteTo.toNat + 1 ∧ sdaSamples new = [] ∧
      (saturate x = c.tBitTo ∨ saturate x = overrunDetail c ∧ c.tByteTo.toNat < a + c.tBitTo.toNat) := by
  cases h with
  | bit k hbit hbyte =>
    obtain ⟨delays, samples, bits⟩ := overrunTrace_counts k
    rw [stuckTrace_eq, sclSamples_append, sdaSamples_append, delays, samples, bits]
    simp only [pollDelays, sclSamples, sdaSamples]
    exact ⟨by omega, by omega, by omega, by omega, rfl, .inl (saturate_zeroExtend _)⟩
  | byte k hbit hbyte =>
    obtain ⟨delays, samples, bits⟩ := overrunTrace_counts (k + 1)
    have hdelays := delays []
    rw [List.append_nil] at hdelays
    rw [samples, bits, hdelays]
    simp only [pollDelays]
    exact ⟨by omega, by omega, by omega, by omega, trivial, .inr ⟨saturate_overrun c, by omega⟩⟩

/-- A cell whose wait fails. -/
theorem WaitFailure.someClocked {s : State} {a : Nat} {new : List LineEvent} {x : Count} (ha : s.eng.acc.toNat = a)
    (h : WaitFailure s.conf 0 a new x) (sampled : Bool) (i : Nibble) (b : Level) :
    SomeClocked sampled [i] s (cellHead b ++ new) (FailAs.timeout.failure x) := by
  subst ha
  obtain ⟨delays, samples, byte, byteSamples, bits, detail⟩ := h.counts
  have hdelays : pollDelays (cellHead b ++ new) = pollDelays new := rfl
  have hsamples : sclSamples (cellHead b ++ new) = sclSamples new := rfl
  have hbits : sdaSamples (cellHead b ++ new) = [] := bits
  refine ⟨?_, ?_, ?_, ?_, ?_, ?_⟩
  · rwa [hdelays, List.length_singleton, Nat.one_mul]
  · rwa [hdelays, hsamples]
  · rwa [hdelays]
  · rwa [hsamples]
  · rw [hbits]
    cases sampled <;> exact Nat.one_pos
  · rw [List.length_singleton, Nat.one_mul]
    exact detail.imp (congrArg (Failure.mk .timeout)) (.imp_left (congrArg (Failure.mk .timeout)))

/-- A cell whose clock rises: `tail` is what follows its wait. -/
theorem allClocked_cell {s u : State} {k : Nat} {i : Nibble} {sampled : Bool} {tail : List LineEvent} (b : Level)
    (hbit : k ≤ s.conf.tBitTo.toNat) (hbyte : s.eng.acc.toNat + k ≤ s.conf.tByteTo.toNat)
    (hacc : u.eng.acc.toNat = s.eng.acc.toNat + k) (hdelays : pollDelays tail = 0) (hjoins : Joins tail)
    (hsamples : sclSamples tail = 0) (hbits : (sdaSamples tail).length = if sampled then 1 else 0)
    (hsr : u.eng.sr = ([i].zip (sdaSamples tail)).foldl (fun x p => setSrBit x p.1 p.2) s.eng.sr) :
    AllClocked sampled [i] s u (cellHead b ++ waitTrace k ++ tail) := by
  obtain ⟨delays, samples, bits⟩ := cell_counts b k tail
  refine ⟨fun ys => ?_, ?_, ?_, ?_, ?_, ?_, ?_⟩
  · rw [List.append_assoc, (cell_counts b k _).1, hjoins, delays]
    omega
  · rw [delays, hdelays, List.length_singleton]
    omega
  · rw [delays, samples, hdelays, hsamples, List.length_singleton]
  · rw [delays, hdelays, hacc, Nat.add_zero]
  · omega
  · rwa [bits]
  · rwa [bits]

theorem clocks_writeCell (i : Nibble) (s : State) (hs : s.eng.acc.toNat ≤ s.conf.tByteTo.toNat) :
    Clocks false [i] (writeCell (.nextWrite i)) s := by
  obtain ⟨k, t, hstart, hbit, hbyte, hacc, hsr, -⟩ | ⟨new, x, t, hstart, hfail⟩ :=
    cellStart_ends (opensCell_nextWrite i s) hs
  · obtain ⟨u, us, us', hend, hacc', hsr', -⟩ := writeCellEnd_happens t
    exact .inl ⟨u, _, hstart.trans hend, allClocked_cell _ hbit hbyte (hacc'.trans hacc) rfl (fun _ => (Nat.zero_add _).symm) rfl rfl
      (hsr'.trans hsr)⟩
  · exact .inr ⟨t, _, _, hstart.append writeCellEnd, hfail.someClocked rfl false i _⟩

/-- A read cell but for its last event. -/
theorem clocks_readCell (i : Nibble) (s : State) (hs : s.eng.acc.toNat ≤ s.conf.tByteTo.toNat) :
    Clocks true [i] (cellStart (.nextRead i) ++ readCellEnd) s := by
  obtain ⟨k, t, hstart, hbit, hbyte, hacc, hsr, hi⟩ | ⟨new, x, t, hstart, hfail⟩ :=
    cellStart_ends (opensCell_nextRead i s) hs
  · obtain ⟨u, v, us, us', hend, hacc', hsr'⟩ := readCellEnd_happens t
    refine .inl ⟨u, _, hstart.trans hend, allClocked_cell _ hbit hbyte ?_ rfl (fun _ => (Nat.zero_add _).symm) rfl rfl ?_⟩
    · rw [hacc', hacc]
      rfl
    · rw [hsr', hsr, hi]
      rfl
  · exact .inr ⟨t, _, _, hstart.append readCellEnd, hfail.someClocked rfl true i _⟩

/-- The delay that ends a read cell. -/
theorem AllClocked.hold {sampled : Bool} {is : List Nibble} {s t : State} {new : List LineEvent}
    (h : AllClocked sampled is s t new) (us : Nat) : AllClocked sampled is s (t.pause us) (new ++ [.delay us]) := by
  obtain ⟨joins, delays, samples, acc, byte, bits, sr⟩ := h
  have hdelays : pollDelays (new ++ [.delay us]) = pollDelays new := joins _
  have hsamples : sclSamples (new ++ [.delay us]) = sclSamples new := sclSamples_append _ _
  have hbits : sdaSamples (new ++ [.delay us]) = sdaSamples new := by
    rw [sdaSamples_append]
    exact List.append_nil _
  refine ⟨joins.append fun _ => (Nat.zero_add _).symm, ?_, ?_, ?_, byte, ?_, ?_⟩
  · rwa [hdelays]
  · rwa [hdelays, hsamples]
  · rwa [hdelays]
  · rwa [hbits]
  · rwa [hbits]

theorem Clocks.hold {sampled : Bool} {is : List Nibble} {ms : List Micro} {s : State} (h : Clocks sampled is ms s)
    (p : Hold) : Clocks sampled is (ms ++ [.hold p]) s := by
  obtain ⟨t, new, hrun, hall⟩ | ⟨t, new, x, hrun, hsome⟩ := h
  · exact .inl ⟨_, _, hrun.trans (happen_hold p t), hall.hold _⟩
  · exact .inr ⟨t, new, x, hrun.append _, hsome⟩

/-! ### Bytes and single bits on every draw -/

/-- The line events `ms` begin with `x` in the shift register and a fresh accumulator, then are the cells `cells`. -/
def Begins (x : Byte) (ms cells : List Micro) : Prop :=
  ∀ more s, runSeq (ms ++ more) s = runSeq (cells ++ more) (s.beginByte x)

/-- The line events `ms` are the cells of the bits `is`, with `x` in the shift register and a fresh accumulator: on every
draw their clocks rise, or one does not. -/
def IsBits (sampled : Bool) (is : List Nibble) (x : Byte) (ms : List Micro) : Prop :=
  ∀ s : State, (∃ t new, Happen ms s t new ∧ AllClocked sampled is (s.beginByte x) t new) ∨
    ∃ t new y, Stops ms s t new y ∧ SomeClocked sampled is (s.beginByte x) new y

theorem isBits_of_begins {sampled : Bool} {is : List Nibble} {x : Byte} {ms cells : List Micro}
    (hbegin : Begins x ms cells) (h : ∀ s : State, Clocks sampled is cells (s.beginByte x)) : IsBits sampled is x ms := by
  intro s
  have start := wireMoves_beginByte x s
  obtain ⟨t, new, hrun, hall⟩ | ⟨t, new, y, hrun, hsome⟩ := h s
  · exact .inl ⟨t, new, ⟨fun more => (hbegin more s).trans (hrun.run more), start.trans hrun.moves⟩, hall⟩
  · exact .inr ⟨t, new, y, ⟨fun more => (hbegin more s).trans (hrun.run more), start.trans hrun.moves⟩, hsome⟩

/-- The line events of a byte read, but for its last (R110). -/
def readByteBody : List Micro :=
  readCell (.openRead 7#4) (.hold .low) ++
    ([6#4, 5#4, 4#4, 3#4, 2#4, 1#4].flatMap fun i => readCell (.nextRead i) (.hold .low)) ++
    (cellStart (.nextRead 0#4) ++ readCellEnd)

/-- The line events of a single bit read, but for its last (R109). -/
def readBitBody : List Micro := cellStart (.openRead 0#4) ++ readCellEnd

theorem readByteSeq_eq (last : Micro) : readByteSeq last = readByteBody ++ [last] := rfl

theorem readBitSeq_eq (last : Micro) : readBitSeq last = readBitBody ++ [last] := rfl

theorem isBits_writeByte (x : Byte) : IsBits false bitIndices x (writeByteSeq x) :=
  isBits_of_begins (fun more s => runSeq_writeByteSeq x more s)
    fun _ => clocks_flatMap clocks_writeCell bitIndices _ (Nat.zero_le _)

theorem isBits_writeBit (x : Byte) : IsBits false [0#4] x (writeBitSeq x) :=
  isBits_of_begins (cells := writeCell (.nextWrite 0#4)) (fun _ _ => runSeq_cons_congr rfl rfl _) fun _ =>
    clocks_writeCell 0#4 _ (Nat.zero_le _)

theorem isBits_readByte : IsBits true bitIndices 0#8 readByteBody :=
  isBits_of_begins
    (cells := ([7#4, 6#4, 5#4, 4#4, 3#4, 2#4, 1#4].flatMap fun i => readCell (.nextRead i) (.hold .low)) ++
      (cellStart (.nextRead 0#4) ++ readCellEnd))
    (fun _ _ => runSeq_cons_congr rfl rfl _) fun _ =>
      (clocks_flatMap (fun i s hs => (clocks_readCell i s hs).hold .low) _ _ (Nat.zero_le _)).append
        (clocks_readCell 0#4)

theorem isBits_readBit : IsBits true [0#4] 0#8 readBitBody :=
  isBits_of_begins (cells := cellStart (.nextRead 0#4) ++ readCellEnd) (fun _ _ => runSeq_cons_congr rfl rfl _)
    fun _ => clocks_readCell 0#4 _ (Nat.zero_le _)

end Sys2Proof.Machine

/-! The poll delays, the samples of SCL and the failures of every command, on every draw (40_framing_engine.md R94, R96,
R97). -/

namespace Sys2Proof.Machine

/-! ### What a sequence of line events can spend -/

/-- Line events `new` lead from `s` to `t`, which keeps the same failure and the configuration. -/
structure Extends (s t : State) (new : List LineEvent) : Prop where
  trace : t.trace = s.trace ++ new
  conf : t.conf = s.conf
  err : t.eng.err = s.eng.err

theorem Extends.trans {s t u : State} {xs ys : List LineEvent} (h : Extends s t xs) (k : Extends t u ys) :
    Extends s u (xs ++ ys) :=
  ⟨by rw [k.trace, h.trace, List.append_assoc], k.conf.trans h.conf, k.err.trans h.err⟩

theorem WireMoves.extends {s t : State} {new : List LineEvent} (h : WireMoves s t new) : Extends s t new := by
  obtain ⟨_, _, _, _, _, _, _, rfl⟩ := h
  exact ⟨rfl, rfl, rfl⟩

/-- What a frame has recorded: the SDA samples so far and the frame bytes of the engine (R31). -/
structure FrameLog where
  bits : List Level
  ctrl : Byte
  d : Byte
  c : Byte
  acked : BitVec 3

/-- The record that the engine holds, with the SDA samples so far. -/
def State.log (s : State) (bits : List Level) : FrameLog := ⟨bits, s.eng.ctrl, s.eng.d, s.eng.c, s.eng.acked⟩

/-- More SDA samples. -/
def FrameLog.sample (l : FrameLog) (vs : List Level) : FrameLog := { l with bits := l.bits ++ vs }

/-- A byte that a frame has received (R127). -/
def FrameLog.store (l : FrameLog) (dst : FrameByte) (x : Byte) : FrameLog :=
  match dst with
  | .d => { l with d := x }
  | .c => { l with c := x }

/-- An ACK that a frame has sampled, which WFRAME counts (R130). -/
def FrameLog.acknowledge (l : FrameLog) (counted : Bool) : FrameLog :=
  if counted then { l with acked := l.acked + 1#3 } else l

/-- The end of an ACK cycle in which `v` was sampled (R79, R127, R130). -/
theorem fire_closeAck (k : Nat) (counted : Bool) {s : State} {v : Level} (h : srBit s.eng.sr 0#4 = v) :
    ∃ t us, Extends s t [.delay us] ∧
      if v then fire (.closeAck k counted) s = .failed (t.keepFailure ⟨.nack, BitVec.ofNat 32 k⟩) ∧
        ∀ bits, t.log bits = s.log bits
      else fire (.closeAck k counted) s = .done t ∧ ∀ bits, t.log bits = (s.log bits).acknowledge counted := by
  have hfire : fire (.closeAck k counted) s = endAck k counted s := rfl
  have hpause : (s.pause (Hold.low.us s.conf)).eng = s.eng := rfl
  rw [hfire]
  cases v with
  | true =>
    refine ⟨s.pause (Hold.low.us s.conf), _, ⟨rfl, rfl, rfl⟩, ?_, fun _ => rfl⟩
    simp [endAck, h]
  | false =>
    cases counted with
    | true =>
      refine ⟨(s.pause (Hold.low.us s.conf)).setEng { s.eng with acked := s.eng.acked + 1#3 }, _, ⟨rfl, rfl, rfl⟩, ?_,
        fun _ => rfl⟩
      simp [endAck, h]
    | false =>
      refine ⟨s.pause (Hold.low.us s.conf), _, ⟨rfl, rfl, rfl⟩, ?_, fun _ => rfl⟩
      simp [endAck, h]

/-- On every draw `ms` has at most `d` poll delays and `w` samples of SCL, and it fails with one of `F` if at all. -/
def Spends (c : Conf) (ms : List Micro) (d w : Nat) (F : Failure → Prop) : Prop :=
  ∀ s : State, s.conf = c → ∃ t new, Extends s t new ∧ pollDelays new ≤ d ∧ sclSamples new ≤ w ∧
    (runSeq ms s = .ok t ∧ Joins new ∨ ∃ x, F x ∧ runSeq ms s = .failed (t.keepFailure x))

section
variable {c : Conf} {F : Failure → Prop}

theorem Spends.append {ms ms' : List Micro} {d d' w w' : Nat} (h : Spends c ms d w F) (k : Spends c ms' d' w' F) :
    Spends c (ms ++ ms') (d + d') (w + w') F := by
  intro s hs
  obtain ⟨t, xs, hext, hd, hw, ⟨hrun, hjoins⟩ | ⟨x, hx, hrun⟩⟩ := h s hs
  · obtain ⟨u, ys, hext', hd', hw', hend⟩ := k t (hext.conf.trans hs)
    refine ⟨u, xs ++ ys, hext.trans hext', ?_, ?_, ?_⟩
    · rw [hjoins]
      omega
    · rw [sclSamples_append]
      omega
    · rw [runSeq_append_ok hrun]
      exact hend.imp_left fun ⟨hrun', hjoins'⟩ => ⟨hrun', hjoins.append hjoins'⟩
  · exact ⟨t, xs, hext, by omega, by omega, .inr ⟨x, hx, runSeq_append_failed hrun⟩⟩

theorem Spends.mono {ms : List Micro} {d d' w w' : Nat} {F' : Failure → Prop} (h : Spends c ms d w F) (hd : d ≤ d')
    (hw : w ≤ w') (hF : ∀ x, F x → F' x) : Spends c ms d' w' F' := by
  intro s hs
  obtain ⟨t, new, hext, hd', hw', hend⟩ := h s hs
  exact ⟨t, new, hext, by omega, by omega, hend.imp_right fun ⟨x, hx, hrun⟩ => ⟨x, hF x hx, hrun⟩⟩

/-- A sub-operation that is one line event other than a sample of SCL, and never fails. -/
def Micro.instant : Micro → Bool
  | .driveSCL _ | .driveSDA _ | .hold _ | .sampleBit | .closeByte _ | .senseSDA => true
  | _ => false

/-- The line event is no sample of SCL. -/
theorem joins_singleton {ev : LineEvent} (h : sclSamples [ev] = 0) : Joins [ev] ∧ pollDelays [ev] = 0 := by
  cases ev with
  | sampleSCL v => cases h
  | _ => exact ⟨fun _ => (Nat.zero_add _).symm, rfl⟩

theorem fire_instant {m : Micro} (hm : m.instant = true) (s : State) :
    ∃ t ev, fire m s = .done t ∧ Extends s t [ev] ∧ sclSamples [ev] = 0 := by
  cases m with
  | driveSCL v | driveSDA v | hold p => exact ⟨_, _, rfl, ⟨rfl, rfl, rfl⟩, rfl⟩
  | closeByte dst => cases dst <;> exact ⟨_, _, rfl, ⟨rfl, rfl, rfl⟩, rfl⟩
  | sampleBit | senseSDA =>
    obtain ⟨v, e, h⟩ := sampleSDA_spec s
    simp only [fire, h]
    exact ⟨_, _, rfl, ⟨rfl, rfl, rfl⟩, rfl⟩
  | _ => cases hm

theorem spends_instants {ms : List Micro} (hms : ms.all Micro.instant = true) : Spends c ms 0 0 F := by
  induction ms with
  | nil =>
    exact fun s _ => ⟨s, [], ⟨by simp, rfl, rfl⟩, Nat.le_refl _, Nat.le_refl _,
      .inl ⟨rfl, fun _ => (Nat.zero_add _).symm⟩⟩
  | cons m ms ih =>
    obtain ⟨hm, hrest⟩ := Bool.and_eq_true_iff.mp hms
    have first : Spends c [m] 0 0 F := fun s _ => by
      obtain ⟨t, ev, hfire, hext, hsamples⟩ := fire_instant hm s
      obtain ⟨hjoins, hdelays⟩ := joins_singleton hsamples
      exact ⟨t, [ev], hext, hdelays.le, hsamples.le, .inl ⟨runSeq_cons_done hfire, hjoins⟩⟩
    exact first.append (ih hrest)

/-- The end of a frame's ACK cycle fails with `Nack` and the byte's number if at all (R127, R130). -/
theorem spends_closeAck (k : Nat) (counted : Bool) (hF : F ⟨.nack, BitVec.ofNat 32 k⟩) :
    Spends c [.closeAck k counted] 0 0 F := by
  intro s _
  obtain ⟨t, us, hext, hend⟩ := fire_closeAck k counted (s := s) rfl
  refine ⟨t, [.delay us], hext, Nat.le_refl _, Nat.le_refl _, ?_⟩
  cases hbit : srBit s.eng.sr 0#4 <;> rw [hbit] at hend <;> obtain ⟨hfire, -⟩ := hend
  · exact .inl ⟨runSeq_cons_done hfire, fun _ => (Nat.zero_add _).symm⟩
  · exact .inr ⟨_, hF, runSeq_cons_failed hfire⟩

/-- The two samples of the idle check (R143). -/
theorem spends_sense : Spends c senseSeq 0 1 F := by
  intro s _
  obtain ⟨l, e, hl⟩ := sampleSCL_spec s
  have first : ∃ t, fire .senseSCL s = .done t ∧ Extends s t [.sampleSCL l] := by
    simp only [fire, hl]
    exact ⟨_, rfl, rfl, rfl, rfl⟩
  obtain ⟨t, ht, hext⟩ := first
  obtain ⟨m, e', hm⟩ := sampleSDA_spec t
  have second : ∃ u, fire .senseSDA t = .done u ∧ Extends t u [.sampleSDA m] := by
    simp only [fire, hm]
    exact ⟨_, rfl, rfl, rfl, rfl⟩
  obtain ⟨u, hu, hext'⟩ := second
  refine ⟨u, _, hext.trans hext', ?_, Nat.le_refl _, .inl ⟨(runSeq_cons_done ht).trans (runSeq_cons_done hu), ?_⟩⟩
  · cases l <;> exact Nat.le_refl _
  · intro ys
    cases l <;> exact (Nat.zero_add _).symm

end

/-! ### The failures of a wait -/

/-- The failures of a wait with a fresh accumulator (R94): with a legal configuration, the per-bit budget spent. -/
def BitFailure (c : Conf) (f : FailAs) (x : Failure) : Prop :=
  ∃ y, x = f.failure y ∧ (saturate y = c.tBitTo ∨ saturate y = overrunDetail c ∧ c.tByteTo.toNat < c.tBitTo.toNat)

/-- The failures of a byte (R94): one of the two budgets spent. -/
def ByteFailure (c : Conf) (x : Failure) : Prop := x = ⟨.timeout, c.tBitTo⟩ ∨ x = ⟨.timeout, overrunDetail c⟩

theorem BitFailure.byteFailure {c : Conf} {x : Failure} (h : BitFailure c .timeout x) : ByteFailure c x := by
  obtain ⟨y, rfl, h | ⟨h, -⟩⟩ := h
  · exact .inl (congrArg (Failure.mk .timeout) h)
  · exact .inr (congrArg (Failure.mk .timeout) h)

theorem BitFailure.of_legal {c : Conf} (hc : ConfigLegal c) {x : Failure} (h : BitFailure c .timeout x) :
    x = ⟨.timeout, c.tBitTo⟩ := by
  obtain ⟨-, -, -, -, -, -, hle, -⟩ := hc
  obtain ⟨y, rfl, h | ⟨-, hlt⟩⟩ := h
  · exact congrArg (Failure.mk .timeout) h
  · omega

theorem spends_release (c : Conf) (f : FailAs) :
    Spends c [.releaseSCL true, .wait f] c.tBitTo.toNat (c.tBitTo.toNat + 1) (BitFailure c f) := by
  rintro s rfl
  obtain ⟨k, t, hrun, hbit, -, -⟩ | ⟨new, x, t, hrun, hfail⟩ := release_ends true f s (a := 0) rfl (Nat.zero_le _)
  · obtain ⟨delays, samples, -⟩ := overrunTrace_counts k
    have hdelays (ys : List LineEvent) : pollDelays (.driveSCL true :: waitTrace k ++ ys) = k + pollDelays ys := by
      rw [waitTrace_eq, List.cons_append, List.append_assoc]
      exact delays _
    have hzero := hdelays []
    rw [List.append_nil] at hzero
    have hsamples : sclSamples (.driveSCL true :: waitTrace k) = k + 1 := by
      rw [waitTrace_eq, sclSamples, sclSamples_append, samples]
      rfl
    refine ⟨t, _, hrun.moves.extends, ?_, ?_, .inl ⟨hrun.run [], fun ys => ?_⟩⟩
    · rw [hzero]
      exact hbit
    · rw [hsamples]
      omega
    · rw [hdelays, hzero]
      rfl
  · obtain ⟨delays, samples, -, -, -, detail⟩ := hfail.counts
    have hdelays : pollDelays (.driveSCL true :: new) = pollDelays new := rfl
    have hsamples : sclSamples (.driveSCL true :: new) = sclSamples new := rfl
    refine ⟨t, _, hrun.moves.extends, ?_, ?_, .inr ⟨_, ⟨x, rfl, ?_⟩, hrun.run []⟩⟩
    · rwa [hdelays]
    · rw [hsamples]
      omega
    · rwa [Nat.zero_add] at detail

/-! ### What the parts of a command can spend -/

section
variable {c : Conf}

theorem spends_start : Spends c startSeq c.tBitTo.toNat (c.tBitTo.toNat + 1) (BitFailure c .timeout) :=
  (((spends_instants (ms := [.driveSDA true]) rfl).append (spends_release c .timeout)).append
    (spends_instants (ms := [.hold .startHold, .driveSDA false, .driveSCL false, .hold .low]) rfl)).mono
    (by omega) (by omega) fun _ => id

theorem spends_stop (f : FailAs) : Spends c (stopSeq f) c.tBitTo.toNat (c.tBitTo.toNat + 1) (BitFailure c f) :=
  (((spends_instants (ms := [.driveSDA false, .hold .stopHold]) rfl).append (spends_release c f)).append
    (spends_instants (ms := [.hold .stopHold, .driveSDA true, .hold .stopHold]) rfl)).mono
    (by omega) (by omega) fun _ => id

theorem spends_pulse (p : Nat) : Spends c (pulseSeq p) c.tBitTo.toNat (c.tBitTo.toNat + 1) (BitFailure c (.stuck p)) :=
  ((spends_release c (.stuck p)).append (spends_instants (ms := [.hold .high, .driveSCL false, .hold .low]) rfl)).mono
    (by omega) (by omega) fun _ => id

/-- A byte: its waits share the per-byte budget (R111). -/
theorem IsBits.spends_byte {sampled : Bool} {x : Byte} {ms : List Micro} (h : IsBits sampled bitIndices x ms) :
    Spends c ms (c.tByteTo.toNat + 1) (c.tByteTo.toNat + 8) (ByteFailure c) := by
  rintro s rfl
  obtain ⟨t, new, hrun, hall⟩ | ⟨t, new, y, hrun, hsome⟩ := h s
  · obtain ⟨joins, delays, samples, acc, byte, -, -⟩ := hall
    have hspent : pollDelays new ≤ s.conf.tByteTo.toNat := by
      rw [acc] at byte
      exact (Nat.le_add_left _ _).trans byte
    have hrun' := hrun.run []
    rw [List.append_nil] at hrun'
    refine ⟨t, new, hrun.moves.extends, by omega, ?_, .inl ⟨hrun', joins⟩⟩
    rw [samples]
    exact Nat.add_le_add_right hspent 8
  · obtain ⟨-, -, byte, samples, -, failure⟩ := hsome
    have hrun' := hrun.run []
    rw [List.append_nil] at hrun'
    exact ⟨t, new, hrun.moves.extends, (Nat.le_add_left _ _).trans byte, (Nat.le_add_left _ _).trans samples,
      .inr ⟨y, failure.imp_right And.left, hrun'⟩⟩

/-- A single bit: its wait has a fresh accumulator. -/
theorem IsBits.spends_bit {sampled : Bool} {i : Nibble} {x : Byte} {ms : List Micro} (h : IsBits sampled [i] x ms) :
    Spends c ms c.tBitTo.toNat (c.tBitTo.toNat + 1) (BitFailure c .timeout) := by
  rintro s rfl
  obtain ⟨t, new, hrun, hall⟩ | ⟨t, new, y, hrun, hsome⟩ := h s
  · obtain ⟨joins, delays, samples, -, -, -, -⟩ := hall
    have hrun' := hrun.run []
    rw [List.append_nil] at hrun'
    rw [List.length_singleton, Nat.one_mul] at delays
    have hdelays : pollDelays new ≤ s.conf.tBitTo.toNat := delays
    refine ⟨t, new, hrun.moves.extends, hdelays, ?_, .inl ⟨hrun', joins⟩⟩
    rw [samples]
    exact Nat.add_le_add_right hdelays 1
  · obtain ⟨delays, samples, -, -, -, failure⟩ := hsome
    have hrun' := hrun.run []
    rw [List.append_nil] at hrun'
    rw [List.length_singleton, Nat.one_mul] at delays
    have hdelays : pollDelays new ≤ s.conf.tBitTo.toNat := delays
    refine ⟨t, new, hrun.moves.extends, hdelays, samples.trans (Nat.add_le_add_right hdelays 1), .inr ⟨y, ?_, hrun'⟩⟩
    have zero : (s.beginByte x).eng.acc.toNat = 0 := rfl
    obtain rfl | ⟨rfl, hlt⟩ := failure
    · exact ⟨_, congrArg (Failure.mk .timeout) (saturate_zeroExtend _).symm, .inl (saturate_zeroExtend _)⟩
    · refine ⟨_, congrArg (Failure.mk .timeout) (saturate_overrun _).symm, .inr ⟨saturate_overrun _, ?_⟩⟩
      rw [zero, List.length_singleton, Nat.one_mul, Nat.zero_add] at hlt
      exact hlt

theorem spends_writeByte (x : Byte) :
    Spends c (writeByteSeq x) (c.tByteTo.toNat + 1) (c.tByteTo.toNat + 8) (ByteFailure c) :=
  (isBits_writeByte x).spends_byte

theorem spends_readByte {last : Micro} (h : last.instant = true) :
    Spends c (readByteSeq last) (c.tByteTo.toNat + 1) (c.tByteTo.toNat + 8) (ByteFailure c) :=
  isBits_readByte.spends_byte.append (spends_instants (by simpa using h))

theorem spends_writeBit (x : Byte) :
    Spends c (writeBitSeq x) c.tBitTo.toNat (c.tBitTo.toNat + 1) (BitFailure c .timeout) :=
  (isBits_writeBit x).spends_bit

theorem spends_readBit {last : Micro} {F : Failure → Prop} (hF : ∀ x, BitFailure c .timeout x → F x)
    (h : Spends c [last] 0 0 F) : Spends c (readBitSeq last) c.tBitTo.toNat (c.tBitTo.toNat + 1) F :=
  (isBits_readBit.spends_bit.mono (Nat.le_refl _) (Nat.le_refl _) hF).append h

theorem spends_recover : Spends c recoverSeq (10 * c.tBitTo.toNat) (10 * (c.tBitTo.toNat + 1) + 1)
    (fun x => ∃ p, 1 ≤ p ∧ p ≤ 10 ∧ BitFailure c (.stuck p) x) := by
  have pulses (ps : List Nat) (hps : ∀ p ∈ ps, p < 9) : Spends c (ps.flatMap fun p => pulseSeq (p + 1))
      (ps.length * c.tBitTo.toNat) (ps.length * (c.tBitTo.toNat + 1))
      (fun x => ∃ p, 1 ≤ p ∧ p ≤ 10 ∧ BitFailure c (.stuck p) x) := by
    induction ps with
    | nil => exact spends_instants rfl |>.mono (by simp) (by simp) fun _ => id
    | cons p ps ih =>
      obtain ⟨hp, hrest⟩ := List.forall_mem_cons.mp hps
      exact (((spends_pulse (p + 1)).mono (Nat.le_refl _) (Nat.le_refl _)
        fun x hx => ⟨p + 1, by omega, by omega, hx⟩).append (ih hrest)).mono
        (by rw [List.length_cons, Nat.add_mul]; omega) (by rw [List.length_cons, Nat.add_mul]; omega) fun _ => id
  have stop := (spends_stop (c := c) (.stuck 10)).mono (Nat.le_refl _) (Nat.le_refl _)
    (F' := fun x => ∃ p, 1 ≤ p ∧ p ≤ 10 ∧ BitFailure c (.stuck p) x) fun x hx => ⟨10, by omega, by omega, hx⟩
  have head : Spends c [.driveSDA true] 0 0 (fun x => ∃ p, 1 ≤ p ∧ p ≤ 10 ∧ BitFailure c (.stuck p) x) :=
    spends_instants rfl
  exact (((head.append (pulses (List.range 9) fun p => List.mem_range.mp)).append stop).append spends_sense).mono
    (by rw [List.length_range]; omega) (by rw [List.length_range]; omega) fun _ => id

/-- The failures of a frame before its STOP: a budget spent, or a NACK after one of its first `n` bytes. -/
def FrameFailure (c : Conf) (n : Nat) (x : Failure) : Prop :=
  ByteFailure c x ∨ ∃ k < n, x = ⟨.nack, BitVec.ofNat 32 k⟩

theorem BitFailure.frameFailure {n : Nat} {x : Failure} (h : BitFailure c .timeout x) : FrameFailure c n x :=
  .inl h.byteFailure

theorem spends_frameAck {k n : Nat} (h : k < n) (counted : Bool) :
    Spends c (frameAckSeq k counted) c.tBitTo.toNat (c.tBitTo.toNat + 1) (FrameFailure c n) :=
  spends_readBit (fun _ => BitFailure.frameFailure) (spends_closeAck k counted (.inr ⟨k, h, rfl⟩))

/-- RFRAME before its STOP (R127). -/
theorem spends_readFrame (ctrl : Byte) : Spends c (readFrameSeq ctrl)
    (4 * c.tBitTo.toNat + 3 * (c.tByteTo.toNat + 1)) (4 * (c.tBitTo.toNat + 1) + 3 * (c.tByteTo.toNat + 8))
    (FrameFailure c 1) := by
  have start := (spends_start (c := c)).mono (Nat.le_refl _) (Nat.le_refl _) fun _ => BitFailure.frameFailure (n := 1)
  have sent (x : Byte) := (spends_writeByte (c := c) x).mono (Nat.le_refl _) (Nat.le_refl _)
    (F' := FrameFailure c 1) fun _ => .inl
  have received (dst : FrameByte) := (spends_readByte (c := c) (last := .closeByte dst) rfl).mono (Nat.le_refl _)
    (Nat.le_refl _) (F' := FrameFailure c 1) fun _ => .inl
  have acked (a : Byte) := (spends_writeBit (c := c) (ackOperand a)).mono (Nat.le_refl _) (Nat.le_refl _)
    fun _ => BitFailure.frameFailure (n := 1)
  exact ((((((start.append (sent ctrl)).append (spends_frameAck Nat.one_pos false)).append (received .d)).append
    (acked 1#8)).append (received .c)).append (acked 0#8)).mono (by omega) (by omega) fun _ => id

/-- WFRAME before its STOP (R130). -/
theorem spends_writeFrame (ctrl addr data chk : Byte) : Spends c (writeFrameSeq ctrl addr data chk)
    (5 * c.tBitTo.toNat + 4 * (c.tByteTo.toNat + 1)) (5 * (c.tBitTo.toNat + 1) + 4 * (c.tByteTo.toNat + 8))
    (FrameFailure c 4) := by
  have start := (spends_start (c := c)).mono (Nat.le_refl _) (Nat.le_refl _) fun _ => BitFailure.frameFailure (n := 4)
  have part (x : Byte) {k : Nat} (hk : k < 4) := ((spends_writeByte (c := c) x).mono (Nat.le_refl _) (Nat.le_refl _)
    (F' := FrameFailure c 4) fun _ => .inl).append (spends_frameAck hk true)
  exact ((((start.append (part ctrl (k := 0) (by omega))).append (part addr (k := 1) (by omega))).append
    (part data (k := 2) (by omega))).append (part chk (k := 3) (by omega))).mono (by omega) (by omega) fun _ => id

end

/-! ### Whole commands -/

theorem Spends.runSeq {c : Conf} {ms : List Micro} {d w : Nat} {F : Failure → Prop} (h : Spends c ms d w F) {s : State}
    (hs : s.conf = c) {new : List LineEvent} (hnew : (runSeq ms s).state.trace = s.trace ++ new) :
    pollDelays new ≤ d ∧ sclSamples new ≤ w := by
  obtain ⟨t, xs, ⟨htrace, -, -⟩, hd, hw, hend⟩ := h s hs
  have hstate : (Machine.runSeq ms s).state.trace = t.trace := by
    obtain ⟨hrun, -⟩ | ⟨x, -, hrun⟩ := hend <;> rw [hrun]
    · rfl
    · exact State.keepFailure_trace x t
  obtain rfl : new = xs := List.append_cancel_left (hnew.symm.trans (hstate.trans htrace))
  exact ⟨hd, hw⟩

/-- No poll delay reaches into the line events of a STOP, the first of which drives SDA (R101). -/
theorem pollDelays_append_driveSDA (v : Level) (xs ys : List LineEvent) :
    pollDelays (xs ++ .driveSDA v :: ys) = pollDelays xs + pollDelays (.driveSDA v :: ys) := by
  induction xs using pollDelays.induct with
  | case1 us es ih => exact (congrArg (· + 1) ih).trans (Nat.add_right_comm _ _ _)
  | case2 ev es hlow ih =>
    have skip (zs : List LineEvent) (hzs : ∀ us tl, zs = .delay us :: tl → ev = .sampleSCL false → False) :
        pollDelays (ev :: zs) = pollDelays zs := by
      rw [pollDelays]
      exact fun us tl hev htl => hzs us tl htl hev
    rw [List.cons_append, skip es fun us tl htl hev => hlow us tl hev htl, ← ih]
    refine skip _ fun us tl htl hev => ?_
    cases es with
    | nil => cases htl
    | cons ev' es =>
      obtain ⟨rfl, -⟩ := List.cons.inj htl
      exact hlow us es hev rfl
  | case3 => exact (Nat.zero_add _).symm

/-- On every draw a frame has the poll delays and samples of its events and of its STOP (R126). -/
theorem runSeq_then_stop {c : Conf} {ms : List Micro} {d w : Nat} {F : Failure → Prop} (h : Spends c ms d w F)
    {s : State} (hs : s.conf = c) {new : List LineEvent}
    (hnew : (runSeq (stopSeq .timeout) (runSeq ms s).state).state.trace = s.trace ++ new) :
    pollDelays new ≤ d + c.tBitTo.toNat ∧ sclSamples new ≤ w + (c.tBitTo.toNat + 1) := by
  obtain ⟨xs, hxs, -⟩ := runSeq_performs ms s
  obtain ⟨ys, hys, hperforms⟩ := runSeq_performs (stopSeq .timeout) (runSeq ms s).state
  obtain ⟨hd, hw⟩ := h.runSeq hs hxs
  have hconf : (runSeq ms s).state.conf = c := by
    obtain ⟨_, _, _, _, _, _, ht⟩ := runSeq_spec ms s
    rw [ht]
    exact hs
  obtain ⟨hd', hw'⟩ := (spends_stop .timeout).runSeq hconf hys
  obtain rfl : new = xs ++ ys := List.append_cancel_left (hnew.symm.trans (by rw [hys, hxs, List.append_assoc]))
  have hjoin : pollDelays (xs ++ ys) = pollDelays xs + pollDelays ys := by
    obtain rfl | ⟨_, zs, rfl, rfl, -⟩ := hperforms
    · rw [List.append_nil]
      rfl
    · exact pollDelays_append_driveSDA false xs zs
  rw [hjoin, sclSamples_append]
  exact ⟨by omega, by omega⟩

/-- A command's new line events are those of its two lists, one after the other; none when it is refused. -/
theorem exec_trace {i : Instr} {s t : State} {new : List LineEvent} (h : exec i s = .next t)
    (hnew : t.trace = s.trace ++ new) : new = [] ∨
      (runSeq (commandOf i s).2.after (runSeq (commandOf i s).2.todo (commandOf i s).1).state).state.trace =
        (commandOf i s).1.trace ++ new := by
  obtain ⟨e, hbegin, -⟩ := commandOf_spec i s
  rw [exec_eq] at h
  cases hg : gate i s with
  | some f =>
    rw [runGated_some hg] at h
    cases h
    exact .inl (List.self_eq_append_right.mp hnew)
  | none =>
    rw [runGated_none hg] at h
    cases h
    rw [runJob, complete_trace] at hnew
    exact .inr (by rw [hnew, hbegin]; rfl)

/-- On every draw a command with no STOP of its own spends what its line events spend. -/
theorem exec_spends {i : Instr} {s t : State} {new : List LineEvent} {ms : List Micro} {d w : Nat} {F : Failure → Prop}
    (h : exec i s = .next t) (hnew : t.trace = s.trace ++ new) (hspends : Spends s.conf ms d w F)
    (htodo : (commandOf i s).2.todo = ms) (hafter : (commandOf i s).2.after = []) :
    pollDelays new ≤ d ∧ sclSamples new ≤ w := by
  obtain ⟨e, hbegin, -⟩ := commandOf_spec i s
  obtain rfl | htrace := exec_trace h hnew
  · exact ⟨Nat.zero_le _, Nat.zero_le _⟩
  · rw [htodo, hafter, hbegin] at htrace
    exact hspends.runSeq (s := s.setEng e) rfl htrace

/-- On every draw a frame spends what its line events and its STOP spend. -/
theorem exec_spends_frame {i : Instr} {s t : State} {new : List LineEvent} {ms : List Micro} {d w : Nat}
    {F : Failure → Prop} (h : exec i s = .next t) (hnew : t.trace = s.trace ++ new) (hspends : Spends s.conf ms d w F)
    (htodo : (commandOf i s).2.todo = ms) (hafter : (commandOf i s).2.after = stopSeq .timeout) :
    pollDelays new ≤ d + s.conf.tBitTo.toNat ∧ sclSamples new ≤ w + (s.conf.tBitTo.toNat + 1) := by
  obtain ⟨e, hbegin, -⟩ := commandOf_spec i s
  obtain rfl | htrace := exec_trace h hnew
  · exact ⟨Nat.zero_le _, Nat.zero_le _⟩
  · rw [htodo, hafter, hbegin] at htrace
    exact runSeq_then_stop hspends (s := s.setEng e) rfl htrace

/-- Settles O26: the bounds of each command's parts add up to those of R97's table. -/
theorem waitsAreBounded : Obligations.WaitsAreBounded := by
  intro s t i h
  obtain ⟨xs, ys, hnew, -⟩ := exec_performs h
  have hold : Spends s.conf [.hold .low] 0 0 (BitFailure s.conf .timeout) := spends_instants rfl
  refine ⟨xs ++ ys, hnew, fun hi => ?_, fun hi => ?_, fun hi => ?_, fun hi => ?_, fun hi => ?_⟩
  · obtain rfl | rfl | ⟨a, rfl⟩ | rfl | rfl | ⟨a, rfl⟩ := hi
    · exact exec_spends h hnew spends_start rfl rfl
    · exact exec_spends h hnew (spends_stop .timeout) rfl rfl
    · exact exec_spends h hnew (spends_writeBit (bitOperand a)) rfl rfl
    · exact exec_spends h hnew (spends_readBit (fun _ => id) hold) rfl rfl
    · exact exec_spends h hnew (spends_readBit (fun _ => id) hold) rfl rfl
    · exact exec_spends h hnew (spends_writeBit (ackOperand a)) rfl rfl
  · obtain ⟨x, rfl⟩ | rfl := hi
    · exact exec_spends h hnew (spends_writeByte x) rfl rfl
    · exact exec_spends h hnew (spends_readByte (last := .hold .low) rfl) rfl rfl
  · obtain ⟨n, rfl⟩ := hi
    obtain ⟨hd, hw⟩ := exec_spends_frame h hnew (spends_readFrame _) rfl rfl
    exact ⟨by omega, by omega⟩
  · obtain ⟨n, a, d, rfl⟩ := hi
    obtain ⟨hd, hw⟩ := exec_spends_frame h hnew (spends_writeFrame _ _ _ _) rfl rfl
    exact ⟨by omega, by omega⟩
  · subst hi
    exact exec_spends h hnew spends_recover rfl rfl

/-- A primitive command finishes `Ok`, or with one of the failures of its line events and RESULT 0. -/
theorem exec_of_isPrimitive_spends {i : Instr} {ms : List Micro} {p : Report} (h : IsPrimitive i ms p) {s t : State}
    (hcfg : s.status.cfg = true) {d w : Nat} {F : Failure → Prop}
    (hspends : Spends s.conf (ms.map Micro.asPrimitive) d w F) (hexec : exec i s = .next t) :
    t.status.kind = .ok ∨ ∃ x, F x ∧ t.status.kind = x.kind ∧ t.detail = x.detail ∧ t.result = {} := by
  rw [exec_of_isPrimitive h hcfg] at hexec
  cases hexec
  obtain ⟨u, new, ⟨-, -, herr⟩, -, -, ⟨hrun, -⟩ | ⟨x, hx, hrun⟩⟩ := hspends s.beginCommand rfl
  · obtain ⟨r, hfinish, -⟩ := h.complete (s := u) herr
    rw [hrun, Ran.state, hfinish]
    exact .inl rfl
  · have hkept : (u.keepFailure x).eng.err = some x := by
      rw [State.keepFailure_eng, herr]
      rfl
    have hfinish : complete p (u.keepFailure x) = finish x.kind x.detail {} (u.keepFailure x) := by
      obtain rfl | rfl | rfl := h.report <;> exact concludeWith_some hkept
    rw [hrun, Ran.state, hfinish]
    exact .inr ⟨x, hx, rfl, rfl, rfl⟩

/-- The primitive commands of one byte (R76). -/
def isByteCommand : Instr → Bool
  | .wbyte _ | .rbyte => true
  | _ => false

/-- The primitive commands that are START, STOP or one bit (R76). -/
def isBitCommand : Instr → Bool
  | .start | .stop | .wbit _ | .rbit | .rack | .sack _ => true
  | _ => false

theorem exec_lineOrBit {i : Instr} (hi : isBitCommand i = true) {s t : State} (hcfg : s.status.cfg = true)
    (hwf : i.wellFormed = true) (h : exec i s = .next t) : t.status.kind = .ok ∨
      ∃ x, BitFailure s.conf .timeout x ∧ t.status.kind = x.kind ∧ t.detail = x.detail ∧ t.result = {} := by
  have hold : Spends s.conf [.hold .low] 0 0 (BitFailure s.conf .timeout) := spends_instants rfl
  cases i with
  | start => exact exec_of_isPrimitive_spends isPrimitive_start hcfg spends_start h
  | stop => exact exec_of_isPrimitive_spends isPrimitive_stop hcfg (spends_stop .timeout) h
  | wbit a =>
    have ha : a.toNat < 2 := (oneBitOperand_iff a).mp hwf
    exact exec_of_isPrimitive_spends (isPrimitive_wbit ha) hcfg (spends_writeBit (bitOperand a)) h
  | rbit => exact exec_of_isPrimitive_spends isPrimitive_rbit hcfg (spends_readBit (fun _ => id) hold) h
  | rack => exact exec_of_isPrimitive_spends isPrimitive_rack hcfg (spends_readBit (fun _ => id) hold) h
  | sack a =>
    have ha : a.toNat < 2 := (oneBitOperand_iff a).mp hwf
    exact exec_of_isPrimitive_spends (isPrimitive_sack ha) hcfg (spends_writeBit (ackOperand a)) h
  | _ => cases hi

theorem exec_byte {i : Instr} (hi : isByteCommand i = true) {s t : State} (hcfg : s.status.cfg = true)
    (h : exec i s = .next t) : t.status.kind = .ok ∨
      ∃ x, ByteFailure s.conf x ∧ t.status.kind = x.kind ∧ t.detail = x.detail ∧ t.result = {} := by
  cases i with
  | wbyte x => exact exec_of_isPrimitive_spends (isPrimitive_wbyte x) hcfg (spends_writeByte x) h
  | rbyte => exact exec_of_isPrimitive_spends isPrimitive_rbyte hcfg (spends_readByte (last := .hold .low) rfl) h
  | _ => cases hi

/-- Settles O28, by the failures of the waits of single bits and of bytes. -/
theorem timeoutDetailIsABudget : Obligations.TimeoutDetailIsABudget := by
  intro s t i hcfg hlegal hwf h hkind
  have hnot : t.status.kind ≠ .ok := by
    rw [hkind]
    nofun
  refine ⟨fun hi => ?_, fun hi => ?_⟩
  · have hprim : isBitCommand i = true := by
      obtain rfl | rfl | ⟨a, rfl⟩ | rfl | rfl | ⟨a, rfl⟩ := hi <;> rfl
    obtain hok | ⟨x, hx, -, hdetail, -⟩ := exec_lineOrBit hprim hcfg hwf h
    · exact absurd hok hnot
    · rw [hdetail, hx.of_legal hlegal]
  · have hprim : isByteCommand i = true := by
      obtain ⟨x, rfl⟩ | rfl := hi <;> rfl
    obtain hok | ⟨x, hx, -, hdetail, -⟩ := exec_byte hprim hcfg h
    · exact absurd hok hnot
    · rw [hdetail]
      exact hx.imp (congrArg Failure.detail) (congrArg Failure.detail)

end Sys2Proof.Machine

/-! What each command of a configured block finishes with, on every draw, and the record of a frame
(42_checksum_frames.md R126, R127, R130; 60_exceptions.md R154). -/

namespace Sys2Proof.Machine

/-! ### The record of a frame -/

theorem log_of_keepsFrameBytes {s t : State} (h : t.eng.KeepsFrameBytes s.eng) (bits : List Level) :
    t.log bits = s.log bits := by
  obtain ⟨hctrl, hd, hc, hacked⟩ := h
  rw [State.log, hctrl, hd, hc, hacked, State.log]

theorem WireMoves.log {s t : State} {new : List LineEvent} (h : WireMoves s t new) (bits : List Level) :
    t.log bits = s.log bits := by
  obtain ⟨_, _, _, _, _, _, _, rfl⟩ := h
  rfl

theorem log_keepFailure (x : Failure) (s : State) (bits : List Level) : (s.keepFailure x).log bits = s.log bits := by
  rw [State.keepFailure_eq]
  rfl

theorem sdaSamples_eq_nil {new : List LineEvent} (h : ∀ ev ∈ new, ev.isSampleSDA = false) : sdaSamples new = [] := by
  induction new with
  | nil => rfl
  | cons ev new ih =>
    obtain ⟨hev, hnew⟩ := List.forall_mem_cons.mp h
    cases ev with
    | sampleSDA v => cases hev
    | _ => exact ih hnew

/-! ### What the parts of a frame record -/

/-- On every draw `ms`, begun with a record of `P`, ends with one of `Q`; or it fails, and the record and the failure
meet `R`. -/
def Records (c : Conf) (P : FrameLog → Prop) (ms : List Micro) (Q : FrameLog → Prop) (R : FrameLog → Failure → Prop) :
    Prop :=
  ∀ (s : State) (bits : List Level), s.conf = c → P (s.log bits) → ∃ t new, Extends s t new ∧
    (runSeq ms s = .ok t ∧ Q (t.log (bits ++ sdaSamples new)) ∨
      ∃ x, R (t.log (bits ++ sdaSamples new)) x ∧ runSeq ms s = .failed (t.keepFailure x))

section
variable {c : Conf} {P Q : FrameLog → Prop} {R : FrameLog → Failure → Prop}

theorem Records.append {ms ms' : List Micro} {Q' : FrameLog → Prop} (h : Records c P ms Q R)
    (k : Records c Q ms' Q' R) : Records c P (ms ++ ms') Q' R := by
  intro s bits hs hP
  obtain ⟨t, xs, hext, ⟨hrun, hQ⟩ | ⟨x, hR, hrun⟩⟩ := h s bits hs hP
  · obtain ⟨u, ys, hext', hend⟩ := k t _ (hext.conf.trans hs) hQ
    rw [List.append_assoc, ← sdaSamples_append] at hend
    rw [runSeq_append_ok hrun]
    exact ⟨u, xs ++ ys, hext.trans hext', hend⟩
  · exact ⟨t, xs, hext, .inr ⟨x, hR, runSeq_append_failed hrun⟩⟩

/-- A part that samples no SDA and ends no byte and no ACK cycle keeps the record. -/
theorem records_of_spends {ms : List Micro} {d w : Nat} {F : Failure → Prop} (h : Spends c ms d w F)
    (hkeeps : ms.all Micro.keepsFrameBytes = true) (hsda : ms.any Micro.samplesSDA = false)
    (hR : ∀ l x, P l → F x → R l x) : Records c P ms P R := by
  intro s bits hs hP
  obtain ⟨t, new, hext, -, -, hend⟩ := h s hs
  have hstate : (runSeq ms s).state.trace = t.trace ∧ ∀ b, (runSeq ms s).state.log b = t.log b := by
    obtain ⟨hrun, -⟩ | ⟨x, -, hrun⟩ := hend <;> rw [hrun]
    · exact ⟨rfl, fun _ => rfl⟩
    · exact ⟨State.keepFailure_trace x t, log_keepFailure x t⟩
  obtain ⟨htrace, hlog⟩ := hstate
  obtain ⟨xs, hxs, hperforms⟩ := runSeq_performs ms s
  obtain rfl : xs = new := List.append_cancel_left (hxs.symm.trans (htrace.trans hext.trace))
  have hkept : t.log (bits ++ sdaSamples xs) = s.log bits := by
    rw [sdaSamples_eq_nil (hperforms.isSampleSDA hsda), List.append_nil, ← hlog]
    exact log_of_keepsFrameBytes (runSeq_keepsFrameBytes hkeeps s) bits
  refine ⟨t, xs, hext, ?_⟩
  rw [hkept]
  exact hend.imp (fun ⟨hrun, _⟩ => ⟨hrun, hP⟩) fun ⟨x, hF, hrun⟩ => ⟨x, hR _ _ hP hF, hrun⟩

/-- Eight levels are the bits of a byte. -/
theorem exists_wireBits {vs : List Level} (h : vs.length = 8) : ∃ x : Byte, vs = wireBits x := by
  have bits : ∀ b7 b6 b5 b4 b3 b2 b1 b0 : Level,
      [b7, b6, b5, b4, b3, b2, b1, b0] = wireBits (BitVec.ofBoolListBE [b7, b6, b5, b4, b3, b2, b1, b0]) := by
    decide +kernel
  match vs, h with
  | [b7, b6, b5, b4, b3, b2, b1, b0], _ => exact ⟨_, bits b7 b6 b5 b4 b3 b2 b1 b0⟩

/-- The bits of a byte, shifted in, make the byte (R110). -/
theorem foldl_wireBits (x : Byte) : (bitIndices.zip (wireBits x)).foldl (fun y p => setSrBit y p.1 p.2) 0#8 = x :=
  setSrBit_wireBits x

/-- The end of a byte that a frame receives (R127). -/
theorem fire_closeByte (dst : FrameByte) (s : State) : ∃ t ev, fire (.closeByte dst) s = .done t ∧ Extends s t [ev] ∧
    sdaSamples [ev] = [] ∧ ∀ bits, t.log bits = (s.log bits).store dst s.eng.sr := by
  cases dst <;> exact ⟨_, _, rfl, ⟨rfl, rfl, rfl⟩, rfl, fun _ => rfl⟩

/-- A byte that a frame receives: its eight samples, or fewer when a clock does not rise (R127). -/
theorem records_readByte (dst : FrameByte) (hok : ∀ l x, P l → Q ((l.sample (wireBits x)).store dst x))
    (hfail : ∀ l vs x, P l → vs.length < 8 → ByteFailure c x → R (l.sample vs) x) :
    Records c P (readByteSeq (.closeByte dst)) Q R := by
  rintro s bits rfl hP
  rw [readByteSeq_eq]
  obtain ⟨t, new, hrun, hall⟩ | ⟨t, new, x, hrun, hsome⟩ := isBits_readByte s
  · obtain ⟨-, -, -, -, -, hlen, hsr⟩ := hall
    obtain ⟨x, hx⟩ := exists_wireBits hlen
    obtain ⟨u, ev, hfire, hext, hev, hlog⟩ := fire_closeByte dst t
    refine ⟨u, new ++ [ev], hrun.moves.extends.trans hext, .inl ⟨(hrun.run _).trans (runSeq_cons_done hfire), ?_⟩⟩
    have hbyte : t.eng.sr = x := by
      rw [hsr, hx]
      exact foldl_wireBits x
    rw [hlog, hbyte, hrun.moves.log, sdaSamples_append, hev, List.append_nil, hx]
    exact hok _ x hP
  · obtain ⟨-, -, -, -, hlen, failure⟩ := hsome
    refine ⟨t, new, hrun.moves.extends, .inr ⟨x, ?_, hrun.run _⟩⟩
    rw [hrun.moves.log]
    exact hfail _ _ x hP hlen (failure.imp_right And.left)

/-- An ACK cycle of a frame: an ACK, a NACK, or no sample when its clock does not rise (R127, R130). -/
theorem records_frameAck (k : Nat) (counted : Bool) (hok : ∀ l, P l → Q ((l.sample [false]).acknowledge counted))
    (hnack : ∀ l, P l → R (l.sample [true]) ⟨.nack, BitVec.ofNat 32 k⟩)
    (hfail : ∀ l x, P l → ByteFailure c x → R l x) : Records c P (frameAckSeq k counted) Q R := by
  rintro s bits rfl hP
  rw [frameAckSeq, readBitSeq_eq]
  obtain ⟨t, new, hrun, hall⟩ | ⟨t, new, x, hrun, hsome⟩ := isBits_readBit s
  · obtain ⟨-, -, -, -, -, hlen, hsr⟩ := hall
    obtain ⟨v, hv⟩ := List.length_eq_one_iff.mp hlen
    have hbit : srBit t.eng.sr 0#4 = v := by
      have hshift : t.eng.sr = setSrBit 0#8 0#4 v := by
        rw [hsr, hv]
        rfl
      rw [hshift]
      cases v <;> decide
    obtain ⟨u, us, hext, hend⟩ := fire_closeAck k counted hbit
    have hsamples : bits ++ sdaSamples (new ++ [.delay us]) = bits ++ [v] := by
      rw [sdaSamples_append, hv]
      rfl
    refine ⟨u, new ++ [.delay us], hrun.moves.extends.trans hext, ?_⟩
    rw [hsamples, hrun.run]
    cases v with
    | true =>
      obtain ⟨hfire, hlog⟩ := hend
      rw [hlog, hrun.moves.log]
      exact .inr ⟨_, hnack _ hP, runSeq_cons_failed hfire⟩
    | false =>
      obtain ⟨hfire, hlog⟩ := hend
      rw [hlog, hrun.moves.log]
      exact .inl ⟨runSeq_cons_done hfire, hok _ hP⟩
  · obtain ⟨-, -, -, -, hlen, failure⟩ := hsome
    have hnone : sdaSamples new = [] := List.length_eq_zero_iff.mp (Nat.lt_one_iff.mp hlen)
    refine ⟨t, new, hrun.moves.extends, .inr ⟨x, ?_, hrun.run _⟩⟩
    rw [hrun.moves.log, hnone, List.append_nil]
    exact hfail _ x hP (failure.imp_right And.left)

/-- A frame's STOP keeps the record, and it keeps a failure of its own only when there is none yet (R126). -/
theorem runSeq_stop_keeps {s : State} (hs : s.conf = c) (bits : List Level) {u : State}
    (hu : (runSeq (stopSeq .timeout) s).state = u) :
    ∃ new, u.trace = s.trace ++ new ∧ u.log (bits ++ sdaSamples new) = s.log bits ∧
      (u.eng.err = s.eng.err ∨ s.eng.err = none ∧ ∃ x, BitFailure c .timeout x ∧ u.eng.err = some x) := by
  subst hu
  have quiet : Records c (· = s.log bits) (stopSeq .timeout) (· = s.log bits)
      fun l x => l = s.log bits ∧ BitFailure c .timeout x :=
    records_of_spends (spends_stop .timeout) rfl rfl fun _ _ => And.intro
  obtain ⟨t, new, ⟨htrace, -, herr⟩, ⟨hrun, hlog⟩ | ⟨x, ⟨hlog, hx⟩, hrun⟩⟩ := quiet s bits hs rfl <;> rw [hrun]
  · exact ⟨new, htrace, hlog, .inl herr⟩
  · refine ⟨new, (State.keepFailure_trace x t).trans htrace, (log_keepFailure x t _).trans hlog, ?_⟩
    simp only [Ran.state, State.keepFailure_eng, herr]
    cases s.eng.err with
    | none => exact .inr ⟨rfl, x, hx, rfl⟩
    | some y => exact .inl rfl

/-- A frame with its STOP, which follows whatever came before it; the first failure is the one kept (R126). -/
theorem Records.then_stop {ms : List Micro} (h : Records c P ms Q R)
    (hstop : ∀ l x, Q l → BitFailure c .timeout x → R l x) {s u : State} (hs : s.conf = c) (herr : s.eng.err = none)
    (hP : P (s.log [])) (hu : (runSeq (stopSeq .timeout) (runSeq ms s).state).state = u) :
    ∃ new, u.trace = s.trace ++ new ∧ (u.eng.err = none ∧ Q (u.log (sdaSamples new)) ∨
      ∃ x, u.eng.err = some x ∧ R (u.log (sdaSamples new)) x) := by
  obtain ⟨t, xs, ⟨htrace, hconf, hkept⟩, hend⟩ := h s [] hs hP
  have hnone : t.eng.err = none := hkept.trans herr
  obtain ⟨hrun, hQ⟩ | ⟨x, hR, hrun⟩ := hend <;> rw [hrun, Ran.state] at hu
  · obtain ⟨ys, htrace', hlog, hfailure⟩ := runSeq_stop_keeps (hconf.trans hs) (sdaSamples xs) hu
    refine ⟨xs ++ ys, by rw [htrace', htrace, List.append_assoc], ?_⟩
    rw [sdaSamples_append, hlog]
    exact hfailure.imp (fun h => ⟨h.trans hnone, hQ⟩) fun ⟨_, y, hy, hsome⟩ => ⟨y, hsome, hstop _ y hQ hy⟩
  · have hsome : (t.keepFailure x).eng.err = some x := by
      rw [State.keepFailure_eng, hnone]
      rfl
    obtain ⟨ys, htrace', hlog, hfailure⟩ := runSeq_stop_keeps ((State.keepFailure_conf x t).trans (hconf.trans hs))
      (sdaSamples xs) hu
    refine ⟨xs ++ ys, by rw [htrace', State.keepFailure_trace, htrace, List.append_assoc], .inr ⟨x, ?_, ?_⟩⟩
    · obtain h | ⟨h, -⟩ := hfailure
      · exact h.trans hsome
      · cases h.symm.trans hsome
    · rw [sdaSamples_append, hlog, log_keepFailure]
      exact hR

end

/-! ### The record of RFRAME -/

/-- `x` is the byte of the eight samples from `n` on once they are all there, else 0 (R127). -/
def HoldsSamples (bits : List Level) (n : Nat) (x : Byte) : Prop :=
  if n + 8 ≤ bits.length then wireBits x = (bits.drop n).take 8 else x = 0#8

/-- Samples before or after those of the byte do not change it. -/
theorem HoldsSamples.append {bits : List Level} {n : Nat} {x : Byte} (h : HoldsSamples bits n x) {vs : List Level}
    (hlen : n + 8 ≤ bits.length ∨ bits.length + vs.length < n + 8) : HoldsSamples (bits ++ vs) n x := by
  unfold HoldsSamples at h ⊢
  obtain hlen | hlen := hlen
  · rw [if_pos hlen] at h
    rw [if_pos (by rw [List.length_append]; omega), h, List.drop_append_of_le_length (by omega),
      List.take_append_of_le_length (by rw [List.length_drop]; omega)]
  · rw [if_neg (by omega)] at h
    rw [if_neg (by rw [List.length_append]; omega), h]

theorem holdsSamples_wireBits {bits : List Level} {n : Nat} (h : bits.length = n) (x : Byte) :
    HoldsSamples (bits ++ wireBits x) n x := by
  subst h
  have hlen : bits.length + 8 ≤ (bits ++ wireBits x).length := by simp [wireBits]
  rw [HoldsSamples, if_pos hlen, List.drop_left]
  rfl

/-- The record of RFRAME at any point before its `finish` (R127). -/
structure ReadSoFar (ctrl : Byte) (l : FrameLog) : Prop where
  ctrl : l.ctrl = ctrl
  d : HoldsSamples l.bits 1 l.d
  c : HoldsSamples l.bits 9 l.c

/-- RFRAME after `n` samples of SDA. -/
def ReadAt (ctrl : Byte) (n : Nat) (l : FrameLog) : Prop := ReadSoFar ctrl l ∧ l.bits.length = n

/-- RFRAME at a failure. -/
def ReadFails (c : Conf) (ctrl : Byte) (l : FrameLog) (x : Failure) : Prop := ReadSoFar ctrl l ∧ FrameFailure c 1 x

/-- RFRAME before its STOP (R127). -/
theorem records_readFrame (c : Conf) (ctrl : Byte) :
    Records c (ReadAt ctrl 0) (readFrameSeq ctrl) (ReadAt ctrl 17) (ReadFails c ctrl) := by
  have start : Records c (ReadAt ctrl 0) startSeq (ReadAt ctrl 0) (ReadFails c ctrl) :=
    records_of_spends spends_start rfl rfl fun _ _ hl hx => ⟨hl.1, hx.frameFailure⟩
  have sent : Records c (ReadAt ctrl 0) (writeByteSeq ctrl) (ReadAt ctrl 0) (ReadFails c ctrl) :=
    records_of_spends (spends_writeByte ctrl) rfl rfl fun _ _ hl hx => ⟨hl.1, .inl hx⟩
  have acked : Records c (ReadAt ctrl 0) (frameAckSeq 0 false) (ReadAt ctrl 1) (ReadFails c ctrl) := by
    have sample (l : FrameLog) (v : Level) (h : ReadAt ctrl 0 l) : ReadAt ctrl 1 (l.sample [v]) := by
      obtain ⟨⟨hctrl, hd, hc⟩, hlen⟩ := h
      exact ⟨⟨hctrl, hd.append (.inr (by simp [hlen])), hc.append (.inr (by simp [hlen]))⟩,
        by simp [FrameLog.sample, hlen]⟩
    exact records_frameAck 0 false (fun l hl => sample l false hl)
      (fun l hl => ⟨(sample l true hl).1, .inr ⟨0, Nat.one_pos, rfl⟩⟩) fun l x hl hx => ⟨hl.1, .inl hx⟩
  have data : Records c (ReadAt ctrl 1) (readByteSeq (.closeByte .d)) (ReadAt ctrl 9) (ReadFails c ctrl) := by
    refine records_readByte .d ?_ ?_
    · rintro l x ⟨⟨hctrl, -, hc⟩, hlen⟩
      exact ⟨⟨hctrl, holdsSamples_wireBits hlen x, hc.append (.inr (by simp [hlen, wireBits]))⟩,
        by simp [FrameLog.sample, FrameLog.store, hlen, wireBits]⟩
    · rintro l vs x ⟨⟨hctrl, hd, hc⟩, hlen⟩ hvs hx
      exact ⟨⟨hctrl, hd.append (.inr (by omega)), hc.append (.inr (by omega))⟩, .inl hx⟩
  have check : Records c (ReadAt ctrl 9) (readByteSeq (.closeByte .c)) (ReadAt ctrl 17) (ReadFails c ctrl) := by
    refine records_readByte .c ?_ ?_
    · rintro l x ⟨⟨hctrl, hd, -⟩, hlen⟩
      exact ⟨⟨hctrl, hd.append (.inl hlen.ge), holdsSamples_wireBits hlen x⟩,
        by simp [FrameLog.sample, FrameLog.store, hlen, wireBits]⟩
    · rintro l vs x ⟨⟨hctrl, hd, hc⟩, hlen⟩ hvs hx
      exact ⟨⟨hctrl, hd.append (.inl hlen.ge), hc.append (.inr (by omega))⟩, .inl hx⟩
  have replied (a : Byte) (n : Nat) : Records c (ReadAt ctrl n) (sendAckSeq a) (ReadAt ctrl n) (ReadFails c ctrl) :=
    records_of_spends (spends_writeBit (ackOperand a)) rfl rfl fun _ _ hl hx => ⟨hl.1, hx.frameFailure⟩
  exact (((((start.append sent).append acked).append data).append (replied 1#8 9)).append check).append
    (replied 0#8 17)

/-! ### The record of WFRAME -/

/-- The record of WFRAME after its `k` first ACKs (R130). -/
structure AckedAt (ctrl chk : Byte) (k : Nat) (l : FrameLog) : Prop where
  ctrl : l.ctrl = ctrl
  c : l.c = chk
  acked : l.acked.toNat = k
  bits : l.bits.count false = k

/-- WFRAME at a failure: a budget spent, or the NACK of the byte after those acknowledged. -/
def WriteFails (c : Conf) (ctrl chk : Byte) (l : FrameLog) (x : Failure) : Prop :=
  ∃ k, AckedAt ctrl chk k l ∧ (ByteFailure c x ∨ k < 4 ∧ x = ⟨.nack, BitVec.ofNat 32 k⟩)

/-- A byte of WFRAME and its ACK cycle (R130). -/
theorem records_writePart (c : Conf) (ctrl chk x : Byte) {k : Nat} (hk : k < 4) :
    Records c (AckedAt ctrl chk k) (writeByteSeq x ++ frameAckSeq k true) (AckedAt ctrl chk (k + 1))
      (WriteFails c ctrl chk) := by
  have sent : Records c (AckedAt ctrl chk k) (writeByteSeq x) (AckedAt ctrl chk k) (WriteFails c ctrl chk) :=
    records_of_spends (spends_writeByte x) rfl rfl fun _ _ hl hx => ⟨k, hl, .inl hx⟩
  refine sent.append (records_frameAck k true ?_ ?_ fun l y hl hy => ⟨k, hl, .inl hy⟩)
  · rintro l ⟨hctrl, hc, hacked, hbits⟩
    refine ⟨hctrl, hc, ?_, ?_⟩
    · simp only [FrameLog.acknowledge, FrameLog.sample, if_true, BitVec.toNat_add, hacked, BitVec.toNat_ofNat]
      omega
    · simp [FrameLog.acknowledge, FrameLog.sample, hbits]
  · rintro l ⟨hctrl, hc, hacked, hbits⟩
    exact ⟨k, ⟨hctrl, hc, hacked, by simp [FrameLog.sample, hbits]⟩, .inr ⟨hk, rfl⟩⟩

/-- WFRAME before its STOP (R130). -/
theorem records_writeFrame (c : Conf) (ctrl addr data chk : Byte) :
    Records c (AckedAt ctrl chk 0) (writeFrameSeq ctrl addr data chk) (AckedAt ctrl chk 4) (WriteFails c ctrl chk) := by
  have start : Records c (AckedAt ctrl chk 0) startSeq (AckedAt ctrl chk 0) (WriteFails c ctrl chk) :=
    records_of_spends spends_start rfl rfl fun _ _ hl hx => ⟨0, hl, .inl hx.byteFailure⟩
  exact (((start.append (records_writePart c ctrl chk ctrl (by omega))).append
    (records_writePart c ctrl chk addr (by omega))).append (records_writePart c ctrl chk data (by omega))).append
    (records_writePart c ctrl chk chk (by omega))

/-! ### Whole frames -/

theorem exec_rframe_eq (nib : Nibble) {s : State} (hcfg : s.status.cfg = true) :
    exec (.rframe nib) s = .next (complete .readFrame (runSeq (stopSeq .timeout)
      (runSeq (readFrameSeq (controlByte nib s.conf.devAddr true)) (rframeCommand nib s).1).state).state) := by
  rw [exec_eq, runGated_none (gate_none rfl (by simp) hcfg)]
  rfl

theorem exec_wframe_eq (nib : Nibble) (addr data : Byte) {s : State} (hcfg : s.status.cfg = true) :
    exec (.wframe nib addr data) s = .next (complete .writeFrame (runSeq (stopSeq .timeout)
      (runSeq (writeFrameSeq (controlByte nib s.conf.devAddr false) addr data
        (checksumWrite (controlByte nib s.conf.devAddr false) addr data))
        (wframeCommand nib addr data s).1).state).state) := by
  rw [exec_eq, runGated_none (gate_none rfl (by simp) hcfg)]
  rfl

/-- The `finish` of RFRAME when no failure is kept (R128). -/
theorem complete_readFrame {s : State} (h : s.eng.err = none) :
    s.eng.c = checksumRead s.eng.ctrl s.eng.d ∧ complete .readFrame s = finish .ok 0#32 (readFrameResult s.eng) s ∨
      s.eng.c ≠ checksumRead s.eng.ctrl s.eng.d ∧
        complete .readFrame s = finish .checksumMismatch (s.eng.c.zeroExtend 32) (readFrameResult s.eng) s := by
  rw [complete, concludeWith_none h]
  by_cases hc : s.eng.c = checksumRead s.eng.ctrl s.eng.d
  · exact .inl ⟨hc, if_pos hc⟩
  · exact .inr ⟨hc, if_neg hc⟩

/-- RFRAME of a configured block on every draw: its record and what it finishes with (R126 to R129). -/
theorem exec_rframe {nib : Nibble} {s t : State} (hcfg : s.status.cfg = true) (h : exec (.rframe nib) s = .next t) :
    ∃ new l, t.trace = s.trace ++ new ∧ l.bits = sdaSamples new ∧ t.result = ⟨l.d, l.c, l.ctrl⟩ ∧
      ReadSoFar (controlByte nib s.conf.devAddr true) l ∧
      (t.status.kind = .ok ∧ t.detail = 0#32 ∧ l.c = checksumRead l.ctrl l.d ∨
        t.status.kind = .checksumMismatch ∧ t.detail = l.c.zeroExtend 32 ∧ l.c ≠ checksumRead l.ctrl l.d ∨
        ∃ x, FrameFailure s.conf 1 x ∧ t.status.kind = x.kind ∧ t.detail = x.detail) := by
  rw [exec_rframe_eq nib hcfg] at h
  generalize hu : (runSeq (stopSeq .timeout) (runSeq (readFrameSeq (controlByte nib s.conf.devAddr true))
    (rframeCommand nib s).1).state).state = u at h
  cases h
  have start : ReadAt (controlByte nib s.conf.devAddr true) 0 ((rframeCommand nib s).1.log []) :=
    ⟨⟨rfl, rfl, rfl⟩, rfl⟩
  obtain ⟨new, htrace, hend⟩ := (records_readFrame s.conf _).then_stop (s := (rframeCommand nib s).1)
    (fun _ _ hl hx => ⟨hl.1, hx.frameFailure⟩) rfl rfl start hu
  refine ⟨new, u.log (sdaSamples new), (complete_trace _ _).trans htrace, rfl, ?_⟩
  obtain ⟨herr, hread, -⟩ | ⟨x, herr, hread, hx⟩ := hend
  · obtain ⟨hc, hfinish⟩ | ⟨hc, hfinish⟩ := complete_readFrame herr <;> rw [hfinish]
    · exact ⟨rfl, hread, .inl ⟨rfl, rfl, hc⟩⟩
    · exact ⟨rfl, hread, .inr (.inl ⟨rfl, rfl, hc⟩)⟩
  · have hfinish : complete .readFrame u = finish x.kind x.detail (readFrameResult u.eng) u := concludeWith_some herr
    rw [hfinish]
    exact ⟨rfl, hread, .inr (.inr ⟨x, hx, rfl, rfl⟩)⟩

/-- WFRAME of a configured block on every draw: its record and what it finishes with (R126, R130). -/
theorem exec_wframe {nib : Nibble} {addr data : Byte} {s t : State} (hcfg : s.status.cfg = true)
    (h : exec (.wframe nib addr data) s = .next t) :
    ∃ new l k, t.trace = s.trace ++ new ∧ l.bits = sdaSamples new ∧ t.result = ⟨l.acked.zeroExtend 8, l.c, l.ctrl⟩ ∧
      AckedAt (controlByte nib s.conf.devAddr false)
        (checksumWrite (controlByte nib s.conf.devAddr false) addr data) k l ∧
      (t.status.kind = .ok ∧ t.detail = 0#32 ∧ k = 4 ∨
        ∃ x, (ByteFailure s.conf x ∨ k < 4 ∧ x = ⟨.nack, BitVec.ofNat 32 k⟩) ∧ t.status.kind = x.kind ∧
          t.detail = x.detail) := by
  rw [exec_wframe_eq nib addr data hcfg] at h
  generalize hu : (runSeq (stopSeq .timeout) (runSeq (writeFrameSeq (controlByte nib s.conf.devAddr false) addr data
    (checksumWrite (controlByte nib s.conf.devAddr false) addr data))
    (wframeCommand nib addr data s).1).state).state = u at h
  cases h
  have start : AckedAt (controlByte nib s.conf.devAddr false)
      (checksumWrite (controlByte nib s.conf.devAddr false) addr data) 0 ((wframeCommand nib addr data s).1.log []) :=
    ⟨rfl, rfl, rfl, rfl⟩
  obtain ⟨new, htrace, hend⟩ := (records_writeFrame s.conf _ addr data _).then_stop
    (s := (wframeCommand nib addr data s).1) (fun _ _ hl hx => ⟨4, hl, .inl hx.byteFailure⟩) rfl rfl start hu
  have trace := (complete_trace .writeFrame u).trans htrace
  obtain ⟨herr, hacked⟩ | ⟨x, herr, k, hacked, hx⟩ := hend
  · have hfinish : complete .writeFrame u = finish .ok 0#32 (writeFrameResult u.eng) u := concludeWith_none herr
    refine ⟨new, u.log (sdaSamples new), 4, trace, rfl, ?_⟩
    rw [hfinish]
    exact ⟨rfl, hacked, .inl ⟨rfl, rfl, rfl⟩⟩
  · have hfinish : complete .writeFrame u = finish x.kind x.detail (writeFrameResult u.eng) u :=
      concludeWith_some herr
    refine ⟨new, u.log (sdaSamples new), k, trace, rfl, ?_⟩
    rw [hfinish]
    exact ⟨rfl, hacked, .inr ⟨x, hx, rfl, rfl⟩⟩

/-! ### RECOVER and the other control commands -/

/-- The idle check leaves the idle bits of two levels in the shift register (R143). -/
theorem runSeq_sense {s t : State} (h : runSeq senseSeq s = .ok t) : ∃ l m, t.eng.sr = idleBits l m := by
  obtain ⟨l, e, hl⟩ := sampleSCL_spec s
  obtain ⟨u, hu⟩ : ∃ u, fire .senseSCL s = .done u := by
    simp only [fire, hl]
    exact ⟨_, rfl⟩
  obtain ⟨m, e', hm⟩ := sampleSDA_spec u
  obtain ⟨w, hw, hsr⟩ : ∃ w, fire .senseSDA u = .done w ∧ w.eng.sr = idleBits (srBit u.eng.sr 1#4) m := by
    simp only [fire, hm]
    exact ⟨_, rfl, rfl⟩
  have hrun : runSeq senseSeq s = .ok w := (runSeq_cons_done hu).trans (runSeq_cons_done hw)
  obtain rfl : w = t := Ran.ok.inj (hrun.symm.trans h)
  exact ⟨_, m, hsr⟩

/-- An idle bus reports both lines high (R29). -/
theorem idleBits_of_idle {l m : Level} (h : srBit (idleBits l m) 0#4 = true) : idleBits l m = 7#8 := by
  revert l m
  decide

/-- RECOVER of a configured block on every draw (R140 to R142). -/
theorem exec_recover {s t : State} (hcfg : s.status.cfg = true) (h : exec .recover s = .next t) :
    t.status.kind = .ok ∧ t.result.data = 7#8 ∨
      t.status.kind = .busStuck ∧ 1 ≤ t.detail.toNat ∧ t.detail.toNat ≤ 11 := by
  rw [exec_eq, runGated_none (gate_none rfl (by simp) hcfg)] at h
  cases h
  obtain ⟨u, new, ⟨-, -, herr⟩, -, -, ⟨hrun, -⟩ | ⟨x, ⟨p, hp, hp', hx⟩, hrun⟩⟩ :=
    (spends_recover (c := s.conf)) s.beginCommand rfl
  · obtain ⟨v, -, hsense⟩ := runSeq_append_eq_ok hrun
    obtain ⟨l, m, hsr⟩ := runSeq_sense hsense
    have hjob : runJob (commandOf .recover s).2 (commandOf .recover s).1 = complete .recovery u := runJob_ok hrun
    rw [hjob, complete, concludeWith_none herr]
    by_cases hidle : srBit u.eng.sr 0#4 = true
    · rw [if_pos hidle]
      refine .inl ⟨rfl, hsr.trans (idleBits_of_idle ?_)⟩
      rwa [hsr] at hidle
    · rw [if_neg hidle]
      exact .inr ⟨rfl, (by decide : 1 ≤ (11#32).toNat), (by decide : (11#32).toNat ≤ 11)⟩
  · have hjob : runJob (commandOf .recover s).2 (commandOf .recover s).1 = complete .recovery (u.keepFailure x) :=
      runJob_failed hrun
    have hkept : (u.keepFailure x).eng.err = some x := by
      rw [State.keepFailure_eng, herr]
      rfl
    obtain ⟨y, rfl, -⟩ := hx
    rw [hjob, complete, concludeWith_some hkept]
    have hdetail : (BitVec.ofNat 32 p).toNat = p := by
      rw [BitVec.toNat_ofNat]
      omega
    exact .inr ⟨rfl, hp.trans hdetail.ge, hdetail.le.trans (by omega)⟩

/-- IDLE finishes `Ok` on every draw (R143). -/
theorem exec_idle {s t : State} (hcfg : s.status.cfg = true) (h : exec .idle s = .next t) : t.status.kind = .ok := by
  rw [exec_eq, runGated_none (gate_none rfl (by simp) hcfg)] at h
  cases h
  obtain ⟨u, new, ⟨-, -, herr⟩, -, -, ⟨hrun, -⟩ | ⟨x, hx, -⟩⟩ :=
    (spends_sense (c := s.conf) (F := fun _ => False)) s.beginCommand rfl
  · have hjob : runJob (commandOf .idle s).2 (commandOf .idle s).1 = complete .idleBits u := runJob_ok hrun
    rw [hjob, complete, concludeWith_none herr]
    rfl
  · exact hx.elim

/-! ### Every command -/

/-- The kind and the detail of a byte's failure (R94). -/
theorem ByteFailure.timeout {c : Conf} {x : Failure} (h : ByteFailure c x) :
    x.kind = .timeout ∧ (x.detail = c.tBitTo ∨ x.detail = overrunDetail c) := by
  obtain rfl | rfl := h
  · exact ⟨rfl, .inl rfl⟩
  · exact ⟨rfl, .inr rfl⟩

theorem BitFailure.kind {c : Conf} {x : Failure} (h : BitFailure c .timeout x) : x.kind = .timeout :=
  h.byteFailure.timeout.1

/-- Settles O45, command by command: the failures of the waits, and the record of a frame as it grows. -/
theorem kindsEachCommandFinishesWith : Obligations.KindsEachCommandFinishesWith := by
  intro i s t hcfg hwf h
  cases i with
  | config =>
    rw [exec_of_gate_some (gate_config_again hcfg)] at h
    cases h
    rfl
  | deconfig =>
    rw [exec_eq, runGated_none (gate_deconfig s)] at h
    cases h
    rfl
  | recover => exact exec_recover hcfg h
  | idle => exact exec_idle hcfg h
  | rframe nib =>
    obtain ⟨new, l, htrace, hbits, hresult, ⟨hctrl, hd, hc⟩, hend⟩ := exec_rframe hcfg h
    rw [hbits] at hd hc
    simp only [hresult]
    refine ⟨?_, ?_, hctrl, new, htrace, hd, hc⟩
    · obtain ⟨hkind, hdetail, hsum⟩ | ⟨hkind, hdetail, hsum⟩ | ⟨x, hx, hkind, hdetail⟩ := hend
      · exact .inl ⟨hkind, hdetail, hsum⟩
      · exact .inr (.inr (.inr ⟨hkind, hdetail, hsum⟩))
      · obtain hx | ⟨k, hk, rfl⟩ := hx
        · exact .inr (.inl (hkind.trans hx.timeout.1))
        · obtain rfl : k = 0 := by omega
          exact .inr (.inr (.inl ⟨hkind, hdetail⟩))
    · intro htimeout _
      obtain ⟨hkind, -⟩ | ⟨hkind, -⟩ | ⟨x, hx | ⟨k, -, rfl⟩, hkind, hdetail⟩ := hend
      · cases hkind.symm.trans htimeout
      · cases hkind.symm.trans htimeout
      · rw [hdetail]
        exact hx.timeout.2
      · cases hkind.symm.trans htimeout
  | wframe nib addr data =>
    obtain ⟨new, l, k, htrace, hbits, hresult, ⟨hctrl, hc, hacked, hcount⟩, hend⟩ := exec_wframe hcfg h
    have hk : (l.acked.zeroExtend 8).toNat = k := by
      rw [BitVec.toNat_setWidth, hacked]
      omega
    rw [hbits] at hcount
    simp only [hresult]
    refine ⟨?_, ?_, hctrl, hc.trans (by rw [hctrl]), new, htrace, hk.trans hcount.symm⟩
    · obtain ⟨hkind, hdetail, rfl⟩ | ⟨x, hx | ⟨hlt, rfl⟩, hkind, hdetail⟩ := hend
      · exact .inl ⟨hkind, hdetail, BitVec.eq_of_toNat_eq hk⟩
      · exact .inr (.inl (hkind.trans hx.timeout.1))
      · refine .inr (.inr ⟨hkind, hdetail.trans (BitVec.eq_of_toNat_eq ?_), by omega⟩)
        rw [BitVec.toNat_setWidth, hk]
        rfl
    · intro htimeout _
      obtain ⟨hkind, -⟩ | ⟨x, hx | ⟨-, rfl⟩, hkind, hdetail⟩ := hend
      · cases hkind.symm.trans htimeout
      · rw [hdetail]
        exact hx.timeout.2
      · cases hkind.symm.trans htimeout
  | wbyte _ | rbyte =>
    exact (exec_byte rfl hcfg h).imp_right fun ⟨x, hx, hkind, _, hresult⟩ => ⟨hkind.trans hx.timeout.1, hresult⟩
  | start | stop | wbit _ | rbit | rack | sack _ =>
    exact (exec_lineOrBit rfl hcfg hwf h).imp_right fun ⟨x, hx, hkind, _, hresult⟩ => ⟨hkind.trans hx.kind, hresult⟩

end Sys2Proof.Machine

/-! Bits, bytes and ACK bits that finish `Ok` on the samples in store (41_serdes.md R107 to R118). -/

namespace Sys2Proof.Machine

/-! ### Commands that send -/

/-- WBIT sends bit 0 of its operand (R108). -/
theorem srBit_bitOperand (a : Byte) : srBit (bitOperand a) 0#4 = a.getLsbD 0 := by
  simp [srBit, bitOperand]

/-- An ACK cycle drives SDA low to send ACK (R115). -/
theorem srBit_ackOperand (a : Byte) : srBit (ackOperand a) 0#4 = !a.getLsbD 0 := by
  cases h : a.getLsbD 0 <;> rw [ackOperand, h] <;> rfl

/-- A command that sends one bit of `x` and whose clock rises within the budgets (R107). -/
theorem exec_sentBit {i : Instr} {x : Byte} (h : IsPrimitive i (writeBitSeq x) .plain) {s : State} {k : Nat}
    {rest : List Level} (hcfg : s.status.cfg = true) (hfits : waitFits s.conf k)
    (hscl : s.env.scl = stretched [k] ++ rest) :
    ∃ e : Engine, e.Settled s.eng ∧ e.KeepsFrameBytes s.eng ∧
      exec i s = .next { s.withRecord .ok 0#32 {} with
        sclO := false, sdaO := srBit x 0#4
        trace := s.trace ++ writeCellTrace s.conf k (srBit x 0#4)
        env := { s.env with scl := rest }, eng := e } := by
  rw [stretched_cons] at hscl
  have hrun := runSeq_writeBit (s := s.beginCommand) (x := x) (ms := []) hscl hfits
  exact exec_of_isPrimitive_ok h hcfg hrun ⟨_, _, _, _, _, _, _, rfl⟩

/-- Settles O15: the bit sent is bit 0 of the operand. -/
theorem wbitCompletes : Obligations.WbitCompletes := by
  intro s a k rest hcfg ha hfits hscl
  rw [← srBit_bitOperand a]
  exact exec_sentBit (isPrimitive_wbit ha) hcfg hfits hscl

/-- Settles O20: the bit sent is the inverse of bit 0 of the operand. -/
theorem sackCompletes : Obligations.SackCompletes := by
  intro s a k rest hcfg ha hfits hscl
  rw [← srBit_ackOperand a]
  exact exec_sentBit (isPrimitive_sack ha) hcfg hfits hscl

/-- Settles O17, by WRITE_BYTE_SEQ on the samples in store. -/
theorem wbyteCompletes : Obligations.WbyteCompletes := by
  intro s x ks rest hcfg hfits hscl
  obtain ⟨n, acc, hrun⟩ := runSeq_writeByte (s := s.beginCommand) (x := x) (ms := []) hscl hfits
  exact exec_of_isPrimitive_ok (isPrimitive_wbyte x) hcfg hrun ⟨_, _, _, _, _, _, _, rfl⟩

/-! ### Commands that receive -/

/-- A read cell ends with `Delay(T_LOW)` (R107). -/
theorem readCellTrace_getLast? (c : Conf) (k : Nat) (v : Level) :
    (readCellTrace c k v).getLast? = some (.delay c.tLow.toNat) := by
  simp [readCellTrace]

/-- So does a byte received, whose last cell is that of bit 0 (R110). -/
theorem readByteTrace_getLast? (c : Conf) {ks : List Nat} (h : ks.length = 8) (x : Byte) :
    (readByteTrace c ks x).getLast? = some (.delay c.tLow.toNat) := by
  match ks, h with
  | [_, _, _, _, _, _, _, _], _ => simp [readByteTrace, wireBits, readCellTrace_getLast?]

/-- Line events of a command leave no failure kept. -/
theorem WireMoves.err_eq_none {s t : State} {new : List LineEvent} (h : WireMoves s.beginCommand t new) :
    t.eng.err = none := by
  obtain ⟨_, _, _, _, _, _, _, rfl⟩ := h
  rfl

/-- A command that reports what it received finishes `Ok` with the shift register, once only its last `Delay(T_LOW)` is
left to perform. -/
theorem exec_received {i : Instr} {ms : List Micro} (h : IsPrimitive i ms .received) {s t : State}
    (hcfg : s.status.cfg = true) {new : List LineEvent}
    (hrun : runSeq (ms.map Micro.asPrimitive) s.beginCommand = runSeq [.hold .low] t)
    (hmoves : WireMoves s.beginCommand t new.dropLast) (hlast : new.getLast? = some (.delay s.conf.tLow.toNat)) :
    ∃ e : Engine, e.Settled s.eng ∧ e.KeepsFrameBytes s.eng ∧
      exec i s = .next { s.withRecord .ok 0#32 { data := t.eng.sr } with
        sclO := t.sclO, sdaO := t.sdaO, trace := s.trace ++ new, env := t.env, eng := e } := by
  have hconf : t.conf = s.conf := hmoves.conf
  have hall := hmoves.trans (wireMoves_pause s.conf.tLow.toNat t)
  rw [List.dropLast_append_getLast? _ hlast] at hall
  obtain ⟨e, hsettled, hkeeps, hfinish⟩ := hall.finish .ok 0#32 { data := t.eng.sr }
  have hend : runSeq [.hold .low] t = .ok (t.pause s.conf.tLow.toNat) := by
    rw [← hconf]
    exact runSeq_cons_done rfl
  refine ⟨e, hsettled, hkeeps, ?_⟩
  rw [exec_of_isPrimitive h hcfg, hrun, hend, Ran.state, complete_received hall.err_eq_none]
  exact congrArg _ hfinish

/-- Settles O16: RBIT is one read cell, whose bit is then in the shift register. -/
theorem rbitCompletes : Obligations.RbitCompletes := by
  intro s k v rest rest' hcfg hfits hscl hsda
  rw [stretched_cons] at hscl
  have hrun := runSeq_readBit (s := s.beginCommand) (last := .hold .low) (ms := []) hscl hsda hfits
  exact exec_received isPrimitive_rbit hcfg hrun ⟨_, _, _, _, _, _, _, rfl⟩ (readCellTrace_getLast? _ _ _)

/-- Settles O18: the shift register holds the byte whose bits, most significant first, SDA was sampled as. -/
theorem rbyteCompletes : Obligations.RbyteCompletes := by
  intro s x ks rest rest' hcfg hfits hscl hsda
  obtain ⟨n, acc, hrun⟩ :=
    runSeq_readByte (s := s.beginCommand) (last := .hold .low) (ms := []) hscl hsda hfits
  exact exec_received isPrimitive_rbyte hcfg hrun ⟨_, _, _, _, _, _, _, rfl⟩ (readByteTrace_getLast? _ hfits.1 _)

end Sys2Proof.Machine

/-! The checksums of the two frames as numbers (42_checksum_frames.md R121, R122). -/

namespace Sys2Proof.Machine

theorem checksumRead_toNat (ctrl d : Byte) : (checksumRead ctrl d).toNat = (ctrl.toNat + d.toNat) % 256 := by
  have hctrl := ctrl.isLt
  have hd := d.isLt
  simp only [checksumRead, BitVec.truncate_eq_setWidth, BitVec.toNat_setWidth, BitVec.toNat_add]
  omega

theorem checksumWrite_toNat (ctrl addr data : Byte) :
    (checksumWrite ctrl addr data).toNat = (ctrl.toNat + addr.toNat + data.toNat) % 256 := by
  have hctrl := ctrl.isLt
  have haddr := addr.isLt
  have hdata := data.isLt
  simp only [checksumWrite, BitVec.truncate_eq_setWidth, BitVec.toNat_setWidth, BitVec.toNat_add]
  omega

/-- Settles O30: nine bits hold the sum of two bytes. -/
theorem readChecksumIsTheSum : Obligations.ReadChecksumIsTheSum := checksumRead_toNat

/-- Settles O31: ten bits hold the sum of three bytes. -/
theorem writeChecksumIsTheSum : Obligations.WriteChecksumIsTheSum := checksumWrite_toNat

end Sys2Proof.Machine

/-! What the parts of a frame do on the samples in store (42_checksum_frames.md R126, R127, R130): each either happens
or stops at a failure, and says what it leaves of the lines, of the samples in store and of the frame bytes. -/

namespace Sys2Proof.Machine

/-! ### What the parts of a frame depend on and change -/

/-- The lines, the samples in store, and the frame bytes of the engine. -/
structure FrameView where
  sclO : Level
  sdaO : Level
  scl : List Level
  sda : List Level
  d : Byte
  c : Byte
  acked : BitVec 3

def State.frameView (s : State) : FrameView :=
  ⟨s.sclO, s.sdaO, s.env.scl, s.env.sda, s.eng.d, s.eng.c, s.eng.acked⟩

/-- The state after line events `new` of a frame, which leave `v`, and the engine's counters, shift register and bit
index as given. -/
def State.moved (s : State) (v : FrameView) (new : List LineEvent) (n acc : Count) (sr : Byte) (i : Nibble) : State :=
  { s with
    sclO := v.sclO, sdaO := v.sdaO, trace := s.trace ++ new, env := { s.env with scl := v.scl, sda := v.sda }
    eng := { s.eng with n := n, acc := acc, sr := sr, i := i, d := v.d, c := v.c, acked := v.acked } }

/-- Line events `new` of a frame lead from `s` to `t` and leave `v`: no failure is kept, and the control byte stays. -/
def FrameMoves (s t : State) (v : FrameView) (new : List LineEvent) : Prop :=
  ∃ n acc sr i, t = s.moved v new n acc sr i

theorem FrameMoves.trans {s t u : State} {v w : FrameView} {xs ys : List LineEvent} (h : FrameMoves s t v xs)
    (k : FrameMoves t u w ys) : FrameMoves s u w (xs ++ ys) := by
  obtain ⟨_, _, _, _, rfl⟩ := h
  obtain ⟨n, acc, sr, i, rfl⟩ := k
  exact ⟨n, acc, sr, i, by simp [State.moved]⟩

theorem FrameMoves.view {s t : State} {v : FrameView} {new : List LineEvent} (h : FrameMoves s t v new) :
    t.frameView = v := by
  obtain ⟨_, _, _, _, rfl⟩ := h
  rfl

theorem FrameMoves.conf {s t : State} {v : FrameView} {new : List LineEvent} (h : FrameMoves s t v new) :
    t.conf = s.conf := by
  obtain ⟨_, _, _, _, rfl⟩ := h
  rfl

theorem frameMoves_setSDA (b : Level) (s : State) :
    FrameMoves s (s.setSDA b) { s.frameView with sdaO := b } [.driveSDA b] := ⟨_, _, _, _, rfl⟩

theorem frameMoves_pause (us : Nat) (s : State) : FrameMoves s (s.pause us) s.frameView [.delay us] :=
  ⟨_, _, _, _, rfl⟩

/-- Line events after a failure keep it, and do otherwise what they do without it. -/
theorem FrameMoves.of_keepFailure {s t : State} {x : Failure} {v : FrameView} {new : List LineEvent}
    (h : FrameMoves (s.keepFailure x) t v new) : ∃ u, t = u.keepFailure x ∧ FrameMoves s u v new := by
  obtain ⟨n, acc, sr, i, rfl⟩ := h
  refine ⟨_, ?_, n, acc, sr, i, rfl⟩
  simp only [State.keepFailure_eq]
  rfl

/-! ### Parts of a frame that happen, and parts that fail -/

/-- Begun with `v` the line events `ms` all happen, leave `w` and are `new` on the trace. -/
def Plays (c : Conf) (ms : List Micro) (v w : FrameView) (new : List LineEvent) : Prop :=
  ∀ (s : State) (more : List Micro), s.conf = c → s.frameView = v →
    ∃ t, runSeq (ms ++ more) s = runSeq more t ∧ FrameMoves s t w new

/-- Begun with `v` the line events `ms` stop at the failure `x`, whatever comes after them; they leave `w` and are `new`
on the trace. -/
def Halts (c : Conf) (ms : List Micro) (v w : FrameView) (new : List LineEvent) (x : Failure) : Prop :=
  ∀ (s : State) (more : List Micro), s.conf = c → s.frameView = v →
    ∃ t, runSeq (ms ++ more) s = .failed (t.keepFailure x) ∧ FrameMoves s t w new

section
variable {c : Conf} {ms ms' : List Micro} {u v w : FrameView} {xs ys : List LineEvent} {x : Failure}

theorem Plays.append (h : Plays c ms u v xs) (k : Plays c ms' v w ys) : Plays c (ms ++ ms') u w (xs ++ ys) := by
  intro s more hconf hview
  obtain ⟨t, hrun, hmoves⟩ := h s (ms' ++ more) hconf hview
  obtain ⟨t', hrun', hmoves'⟩ := k t more (hmoves.conf.trans hconf) hmoves.view
  exact ⟨t', by rw [List.append_assoc, hrun, hrun'], hmoves.trans hmoves'⟩

theorem Plays.halts (h : Plays c ms u v xs) (k : Halts c ms' v w ys x) : Halts c (ms ++ ms') u w (xs ++ ys) x := by
  intro s more hconf hview
  obtain ⟨t, hrun, hmoves⟩ := h s (ms' ++ more) hconf hview
  obtain ⟨t', hrun', hmoves'⟩ := k t more (hmoves.conf.trans hconf) hmoves.view
  exact ⟨t', by rw [List.append_assoc, hrun, hrun'], hmoves.trans hmoves'⟩

/-- No part of a frame before its STOP follows a failure (R126). -/
theorem Halts.append (h : Halts c ms u v xs x) (ms' : List Micro) : Halts c (ms ++ ms') u v xs x := by
  intro s more hconf hview
  obtain ⟨t, hrun, hmoves⟩ := h s (ms' ++ more) hconf hview
  exact ⟨t, by rw [List.append_assoc, hrun], hmoves⟩

end

/-! ### The parts of a frame -/

section
variable {c : Conf} {l m : Level} {scl sda : List Level} {d e : Byte} {a : BitVec 3} {k : Nat} {ks : List Nat}

/-- START_SEQ (R98). -/
theorem plays_start (hk : waitFits c k) :
    Plays c startSeq ⟨l, m, stretched [k] ++ scl, sda, d, e, a⟩ ⟨false, false, scl, sda, d, e, a⟩ (startTrace c k) := by
  rintro s more rfl hview
  obtain ⟨rfl, rfl, hscl, rfl, rfl, rfl, rfl⟩ := FrameView.mk.inj hview
  exact ⟨_, runSeq_start (hscl.trans (stretched_cons k [] scl)) hk, _, _, _, _, rfl⟩

/-- STOP_SEQ (R101). -/
theorem plays_stop (hk : waitFits c k) :
    Plays c (stopSeq .timeout) ⟨l, m, stretched [k] ++ scl, sda, d, e, a⟩ ⟨true, true, scl, sda, d, e, a⟩
      (stopTrace c k) := by
  rintro s more rfl hview
  obtain ⟨rfl, rfl, hscl, rfl, rfl, rfl, rfl⟩ := FrameView.mk.inj hview
  exact ⟨_, runSeq_stop (hscl.trans (stretched_cons k [] scl)) hk, _, _, _, _, rfl⟩

/-- A byte sent (R110). -/
theorem plays_writeByte (x : Byte) (hks : byteFits c ks) :
    Plays c (writeByteSeq x) ⟨l, m, stretched ks ++ scl, sda, d, e, a⟩ ⟨false, x.getLsbD 0, scl, sda, d, e, a⟩
      (writeByteTrace c ks x) := by
  rintro s more rfl hview
  obtain ⟨rfl, rfl, hscl, rfl, rfl, rfl, rfl⟩ := FrameView.mk.inj hview
  obtain ⟨n, acc, hrun⟩ := runSeq_writeByte (x := x) (ms := more) hscl hks
  exact ⟨_, hrun, _, _, _, _, rfl⟩

/-- An ACK cycle in which the block replies with bit 0 of `x` (R115). -/
theorem plays_sendAck (x : Byte) (hk : waitFits c k) :
    Plays c (sendAckSeq x) ⟨l, m, stretched [k] ++ scl, sda, d, e, a⟩ ⟨false, !x.getLsbD 0, scl, sda, d, e, a⟩
      (writeCellTrace c k (!x.getLsbD 0)) := by
  rintro s more rfl hview
  obtain ⟨rfl, rfl, hscl, rfl, rfl, rfl, rfl⟩ := FrameView.mk.inj hview
  rw [← srBit_ackOperand]
  exact ⟨_, runSeq_writeBit (hscl.trans (stretched_cons k [] scl)) hk, _, _, _, _, rfl⟩

/-- A byte read, but for its last event (R110): it is then in the shift register. -/
theorem readByte_moves (last : Micro) {x : Byte} {s : State} (hks : byteFits s.conf ks)
    (hscl : s.env.scl = stretched ks ++ scl) (hsda : s.env.sda = wireBits x ++ sda) (more : List Micro) :
    ∃ t, runSeq (readByteSeq last ++ more) s = runSeq (last :: more) t ∧ t.eng.sr = x ∧
      FrameMoves s t ⟨false, true, scl, sda, s.eng.d, s.eng.c, s.eng.acked⟩ (readByteTrace s.conf ks x).dropLast := by
  obtain ⟨n, acc, hrun⟩ := runSeq_readByte (last := last) (ms := more) hscl hsda hks
  exact ⟨_, hrun, rfl, _, _, _, _, rfl⟩

/-- A single bit read, but for its last event (R109): it is then bit 0 of the shift register. -/
theorem readBit_moves (last : Micro) {b : Level} {s : State} (hk : waitFits s.conf k)
    (hscl : s.env.scl = stretched [k] ++ scl) (hsda : s.env.sda = b :: sda) (more : List Micro) :
    ∃ t, runSeq (readBitSeq last ++ more) s = runSeq (last :: more) t ∧ srBit t.eng.sr 0#4 = b ∧
      FrameMoves s t ⟨false, true, scl, sda, s.eng.d, s.eng.c, s.eng.acked⟩ (readCellTrace s.conf k b).dropLast := by
  have hrun := runSeq_readBit (last := last) (ms := more) (hscl.trans (stretched_cons k [] scl)) hsda hk
  have hbit : srBit (if b then 1#8 else 0#8) 0#4 = b := by cases b <;> rfl
  exact ⟨_, hrun, hbit, _, _, _, _, rfl⟩

/-- The `Delay(T_LOW)` that ends a byte or bit read is its last event. -/
theorem FrameMoves.last {s t u : State} {v w : FrameView} {new : List LineEvent} {us : Nat}
    (h : FrameMoves s t v new.dropLast) (k : FrameMoves t u w [.delay us]) (hlast : new.getLast? = some (.delay us)) :
    FrameMoves s u w new := by
  have hall := h.trans k
  rwa [List.dropLast_append_getLast? _ hlast] at hall

/-- A frame byte received (R127). -/
def FrameView.received (v : FrameView) (dst : FrameByte) (x : Byte) : FrameView :=
  match dst with
  | .d => { v with d := x }
  | .c => { v with c := x }

/-- A byte received (R110, R127). -/
theorem plays_readByte (dst : FrameByte) (x : Byte) (hks : byteFits c ks) :
    Plays c (readByteSeq (.closeByte dst)) ⟨l, m, stretched ks ++ scl, wireBits x ++ sda, d, e, a⟩
      (FrameView.received ⟨false, true, scl, sda, d, e, a⟩ dst x) (readByteTrace c ks x) := by
  rintro s more rfl hview
  obtain ⟨rfl, rfl, hscl, hsda, rfl, rfl, rfl⟩ := FrameView.mk.inj hview
  obtain ⟨t, hrun, rfl, hmoves⟩ := readByte_moves (.closeByte dst) hks hscl hsda more
  have close : ∃ u, fire (.closeByte dst) t = .done u ∧
      FrameMoves t u (t.frameView.received dst t.eng.sr) [.delay t.conf.tLow.toNat] := by
    cases dst <;> exact ⟨_, rfl, _, _, _, _, rfl⟩
  obtain ⟨u, hfire, hlast⟩ := close
  rw [hmoves.view, hmoves.conf] at hlast
  exact ⟨u, hrun.trans (runSeq_cons_done hfire), hmoves.last hlast (readByteTrace_getLast? _ hks.1 _)⟩

/-- The ACKs counted after one more (R130). -/
def ackCount (counted : Bool) (a : BitVec 3) : BitVec 3 := if counted then a + 1#3 else a

/-- An ACK that a frame samples (R127, R130). -/
theorem plays_frameAck (i : Nat) (counted : Bool) (hk : waitFits c k) :
    Plays c (frameAckSeq i counted) ⟨l, m, stretched [k] ++ scl, false :: sda, d, e, a⟩
      ⟨false, true, scl, sda, d, e, ackCount counted a⟩ (readCellTrace c k false) := by
  rintro s more rfl hview
  obtain ⟨rfl, rfl, hscl, hsda, rfl, rfl, rfl⟩ := FrameView.mk.inj hview
  obtain ⟨t, hrun, hbit, hmoves⟩ := readBit_moves (.closeAck i counted) hk hscl hsda more
  have close : ∃ u, fire (.closeAck i counted) t = .done u ∧
      FrameMoves t u { t.frameView with acked := ackCount counted t.frameView.acked } [.delay t.conf.tLow.toNat] := by
    simp only [fire, endAck, State.pause_eng, hbit, Bool.false_eq_true, if_false]
    cases counted <;> exact ⟨_, rfl, _, _, _, _, rfl⟩
  obtain ⟨u, hfire, hlast⟩ := close
  rw [hmoves.view, hmoves.conf] at hlast
  exact ⟨u, hrun.trans (runSeq_cons_done hfire), hmoves.last hlast (readCellTrace_getLast? _ k false)⟩

/-- A NACK that a frame samples ends it (R126, R127, R130). -/
theorem halts_frameAck (i : Nat) (counted : Bool) (hk : waitFits c k) :
    Halts c (frameAckSeq i counted) ⟨l, m, stretched [k] ++ scl, true :: sda, d, e, a⟩
      ⟨false, true, scl, sda, d, e, a⟩ (readCellTrace c k true) ⟨.nack, BitVec.ofNat 32 i⟩ := by
  rintro s more rfl hview
  obtain ⟨rfl, rfl, hscl, hsda, rfl, rfl, rfl⟩ := FrameView.mk.inj hview
  obtain ⟨t, hrun, hbit, hmoves⟩ := readBit_moves (.closeAck i counted) hk hscl hsda more
  have hfire : fire (.closeAck i counted) t =
      .failed ((t.pause s.conf.tLow.toNat).keepFailure ⟨.nack, BitVec.ofNat 32 i⟩) := by
    simp only [fire, endAck, State.pause_eng, hbit, if_true, Hold.us, hmoves.conf]
  have hlast := frameMoves_pause s.conf.tLow.toNat t
  rw [hmoves.view] at hlast
  exact ⟨_, hrun.trans (runSeq_cons_failed hfire), hmoves.last hlast (readCellTrace_getLast? _ k true)⟩

/-- A clock held low through the per-bit budget stops START (R93, R98). -/
theorem halts_start (hbudget : c.tBitTo.toNat ≤ c.tByteTo.toNat) :
    Halts c startSeq ⟨l, m, List.replicate (c.tBitTo.toNat + 1) false ++ scl, sda, d, e, a⟩
      ⟨true, true, scl, sda, d, e, a⟩ (startHead ++ stuckTrace c.tBitTo.toNat) ⟨.timeout, c.tBitTo⟩ := by
  rintro s more rfl hview
  obtain ⟨rfl, rfl, hscl, rfl, rfl, rfl, rfl⟩ := FrameView.mk.inj hview
  have hrun := runSeq_release_stuck (s := s.setSDA true) (fresh := true) (f := .timeout) (ms := startSeq.drop 3 ++ more)
    hscl ((Nat.zero_add _).le.trans hbudget)
  rw [FailAs.failure, saturate_zeroExtend] at hrun
  exact ⟨_, (runSeq_cons_done rfl).trans hrun, (frameMoves_setSDA true s).trans ⟨_, _, _, _, rfl⟩⟩

/-- A clock held low through the per-bit budget stops STOP, SDA left low (R93, R101, R103). -/
theorem halts_stop (hbudget : c.tBitTo.toNat ≤ c.tByteTo.toNat) :
    Halts c (stopSeq .timeout) ⟨l, m, List.replicate (c.tBitTo.toNat + 1) false ++ scl, sda, d, e, a⟩
      ⟨true, false, scl, sda, d, e, a⟩ (stopHead c ++ stuckTrace c.tBitTo.toNat) ⟨.timeout, c.tBitTo⟩ := by
  rintro s more rfl hview
  obtain ⟨rfl, rfl, hscl, rfl, rfl, rfl, rfl⟩ := FrameView.mk.inj hview
  have head := (frameMoves_setSDA false s).trans (frameMoves_pause s.conf.tStopHold.toNat _)
  have hrun := runSeq_release_stuck (s := (s.setSDA false).pause s.conf.tStopHold.toNat) (fresh := true) (f := .timeout)
    (ms := (stopSeq .timeout).drop 4 ++ more) hscl ((Nat.zero_add _).le.trans hbudget)
  rw [FailAs.failure, saturate_zeroExtend] at hrun
  exact ⟨_, (runSeq_cons_done rfl).trans ((runSeq_cons_done rfl).trans hrun), head.trans ⟨_, _, _, _, rfl⟩⟩

end

end Sys2Proof.Machine

/-! A frame and its STOP, which follows whatever came before it (42_checksum_frames.md R126): the first failure is the
one kept, and the `finish` reports it. -/

namespace Sys2Proof.Machine

/-! ### A frame and its STOP -/

/-- The state with the failure that is kept, if any. -/
def State.keeping (s : State) : Option Failure → State
  | none => s
  | some x => s.keepFailure x

/-- A failure after a failure is not kept (R126). -/
theorem keeping_keepFailure (s : State) (x : Failure) (g : Option Failure) :
    (s.keepFailure x).keeping g = s.keepFailure x := by
  cases g with
  | none => rfl
  | some y =>
    simp only [State.keeping, State.keepFailure_eq]
    rfl

/-- Begun with `v` the line events `ms` end, or stop at the failure `f`; they leave `w` and are `new` on the trace. -/
def Leaves (c : Conf) (ms : List Micro) (v w : FrameView) (new : List LineEvent) (f : Option Failure) : Prop :=
  ∀ s : State, s.conf = c → s.frameView = v → ∃ t, (runSeq ms s).state = t.keeping f ∧ FrameMoves s t w new

section
variable {c : Conf} {ms ms' : List Micro} {u v w : FrameView} {xs ys : List LineEvent}

theorem Plays.leaves (h : Plays c ms v w xs) : Leaves c ms v w xs none := by
  intro s hconf hview
  obtain ⟨t, hrun, hmoves⟩ := h s [] hconf hview
  rw [List.append_nil] at hrun
  exact ⟨t, congrArg Ran.state hrun, hmoves⟩

theorem Halts.leaves {x : Failure} (h : Halts c ms v w xs x) : Leaves c ms v w xs (some x) := by
  intro s hconf hview
  obtain ⟨t, hrun, hmoves⟩ := h s [] hconf hview
  rw [List.append_nil] at hrun
  exact ⟨t, congrArg Ran.state hrun, hmoves⟩

/-- Line events that follow whatever came before them: the first failure is the one kept (R126). -/
theorem Leaves.then {f g : Option Failure} (h : Leaves c ms u v xs f) (k : Leaves c ms' v w ys g) {s : State}
    (hconf : s.conf = c) (hview : s.frameView = u) :
    ∃ t, (runSeq ms' (runSeq ms s).state).state = t.keeping (f <|> g) ∧ FrameMoves s t w (xs ++ ys) := by
  obtain ⟨t, hrun, hmoves⟩ := h s hconf hview
  rw [hrun]
  cases f with
  | none =>
    obtain ⟨t', hrun', hmoves'⟩ := k t (hmoves.conf.trans hconf) hmoves.view
    exact ⟨t', hrun', hmoves.trans hmoves'⟩
  | some x =>
    have hkept : (t.keepFailure x).frameView = t.frameView := by
      rw [State.keepFailure_eq]
      rfl
    obtain ⟨t', hrun', hmoves'⟩ := k (t.keepFailure x) ((State.keepFailure_conf x t).trans (hmoves.conf.trans hconf))
      (hkept.trans hmoves.view)
    obtain ⟨t'', rfl, hmoves''⟩ := hmoves'.of_keepFailure
    exact ⟨t'', hrun'.trans (keeping_keepFailure t'' x g), hmoves.trans hmoves''⟩

end

/-- The state in which a frame's line events begin (R127, R130). -/
def State.beginFrame (s : State) (ctrl d c : Byte) (acked : BitVec 3) : State :=
  s.setEng { s.eng with err := none, ctrl := ctrl, d := d, c := c, acked := acked }

/-- The engine that the `finish` of a frame leaves: the control byte `ctrl` and the frame bytes of `v`. -/
def Engine.FrameSettled (e before : Engine) (ctrl : Byte) (v : FrameView) : Prop :=
  e.Settled before ∧ e.ctrl = ctrl ∧ e.d = v.d ∧ e.c = v.c ∧ e.acked = v.acked

/-- The completion record after the line events of a frame. -/
theorem FrameMoves.finish {s t : State} {ctrl d c : Byte} {a : BitVec 3} {v : FrameView} {new : List LineEvent}
    (h : FrameMoves (s.beginFrame ctrl d c a) t v new) (k : Kind) (x : Word) (r : Result) :
    ∃ e : Engine, e.FrameSettled s.eng ctrl v ∧
      finish k x r t = { s.withRecord k x r with
        sclO := v.sclO, sdaO := v.sdaO, trace := s.trace ++ new, env := { s.env with scl := v.scl, sda := v.sda }
        eng := e } := by
  obtain ⟨_, _, _, _, rfl⟩ := h
  refine ⟨_, ?_, finish_eq k x r _⟩
  exact ⟨⟨rfl, rfl, rfl, rfl, rfl, rfl⟩, rfl, rfl, rfl, rfl⟩

/-- What RFRAME finishes with when its line events all happen: the checksum test (R128). -/
def readOutcome (ctrl d c : Byte) : Failure where
  kind := if c.toNat = (ctrl.toNat + d.toNat) % 256 then .ok else .checksumMismatch
  detail := if c.toNat = (ctrl.toNat + d.toNat) % 256 then 0#32 else c.zeroExtend 32

/-- A command that kept a failure finishes with it (R154). -/
theorem concludeWith_keepFailure {r : Result} {s t : State} (x : Failure) (h : s.eng.err = none) :
    concludeWith r (s.keepFailure x) t = finish x.kind x.detail r s := by
  have hkept : (s.keepFailure x).eng.err = some x := by
    rw [State.keepFailure_eng, h]
    rfl
  rw [concludeWith_some hkept, finish_keepFailure]

/-- The `finish` of RFRAME (R126, R128). -/
theorem complete_readFrame_keeping {s : State} (h : s.eng.err = none) (f : Option Failure) :
    let x := f.getD (readOutcome s.eng.ctrl s.eng.d s.eng.c)
    complete .readFrame (s.keeping f) = finish x.kind x.detail (readFrameResult s.eng) s := by
  cases f with
  | none =>
    have htest : s.eng.c = checksumRead s.eng.ctrl s.eng.d ↔
        s.eng.c.toNat = (s.eng.ctrl.toNat + s.eng.d.toNat) % 256 := by
      rw [← BitVec.toNat_inj, checksumRead_toNat]
    obtain ⟨hc, hfinish⟩ | ⟨hc, hfinish⟩ := complete_readFrame h
    · simp only [State.keeping, hfinish, Option.getD_none, readOutcome, if_pos (htest.mp hc)]
    · simp only [State.keeping, hfinish, Option.getD_none, readOutcome, if_neg (mt htest.mpr hc)]
  | some x =>
    have hresult : readFrameResult (s.keepFailure x).eng = readFrameResult s.eng := by
      rw [State.keepFailure_eng]
      rfl
    exact (concludeWith_keepFailure x h).trans (by rw [State.keeping, hresult]; rfl)

/-- The `finish` of WFRAME (R126, R130). -/
theorem complete_writeFrame_keeping {s : State} (h : s.eng.err = none) (f : Option Failure) :
    let x := f.getD ⟨.ok, 0#32⟩
    complete .writeFrame (s.keeping f) = finish x.kind x.detail (writeFrameResult s.eng) s := by
  cases f with
  | none => exact concludeWith_none h
  | some x =>
    have hresult : writeFrameResult (s.keepFailure x).eng = writeFrameResult s.eng := by
      rw [State.keepFailure_eng]
      rfl
    exact (concludeWith_keepFailure x h).trans (by rw [State.keeping, hresult]; rfl)

/-- RFRAME, from what its line events and its STOP do (R126 to R129). -/
theorem exec_rframe_of_leaves {nib : Nibble} {s : State} (hcfg : s.status.cfg = true) {ctrl : Byte}
    (hctrl : ctrl = controlByte nib s.conf.devAddr true) {v w : FrameView} {xs ys : List LineEvent}
    {f g : Option Failure}
    (hframe : Leaves s.conf (readFrameSeq ctrl) ⟨s.sclO, s.sdaO, s.env.scl, s.env.sda, 0#8, 0#8, s.eng.acked⟩ v xs f)
    (hstop : Leaves s.conf (stopSeq .timeout) v w ys g) :
    let x := (f <|> g).getD (readOutcome ctrl w.d w.c)
    ∃ e : Engine, e.FrameSettled s.eng ctrl w ∧
      exec (.rframe nib) s = .next { s.withRecord x.kind x.detail { data := w.d, aux := w.c, ctrl := ctrl } with
        sclO := w.sclO, sdaO := w.sdaO, trace := s.trace ++ (xs ++ ys)
        env := { s.env with scl := w.scl, sda := w.sda }, eng := e } := by
  subst hctrl
  obtain ⟨t, hrun, hmoves⟩ := hframe.then hstop (s := (rframeCommand nib s).1) rfl rfl
  have hbytes : t.eng.err = none ∧ t.eng.ctrl = controlByte nib s.conf.devAddr true ∧ t.eng.d = w.d ∧
      t.eng.c = w.c := by
    obtain ⟨_, _, _, _, rfl⟩ := hmoves
    exact ⟨rfl, rfl, rfl, rfl⟩
  obtain ⟨herr, hctrl, hd, hc⟩ := hbytes
  have hcomplete := complete_readFrame_keeping herr (f <|> g)
  rw [readFrameResult, hctrl, hd, hc] at hcomplete
  obtain ⟨e, hsettled, hfinish⟩ := FrameMoves.finish (s := s) hmoves _ _ _
  refine ⟨e, hsettled, ?_⟩
  rw [exec_rframe_eq nib hcfg, hrun, hcomplete, hfinish]

/-- WFRAME, from what its line events and its STOP do (R126, R130). -/
theorem exec_wframe_of_leaves {nib : Nibble} {addr data : Byte} {s : State} (hcfg : s.status.cfg = true)
    {ctrl chk : Byte} (hctrl : ctrl = controlByte nib s.conf.devAddr false) (hchk : chk = checksumWrite ctrl addr data)
    {v w : FrameView} {xs ys : List LineEvent} {f g : Option Failure}
    (hframe : Leaves s.conf (writeFrameSeq ctrl addr data chk)
      ⟨s.sclO, s.sdaO, s.env.scl, s.env.sda, s.eng.d, chk, 0#3⟩ v xs f)
    (hstop : Leaves s.conf (stopSeq .timeout) v w ys g) :
    let x := (f <|> g).getD ⟨.ok, 0#32⟩
    ∃ e : Engine, e.FrameSettled s.eng ctrl w ∧
      exec (.wframe nib addr data) s = .next
        { s.withRecord x.kind x.detail { data := w.acked.zeroExtend 8, aux := w.c, ctrl := ctrl } with
          sclO := w.sclO, sdaO := w.sdaO, trace := s.trace ++ (xs ++ ys)
          env := { s.env with scl := w.scl, sda := w.sda }, eng := e } := by
  subst hchk hctrl
  obtain ⟨t, hrun, hmoves⟩ := hframe.then hstop (s := (wframeCommand nib addr data s).1) rfl rfl
  have hbytes : t.eng.err = none ∧ t.eng.ctrl = controlByte nib s.conf.devAddr false ∧ t.eng.c = w.c ∧
      t.eng.acked = w.acked := by
    obtain ⟨_, _, _, _, rfl⟩ := hmoves
    exact ⟨rfl, rfl, rfl, rfl⟩
  obtain ⟨herr, hctrl, hc, hacked⟩ := hbytes
  have hcomplete := complete_writeFrame_keeping herr (f <|> g)
  rw [writeFrameResult, hctrl, hc, hacked] at hcomplete
  obtain ⟨e, hsettled, hfinish⟩ := FrameMoves.finish (s := s) hmoves _ _ _
  refine ⟨e, hsettled, ?_⟩
  rw [exec_wframe_eq nib addr data hcfg, hrun, hcomplete, hfinish]

end Sys2Proof.Machine

/-! RFRAME and WFRAME on the samples in store (42_checksum_frames.md R126 to R131). -/

namespace Sys2Proof.Machine

theorem stretched_pair (k k' : Nat) : stretched [k, k'] = stretched [k] ++ stretched [k'] := stretched_append [k] [k']

/-! ### RFRAME on the samples in store -/

/-- RFRAME before its STOP, the control byte ACKed (R127). -/
theorem plays_readFrame {c : Conf} {l m : Level} {scl scl' sda sda' : List Level} {a : BitVec 3} {d₀ x₀ : Byte}
    {kStart kAck kAck' kNack : Nat} {ksCtrl ksData ksChk : List Nat} (ctrl d x : Byte)
    (hwaits : ∀ k ∈ [kStart, kAck, kAck', kNack], waitFits c k) (hbytes : ∀ ks ∈ [ksCtrl, ksData, ksChk], byteFits c ks)
    (hscl : scl = stretched ([kStart] ++ ksCtrl ++ [kAck] ++ ksData ++ [kAck'] ++ ksChk ++ [kNack]) ++ scl')
    (hsda : sda = false :: (wireBits d ++ wireBits x ++ sda')) :
    Plays c (readFrameSeq ctrl) ⟨l, m, scl, sda, d₀, x₀, a⟩ ⟨false, true, scl', sda', d, x, a⟩
      (startTrace c kStart ++ writeByteTrace c ksCtrl ctrl ++ readCellTrace c kAck false ++ readByteTrace c ksData d ++
        writeCellTrace c kAck' false ++ readByteTrace c ksChk x ++ writeCellTrace c kNack true) := by
  simp only [List.forall_mem_cons] at hwaits hbytes
  obtain ⟨hStart, hAck, hAck', hNack, -⟩ := hwaits
  obtain ⟨hCtrl, hData, hChk, -⟩ := hbytes
  simp only [stretched_append, List.append_assoc] at hscl hsda
  subst hscl hsda
  exact ((((((plays_start hStart).append (plays_writeByte ctrl hCtrl)).append (plays_frameAck 0 false hAck)).append
    (plays_readByte .d d hData)).append (plays_sendAck 1#8 hAck')).append (plays_readByte .c x hChk)).append
    (plays_sendAck 0#8 hNack)

/-- The control byte of RFRAME (R80, R82). -/
theorem controlByte_read_toNat (nib : Nibble) {dev : Byte} (h : dev.toNat ≤ 7) :
    (controlByte nib dev true).toNat = nib.toNat * 16 + dev.toNat * 2 + 1 :=
  controlByteLayout.1 nib dev true h

/-- The control byte of WFRAME (R80, R82). -/
theorem controlByte_write_toNat (nib : Nibble) {dev : Byte} (h : dev.toNat ≤ 7) :
    (controlByte nib dev false).toNat = nib.toNat * 16 + dev.toNat * 2 :=
  controlByteLayout.1 nib dev false h

/-- Settles O32: every part of the frame and its STOP happen, and the checksum test decides. -/
theorem rframeCompletes : Obligations.RframeCompletes := by
  intro s nib d c kStart kAck kAck' kNack kStop ksCtrl ksData ksChk rest rest' hcfg hdev hwaits hbytes hscl hsda
  obtain ⟨hframe, hstop⟩ := List.forall_mem_append.mp
    (show ∀ k ∈ [kStart, kAck, kAck', kNack] ++ [kStop], waitFits s.conf k from hwaits)
  obtain ⟨e, ⟨hsettled, hctrl, hd, hc, hacked⟩, hexec⟩ := exec_rframe_of_leaves hcfg rfl
    (plays_readFrame _ d c hframe hbytes (by rw [hscl]; simp only [stretched_append, stretched_pair, List.append_assoc])
      hsda).leaves (plays_stop (scl := rest) (hstop kStop List.mem_cons_self)).leaves
  exact ⟨e, _, controlByte_read_toNat nib hdev, hsettled, hctrl, hd, hc, hacked, hexec⟩

/-- Settles O33: the control byte's ACK cycle fails the frame, and its STOP happens. -/
theorem rframeNackStops : Obligations.RframeNackStops := by
  intro s nib kStart kAck kStop ksCtrl rest rest' hcfg hdev hwaits hCtrl hscl hsda
  simp only [List.forall_mem_cons] at hwaits
  obtain ⟨hStart, hAck, hStop, -⟩ := hwaits
  have frame (ctrl : Byte) : Halts s.conf (readFrameSeq ctrl)
      ⟨s.sclO, s.sdaO, s.env.scl, s.env.sda, 0#8, 0#8, s.eng.acked⟩
      ⟨false, true, stretched [kStop] ++ rest, rest', 0#8, 0#8, s.eng.acked⟩
      (startTrace s.conf kStart ++ writeByteTrace s.conf ksCtrl ctrl ++ readCellTrace s.conf kAck true)
      ⟨.nack, 0#32⟩ := by
    simp only [stretched_append, stretched_pair, List.append_assoc] at hscl
    rw [hscl, hsda]
    exact ((((((plays_start hStart).append (plays_writeByte ctrl hCtrl)).halts (halts_frameAck 0 false hAck)).append _
      ).append _).append _).append _
  obtain ⟨e, ⟨hsettled, hctrl, hd, hc, hacked⟩, hexec⟩ :=
    exec_rframe_of_leaves hcfg rfl (frame _).leaves (plays_stop hStop).leaves
  exact ⟨e, _, controlByte_read_toNat nib hdev, hsettled, hctrl, hd, hc, hacked, hexec⟩

/-- Settles O34: the frame happens and its STOP is stopped, so that its failure comes before the checksum test. -/
theorem rframeStopTimeoutOutranksChecksum : Obligations.RframeStopTimeoutOutranksChecksum := by
  intro s nib d c kStart kAck kAck' kNack ksCtrl ksData ksChk rest rest' hcfg hdev hbudget hwaits hbytes hscl hsda
  obtain ⟨e, ⟨hsettled, hctrl, hd, hc, hacked⟩, hexec⟩ := exec_rframe_of_leaves hcfg rfl
    (plays_readFrame _ d c hwaits hbytes (hscl.trans (List.append_assoc _ _ _)) hsda).leaves (halts_stop hbudget).leaves
  exact ⟨e, _, controlByte_read_toNat nib hdev, hsettled, hctrl, hd, hc, hacked, hexec⟩

/-! ### WFRAME on the samples in store -/

/-- A byte of WFRAME that is ACKed, and its ACK cycle (R130). -/
theorem plays_ackedByte {c : Conf} {l m : Level} {scl sda : List Level} {d e : Byte} {a : BitVec 3} {ks : List Nat}
    {k : Nat} (i : Nat) (x : Byte) (hks : byteFits c ks) (hk : waitFits c k) :
    Plays c (writeByteSeq x ++ frameAckSeq i true)
      ⟨l, m, stretched ks ++ (stretched [k] ++ scl), false :: sda, d, e, a⟩ ⟨false, true, scl, sda, d, e, a + 1#3⟩
      (writeByteTrace c ks x ++ readCellTrace c k false) :=
  (plays_writeByte x hks).append (plays_frameAck i true hk)

/-- Settles O35: every part of the frame and its STOP happen. -/
theorem wframeCompletes : Obligations.WframeCompletes := by
  intro s nib addr data kStart k0 k1 k2 k3 kStop ks0 ks1 ks2 ks3 rest rest' hcfg hdev hwaits hbytes hscl hsda
  simp only [List.forall_mem_cons] at hwaits hbytes
  obtain ⟨hStart, hk0, hk1, hk2, hk3, hStop, -⟩ := hwaits
  obtain ⟨hks0, hks1, hks2, hks3, -⟩ := hbytes
  have frame (ctrl chk : Byte) : Plays s.conf (writeFrameSeq ctrl addr data chk)
      ⟨s.sclO, s.sdaO, s.env.scl, s.env.sda, s.eng.d, chk, 0#3⟩
      ⟨false, true, stretched [kStop] ++ rest, rest', s.eng.d, chk, 4#3⟩
      (startTrace s.conf kStart ++ (writeByteTrace s.conf ks0 ctrl ++ readCellTrace s.conf k0 false) ++
        (writeByteTrace s.conf ks1 addr ++ readCellTrace s.conf k1 false) ++
        (writeByteTrace s.conf ks2 data ++ readCellTrace s.conf k2 false) ++
        (writeByteTrace s.conf ks3 chk ++ readCellTrace s.conf k3 false)) := by
    simp only [stretched_append, stretched_pair, List.append_assoc] at hscl
    rw [hscl, hsda]
    exact ((((plays_start hStart).append (plays_ackedByte 0 ctrl hks0 hk0)).append
      (plays_ackedByte 1 addr hks1 hk1)).append (plays_ackedByte 2 data hks2 hk2)).append
      (plays_ackedByte 3 chk hks3 hk3)
  obtain ⟨e, ⟨hsettled, hctrl, hd, hc, hacked⟩, hexec⟩ :=
    exec_wframe_of_leaves hcfg rfl rfl (frame _ _).leaves (plays_stop hStop).leaves
  simp only [← List.append_assoc] at hexec
  refine ⟨e, _, _, controlByte_write_toNat nib hdev, checksumWrite_toNat _ _ _, hsettled, hctrl, hd, hc, hacked, ?_⟩
  simp only [← List.append_assoc]
  exact hexec

/-- The bytes of WFRAME from the one of number `i` on, each with its ACK cycle (R130). -/
def writeParts : Nat → List Byte → List Micro
  | _, [] => []
  | i, x :: xs => writeByteSeq x ++ frameAckSeq i true ++ writeParts (i + 1) xs

theorem writeFrameSeq_eq (ctrl addr data chk : Byte) :
    writeFrameSeq ctrl addr data chk = startSeq ++ writeParts 0 [ctrl, addr, data, chk] := by
  simp [writeFrameSeq, writeParts]

theorem waitFits_zero (c : Conf) : waitFits c 0 := ⟨Nat.zero_le _, Nat.zero_le _⟩

theorem byteFits_zero (c : Conf) : byteFits c (List.replicate 8 0) :=
  ⟨List.length_replicate, fun k hk => by simp [List.eq_of_mem_replicate hk], by simp⟩

/-- High samples for a byte and its ACK cycle, and for `k` more of both. -/
theorem replicate_true_eq_stretched (k : Nat) (scl : List Level) : List.replicate (9 * (k + 1)) true ++ scl =
    stretched (List.replicate 8 0) ++ (stretched [0] ++ (List.replicate (9 * k) true ++ scl)) := by
  rw [Nat.mul_add, Nat.add_comm, List.replicate_add, List.append_assoc]
  rfl

/-- WFRAME stops at the first byte that is not ACKed, SCL high at every first sample (R130, R131). -/
theorem halts_writeParts {c : Conf} {scl sda : List Level} {d e : Byte} (xs : List Byte) :
    ∀ {k i : Nat} {l m : Level} {a : BitVec 3}, k < xs.length →
      Halts c (writeParts i xs)
        ⟨l, m, List.replicate (9 * (k + 1)) true ++ scl, List.replicate k false ++ true :: sda, d, e, a⟩
        ⟨false, true, scl, sda, d, e, a + BitVec.ofNat 3 k⟩
        (List.zipWith (fun x v => writeByteTrace c (List.replicate 8 0) x ++ readCellTrace c 0 v) xs
          (List.replicate k false ++ [true])).flatten ⟨.nack, BitVec.ofNat 32 (i + k)⟩ := by
  induction xs with
  | nil => exact fun h => absurd h (Nat.not_lt_zero _)
  | cons x xs ih =>
    intro k i l m a hk
    rw [replicate_true_eq_stretched]
    cases k with
    | zero =>
      have hnack := ((plays_writeByte (l := l) (m := m) (sda := true :: sda) (d := d) (e := e) (a := a) x
        (byteFits_zero c)).halts (halts_frameAck (scl := scl) i true (waitFits_zero c))).append (writeParts (i + 1) xs)
      simpa [writeParts] using hnack
    | succ k =>
      have hmore := (plays_ackedByte (l := l) (m := m) (a := a) i x (byteFits_zero c) (waitFits_zero c)).halts
        (ih (k := k) (i := i + 1) (Nat.lt_of_succ_lt_succ hk))
      have hcount : a + 1#3 + BitVec.ofNat 3 k = a + BitVec.ofNat 3 (k + 1) := by
        rw [BitVec.add_assoc, ← BitVec.ofNat_add, Nat.add_comm]
      rw [hcount, Nat.add_right_comm, Nat.add_assoc i k 1] at hmore
      exact hmore

/-- WFRAME before its STOP, byte `k` not ACKed, SCL high at every first sample (R130, R131). -/
theorem halts_writeFrame {c : Conf} {l m : Level} {scl sda : List Level} {d e : Byte} {k : Nat} (hk : k < 4)
    (ctrl addr data chk : Byte) :
    Halts c (writeFrameSeq ctrl addr data chk)
      ⟨l, m, List.replicate (9 * (k + 1) + 1) true ++ scl, List.replicate k false ++ true :: sda, d, e, 0#3⟩
      ⟨false, true, scl, sda, d, e, BitVec.ofNat 3 k⟩
      (startTrace c 0 ++ (List.zipWith (fun x v => writeByteTrace c (List.replicate 8 0) x ++ readCellTrace c 0 v)
        [ctrl, addr, data, chk] (List.replicate k false ++ [true])).flatten) ⟨.nack, BitVec.ofNat 32 k⟩ := by
  have parts := (plays_start (l := l) (m := m) (waitFits_zero c)).halts
    (halts_writeParts (scl := scl) (sda := sda) (d := d) (e := e) (a := 0#3) (i := 0) [ctrl, addr, data, chk] hk)
  rw [← writeFrameSeq_eq, BitVec.zero_add, Nat.zero_add] at parts
  exact parts

/-- Settles O36: the frame stops in the ACK cycle of byte `k`, and its STOP happens. -/
theorem wframeNackStops : Obligations.WframeNackStops := by
  intro s nib addr data k rest rest' hcfg hdev hk hscl hsda
  have hstore : s.env.scl = List.replicate (9 * (k + 1) + 1) true ++ (stretched [0] ++ rest) := by
    rw [hscl, List.replicate_succ' (n := 9 * (k + 1) + 1), List.append_assoc]
    rfl
  have hdata : (BitVec.ofNat 3 k).zeroExtend 8 = BitVec.ofNat 8 k := by interval_cases k <;> rfl
  have frame (ctrl chk : Byte) := halts_writeFrame (c := s.conf) (l := s.sclO) (m := s.sdaO)
    (scl := stretched [0] ++ rest) (sda := rest') (d := s.eng.d) (e := chk) hk ctrl addr data chk
  rw [← hstore, ← hsda] at frame
  obtain ⟨e, ⟨hsettled, hctrl, hd, hc, hacked⟩, hexec⟩ :=
    exec_wframe_of_leaves hcfg rfl rfl (frame _ _).leaves (plays_stop (waitFits_zero s.conf)).leaves
  refine ⟨e, _, _, controlByte_write_toNat nib hdev, checksumWrite_toNat _ _ _, hsettled, hctrl, hd, hc, hacked, ?_⟩
  rw [← hdata]
  exact hexec

/-! ### A START that times out -/

/-- A frame's STOP whose clock is held low through the per-bit budget, or rises (R93, R101). -/
theorem leaves_stop {c : Conf} {l m : Level} {scl sda : List Level} {d e : Byte} {a : BitVec 3} {k : Nat} (stuck : Bool)
    (hbudget : c.tBitTo.toNat ≤ c.tByteTo.toNat) (hk : waitFits c k) :
    Leaves c (stopSeq .timeout)
      ⟨l, m, (if stuck then List.replicate (c.tBitTo.toNat + 1) false else stretched [k]) ++ scl, sda, d, e, a⟩
      ⟨true, !stuck, scl, sda, d, e, a⟩
      (if stuck then stopHead c ++ stuckTrace c.tBitTo.toNat else stopTrace c k)
      (if stuck then some ⟨.timeout, c.tBitTo⟩ else none) := by
  cases stuck with
  | true => exact (halts_stop hbudget).leaves
  | false => exact (plays_stop hk).leaves

/-- A frame whose first part fails. -/
theorem Halts.of_first {c : Conf} {ms ms' : List Micro} {v w : FrameView} {new : List LineEvent} {x : Failure}
    (h : Halts c ms v w new x) (hfirst : ms <+: ms') : Halts c ms' v w new x := by
  obtain ⟨more, rfl⟩ := hfirst
  exact h.append more

theorem start_first_readFrame (ctrl : Byte) : startSeq <+: readFrameSeq ctrl := ⟨_, readFrameParts_flatten ctrl⟩

theorem start_first_writeFrame (ctrl addr data chk : Byte) : startSeq <+: writeFrameSeq ctrl addr data chk :=
  ⟨_, (writeFrameSeq_eq ctrl addr data chk).symm⟩

/-- Settles O37: START fails the frame, and its STOP follows whatever comes of it. -/
theorem frameStartTimeoutStillStops : Obligations.FrameStartTimeoutStillStops := by
  intro s nib addr data kStop rest stuck hcfg hdev hbudget hfits hscl
  rw [List.append_assoc] at hscl
  have start (d e : Byte) (a : BitVec 3) := halts_start (l := s.sclO) (m := s.sdaO)
    (scl := (if stuck then List.replicate (s.conf.tBitTo.toNat + 1) false else stretched [kStop]) ++ rest)
    (sda := s.env.sda) (d := d) (e := e) (a := a) hbudget
  rw [← hscl] at start
  obtain ⟨e, ⟨hsettled, -⟩, hexec⟩ := exec_rframe_of_leaves (nib := nib) hcfg rfl
    ((start _ _ _).of_first (start_first_readFrame _)).leaves (leaves_stop stuck hbudget hfits)
  obtain ⟨e', ⟨hsettled', -⟩, hexec'⟩ := exec_wframe_of_leaves (nib := nib) hcfg rfl rfl
    ((start _ _ _).of_first (start_first_writeFrame _ addr data _)).leaves (leaves_stop stuck hbudget hfits)
  exact ⟨e, e', _, _, _, _, rfl, controlByte_read_toNat nib hdev, controlByte_write_toNat nib hdev,
    checksumWrite_toNat _ _ _, hsettled, hsettled', hexec, hexec'⟩

end Sys2Proof.Machine

/-! The line events of a command that sees SCL high at every first sample, counted and timed (42_checksum_frames.md
R133; 70_reset_and_hazards.md R184, R186). -/

namespace Sys2Proof.Machine

/-! ### Line events that happen at once -/

theorem elapsed_append (xs ys : List LineEvent) : elapsed (xs ++ ys) = elapsed xs + elapsed ys := by
  induction xs with
  | nil => exact (Nat.zero_add _).symm
  | cons ev xs ih => cases ev <;> simp [elapsed, ih, Nat.add_assoc]

/-- The `Delay` time of a sub-operation that sees SCL high at its first sample (R92). -/
def Micro.us (c : Conf) : Micro → Nat
  | .hold p => p.us c
  | .closeAck _ _ | .closeByte _ => c.tLow.toNat
  | _ => 0

/-- The `Delay` time of a sequence that sees SCL high at every first sample. -/
def seqTime (c : Conf) (ms : List Micro) : Nat := (ms.map (Micro.us c)).sum

theorem seqTime_append (c : Conf) (ms ms' : List Micro) : seqTime c (ms ++ ms') = seqTime c ms + seqTime c ms' := by
  simp [seqTime]

/-- The next `n` samples of SCL in store are high, and the next `a` samples of SDA are low. -/
def Env.Ready (e : Env) (n a : Nat) : Prop :=
  (∃ scl, e.scl = List.replicate n true ++ scl) ∧ ∃ sda, e.sda = List.replicate a false ++ sda

theorem Env.ready_zero (e : Env) : e.Ready 0 0 := ⟨⟨e.scl, rfl⟩, e.sda, rfl⟩

/-- With `n` high samples of SCL and `a` low ones of SDA in store, each of the sub-operations `ms` is one line event;
`n'` and `a'` of those samples are left. -/
def AtOnce (c : Conf) (n a : Nat) (ms : List Micro) (n' a' : Nat) : Prop :=
  ∀ s : State, s.conf = c → s.env.Ready n a → ∃ t new, runSeq ms s = .ok t ∧ Extends s t new ∧ t.env.Ready n' a' ∧
    new.length = ms.length ∧ elapsed new = seqTime c ms

section
variable {c : Conf} {n a n' a' n'' a'' : Nat} {ms ms' : List Micro}

theorem AtOnce.append (h : AtOnce c n a ms n' a') (k : AtOnce c n' a' ms' n'' a'') :
    AtOnce c n a (ms ++ ms') n'' a'' := by
  intro s hs hready
  obtain ⟨t, xs, hrun, hext, hready', hlen, htime⟩ := h s hs hready
  obtain ⟨u, ys, hrun', hext', hready'', hlen', htime'⟩ := k t (hext.conf.trans hs) hready'
  refine ⟨u, xs ++ ys, (runSeq_append_ok hrun).trans hrun', hext.trans hext', hready'', ?_, ?_⟩
  · rw [List.length_append, List.length_append, hlen, hlen']
  · rw [elapsed_append, seqTime_append, htime, htime']

/-- A sub-operation that takes no sample and never fails. -/
def Micro.drives : Micro → Bool
  | .driveSCL _ | .driveSDA _ | .releaseSCL _ | .hold _ | .openWrite _ _ | .nextWrite _ | .openRead _ | .nextRead _
  | .closeByte _ => true
  | _ => false

theorem fire_drives {m : Micro} (hm : m.drives = true) (s : State) : ∃ t ev, fire m s = .done t ∧ Extends s t [ev] ∧
    t.env = s.env ∧ elapsed [ev] = m.us s.conf := by
  cases m with
  | driveSCL v | releaseSCL v => exact ⟨_, .driveSCL _, rfl, ⟨rfl, rfl, rfl⟩, rfl, rfl⟩
  | driveSDA v | openWrite x i | nextWrite i | openRead i | nextRead i =>
    exact ⟨_, .driveSDA _, rfl, ⟨rfl, rfl, rfl⟩, rfl, rfl⟩
  | hold p => exact ⟨_, .delay _, rfl, ⟨rfl, rfl, rfl⟩, rfl, rfl⟩
  | closeByte dst => cases dst <;> exact ⟨_, .delay _, rfl, ⟨rfl, rfl, rfl⟩, rfl, rfl⟩
  | _ => cases hm

theorem atOnce_nil : AtOnce c n a [] n a := fun s _ hready =>
  ⟨s, [], rfl, ⟨(List.append_nil _).symm, rfl, rfl⟩, hready, rfl, rfl⟩

/-- A single sub-operation. -/
theorem atOnce_single {m : Micro} (h : ∀ s : State, s.conf = c → s.env.Ready n a → ∃ t ev, fire m s = .done t ∧
    Extends s t [ev] ∧ t.env.Ready n' a' ∧ elapsed [ev] = m.us c) : AtOnce c n a [m] n' a' := by
  intro s hs hready
  obtain ⟨t, ev, hfire, hext, hready', htime⟩ := h s hs hready
  exact ⟨t, [ev], runSeq_cons_done hfire, hext, hready', rfl, htime⟩

theorem atOnce_drives (hms : ms.all Micro.drives = true) : AtOnce c n a ms n a := by
  induction ms with
  | nil => exact atOnce_nil
  | cons m ms ih =>
    obtain ⟨hm, hrest⟩ := Bool.and_eq_true_iff.mp hms
    have first : AtOnce c n a [m] n a := atOnce_single fun s hs hready => by
      obtain ⟨t, ev, hfire, hext, henv, htime⟩ := fire_drives hm s
      exact ⟨t, ev, hfire, hext, henv ▸ hready, hs ▸ htime⟩
    exact first.append (ih hrest)

/-- SCL is released and seen high at once (R93). -/
theorem atOnce_release (fresh : Bool) (f : FailAs) : AtOnce c (n + 1) a [.releaseSCL fresh, .wait f] n a := by
  rintro s rfl ⟨⟨scl, hscl⟩, hsda⟩
  have hwait := fire_wait_high (f := f) (s := { s with
    sclO := true, trace := s.trace ++ [LineEvent.driveSCL true]
    eng := { s.eng with n := 0#33, acc := if fresh then 0#33 else s.eng.acc } }) rfl hscl
  exact ⟨_, [.driveSCL true, .sampleSCL true],
    (runSeq_cons_done (releaseSCL_fire fresh s)).trans (runSeq_cons_done hwait), ⟨by simp, rfl, rfl⟩,
    ⟨⟨scl, rfl⟩, hsda⟩, rfl, rfl⟩

/-- A sample of SDA takes none of SCL (R29). -/
theorem atOnce_sampleBit : AtOnce c n a [.sampleBit] n 0 := atOnce_single fun s _ hready => by
  obtain ⟨v, xs, k, -, h⟩ := levelSDA_sampled s
  obtain ⟨hscl, -⟩ := hready
  have hfire : ∃ t, fire .sampleBit s = .done t ∧ Extends s t [.sampleSDA v] ∧ t.env.scl = s.env.scl := by
    simp only [fire, sampleSDA, h]
    exact ⟨_, rfl, ⟨rfl, rfl, rfl⟩, rfl⟩
  obtain ⟨t, hfire, hext, henv⟩ := hfire
  exact ⟨t, _, hfire, hext, ⟨henv ▸ hscl, t.env.sda, rfl⟩, rfl⟩

/-- The idle check (R143). -/
theorem atOnce_sense : AtOnce c n a senseSeq 0 0 := by
  have scl : AtOnce c n a [.senseSCL] 0 0 := atOnce_single fun s _ _ => by
    obtain ⟨v, e, h⟩ := sampleSCL_spec s
    simp only [fire, h]
    exact ⟨_, _, rfl, ⟨rfl, rfl, rfl⟩, Env.ready_zero _, rfl⟩
  have sda : AtOnce c 0 0 [.senseSDA] 0 0 := atOnce_single fun s _ _ => by
    obtain ⟨v, e, h⟩ := sampleSDA_spec s
    simp only [fire, h]
    exact ⟨_, _, rfl, ⟨rfl, rfl, rfl⟩, Env.ready_zero _, rfl⟩
  exact scl.append sda

/-! ### The parts of a command that happen at once -/

theorem atOnce_start : AtOnce c (n + 1) a startSeq n a :=
  ((atOnce_drives (ms := [.driveSDA true]) rfl).append (atOnce_release true .timeout)).append
    (atOnce_drives (ms := [.hold .startHold, .driveSDA false, .driveSCL false, .hold .low]) rfl)

theorem atOnce_stop (f : FailAs) : AtOnce c (n + 1) a (stopSeq f) n a :=
  ((atOnce_drives (ms := [.driveSDA false, .hold .stopHold]) rfl).append (atOnce_release true f)).append
    (atOnce_drives (ms := [.hold .stopHold, .driveSDA true, .hold .stopHold]) rfl)

theorem atOnce_pulse (p : Nat) : AtOnce c (n + 1) a (pulseSeq p) n a :=
  (atOnce_release true (.stuck p)).append (atOnce_drives (ms := [.hold .high, .driveSCL false, .hold .low]) rfl)

theorem atOnce_writeCell {first : Micro} (h : first.drives = true) : AtOnce c (n + 1) a (writeCell first) n a :=
  ((atOnce_drives (ms := [first, .hold .setup]) (by rw [List.all_cons, h]; rfl)).append
    (atOnce_release false .timeout)).append (atOnce_drives (ms := [.hold .high, .driveSCL false, .hold .low]) rfl)

theorem atOnce_readCell {first last : Micro} (h : first.drives = true) (h' : last.drives = true) :
    AtOnce c (n + 1) a (readCell first last) n 0 :=
  ((((atOnce_drives (ms := [first, .hold .setup]) (by rw [List.all_cons, h]; rfl)).append
    (atOnce_release false .timeout)).append (atOnce_drives (ms := [.hold .halfHigh]) rfl)).append
    atOnce_sampleBit).append
    (atOnce_drives (ms := [.hold .restHigh, .driveSCL false, last]) ((Bool.and_true _).trans h'))

/-- Parts with one wait each. -/
theorem atOnce_flatMap {α : Type} {part : α → List Micro} (h : ∀ n i, AtOnce c (n + 1) a (part i) n a) (is : List α) :
    AtOnce c (n + is.length) a (is.flatMap part) n a := by
  induction is with
  | nil => exact atOnce_nil
  | cons i is ih => exact (h _ i).append ih

theorem atOnce_writeByte (x : Byte) : AtOnce c (n + 8) a (writeByteSeq x) n a :=
  (atOnce_writeCell (first := .openWrite x 7#4) rfl).append
    (atOnce_flatMap (fun _ _ => atOnce_writeCell rfl) [6#4, 5#4, 4#4, 3#4, 2#4, 1#4, 0#4])

theorem atOnce_readByte {last : Micro} (h : last.drives = true) : AtOnce c (n + 8) a (readByteSeq last) n 0 :=
  ((atOnce_readCell (first := .openRead 7#4) rfl rfl).append
    (atOnce_flatMap (fun _ _ => atOnce_readCell rfl rfl) [6#4, 5#4, 4#4, 3#4, 2#4, 1#4])).append (atOnce_readCell rfl h)

theorem atOnce_sendAck (x : Byte) : AtOnce c (n + 1) a (sendAckSeq x) n a := atOnce_writeCell rfl

/-- An ACK that a frame samples (R127, R130). -/
theorem atOnce_frameAck (i : Nat) (counted : Bool) : AtOnce c (n + 1) (a + 1) (frameAckSeq i counted) n a := by
  rintro s rfl ⟨⟨scl, hscl⟩, sda, hsda⟩
  have hview := congrArg₂ (FrameView.mk s.sclO s.sdaO · · s.eng.d s.eng.c s.eng.acked) hscl hsda
  obtain ⟨t, hrun, hmoves⟩ := plays_frameAck (scl := List.replicate n true ++ scl)
    (sda := List.replicate a false ++ sda) i counted (waitFits_zero s.conf) s [] rfl hview
  obtain ⟨_, _, _, _, rfl⟩ := hmoves
  rw [List.append_nil] at hrun
  have htime : elapsed (readCellTrace s.conf 0 false) = seqTime s.conf (frameAckSeq i counted) := by
    simp [readCellTrace, cellHead, waitTrace, elapsed, seqTime, frameAckSeq, readBitSeq, readCell, Micro.us, Hold.us]
  exact ⟨_, readCellTrace s.conf 0 false, hrun, ⟨rfl, rfl, rfl⟩, ⟨⟨scl, rfl⟩, sda, rfl⟩, rfl, htime⟩

/-- RECOVER (R140). -/
theorem atOnce_recover : AtOnce c 10 a recoverSeq 0 0 :=
  (((atOnce_drives (ms := [.driveSDA true]) rfl).append
    (atOnce_flatMap (fun _ p => atOnce_pulse (p + 1)) (List.range Config.recoveryPulses))).append
    (atOnce_stop (.stuck 10))).append atOnce_sense

/-- RFRAME with its STOP, the control byte ACKed (R127). -/
theorem atOnce_readFrame (ctrl : Byte) : AtOnce c 29 1 (readFrameSeq ctrl ++ stopSeq .timeout) 0 0 :=
  (((((((atOnce_start (n := 28)).append (atOnce_writeByte ctrl)).append (atOnce_frameAck 0 false)).append
    (atOnce_readByte rfl)).append (atOnce_sendAck 1#8)).append (atOnce_readByte rfl)).append
    (atOnce_sendAck 0#8)).append (atOnce_stop .timeout)

/-- WFRAME with its STOP, every byte ACKed (R130). -/
theorem atOnce_writeFrame (ctrl addr data chk : Byte) :
    AtOnce c 38 4 (writeFrameSeq ctrl addr data chk ++ stopSeq .timeout) 0 0 := by
  have part (n a i : Nat) (x : Byte) : AtOnce c (n + 9) (a + 1) (writeByteSeq x ++ frameAckSeq i true) n a :=
    (atOnce_writeByte x).append (atOnce_frameAck i true)
  exact (((((atOnce_start (n := 37)).append (part 28 3 0 ctrl)).append (part 19 2 1 addr)).append
    (part 10 1 2 data)).append (part 1 0 3 chk)).append (atOnce_stop .timeout)

end

/-! ### Durations -/

section
variable (c : Conf)

/-- The `Delay` time of a bit cell (R107, R184). -/
def cellTime : Nat := Config.dataSetupUs + c.tHigh.toNat + c.tLow.toNat

theorem seqTime_start : seqTime c startSeq = c.tStartHold.toNat + c.tLow.toNat := by
  simp [seqTime, startSeq, Micro.us, Hold.us]

theorem seqTime_stop (f : FailAs) : seqTime c (stopSeq f) = 3 * c.tStopHold.toNat := by
  simp [seqTime, stopSeq, Micro.us, Hold.us]
  omega

theorem seqTime_pulse (p : Nat) : seqTime c (pulseSeq p) = c.tHigh.toNat + c.tLow.toNat := by
  simp [seqTime, pulseSeq, Micro.us, Hold.us]

theorem seqTime_cons (m : Micro) (ms : List Micro) : seqTime c (m :: ms) = m.us c + seqTime c ms := by
  simp [seqTime]

theorem seqTime_writeCell {first : Micro} (h : first.us c = 0) : seqTime c (writeCell first) = cellTime c := by
  rw [writeCell, seqTime_cons, h]
  simp [seqTime, clockOut, cellTime, Micro.us, Hold.us, Nat.add_assoc]

/-- The two halves of T_HIGH make T_HIGH (R107). -/
theorem seqTime_readCell {first last : Micro} (h : first.us c = 0) (h' : last.us c = c.tLow.toNat) :
    seqTime c (readCell first last) = cellTime c := by
  have middle : seqTime c [.hold .setup, .releaseSCL false, .wait .timeout, .hold .halfHigh, .sampleBit,
      .hold .restHigh, .driveSCL false] = Config.dataSetupUs + c.tHigh.toNat := by
    simp [seqTime, Micro.us, Hold.us]
    omega
  have final : seqTime c [last] = c.tLow.toNat := by
    rw [seqTime_cons, h']
    rfl
  have hsplit := seqTime_append c [.hold .setup, .releaseSCL false, .wait .timeout, .hold .halfHigh, .sampleBit,
    .hold .restHigh, .driveSCL false] [last]
  rw [middle, final] at hsplit
  rw [readCell, seqTime_cons, h, Nat.zero_add]
  exact hsplit

theorem seqTime_flatMap {α : Type} {part : α → List Micro} {x : Nat} (h : ∀ i, seqTime c (part i) = x) (is : List α) :
    seqTime c (is.flatMap part) = is.length * x := by
  induction is with
  | nil => exact (Nat.zero_mul x).symm
  | cons i is ih => rw [List.flatMap_cons, seqTime_append, h, ih, List.length_cons, Nat.succ_mul, Nat.add_comm]

theorem seqTime_writeByte (x : Byte) : seqTime c (writeByteSeq x) = 8 * cellTime c := by
  rw [writeByteSeq, seqTime_append, seqTime_writeCell c rfl, seqTime_flatMap c (fun _ => seqTime_writeCell c rfl)]
  simp only [List.length_cons, List.length_nil]
  omega

theorem seqTime_readByte {last : Micro} (h : last.us c = c.tLow.toNat) :
    seqTime c (readByteSeq last) = 8 * cellTime c := by
  rw [readByteSeq, seqTime_append, seqTime_append, seqTime_readCell c rfl rfl, seqTime_readCell c rfl h,
    seqTime_flatMap c (fun _ => seqTime_readCell c rfl rfl)]
  simp only [List.length_cons, List.length_nil]
  omega

theorem seqTime_frameAck (i : Nat) (counted : Bool) : seqTime c (frameAckSeq i counted) = cellTime c :=
  seqTime_readCell c rfl rfl

theorem seqTime_sendAck (x : Byte) : seqTime c (sendAckSeq x) = cellTime c := seqTime_writeCell c rfl

/-- An error-free RFRAME (R186). -/
theorem seqTime_readFrame (ctrl : Byte) : seqTime c (readFrameSeq ctrl ++ stopSeq .timeout) =
    c.tStartHold.toNat + c.tLow.toNat + 27 * cellTime c + 3 * c.tStopHold.toNat := by
  simp only [readFrameSeq, seqTime_append, seqTime_start, seqTime_writeByte, seqTime_frameAck, seqTime_sendAck,
    seqTime_stop, seqTime_readByte c (last := .closeByte _) rfl]
  omega

/-- An error-free WFRAME (R186). -/
theorem seqTime_writeFrame (ctrl addr data chk : Byte) :
    seqTime c (writeFrameSeq ctrl addr data chk ++ stopSeq .timeout) =
      c.tStartHold.toNat + c.tLow.toNat + 36 * cellTime c + 3 * c.tStopHold.toNat := by
  simp only [writeFrameSeq, seqTime_append, seqTime_start, seqTime_writeByte, seqTime_frameAck, seqTime_stop]
  omega

/-- RECOVER whose clocks all rise (R186). -/
theorem seqTime_recover :
    seqTime c recoverSeq = 9 * (c.tHigh.toNat + c.tLow.toNat) + 3 * c.tStopHold.toNat := by
  have pulses : seqTime c ((List.range Config.recoveryPulses).flatMap fun p => pulseSeq (p + 1)) =
      9 * (c.tHigh.toNat + c.tLow.toNat) := seqTime_flatMap c (fun _ => seqTime_pulse c _) _
  have ends : seqTime c [.driveSDA true] = 0 ∧ seqTime c senseSeq = 0 := ⟨rfl, rfl⟩
  obtain ⟨head, sense⟩ := ends
  rw [recoverSeq, ← List.singleton_append, seqTime_append, seqTime_append, seqTime_append, head, pulses, seqTime_stop,
    sense]
  omega

end

/-! ### Whole commands -/

theorem length_writeByteSeq (x : Byte) : (writeByteSeq x).length = 56 := rfl

theorem length_readByteSeq (last : Micro) : (readByteSeq last).length = 72 := rfl

theorem length_readFrame (ctrl : Byte) : (readFrameSeq ctrl ++ stopSeq .timeout).length = 237 := by
  simp only [readFrameSeq, List.length_append, length_writeByteSeq, length_readByteSeq]
  rfl

theorem length_writeFrame (ctrl addr data chk : Byte) :
    (writeFrameSeq ctrl addr data chk ++ stopSeq .timeout).length = 274 := by
  simp only [writeFrameSeq, List.length_append, length_writeByteSeq]
  rfl

/-- A command of a configured block whose line events all happen at once. -/
theorem exec_atOnce {i : Instr} {s t : State} {n a n' a' : Nat} (hwf : i.wellFormed = true) (hne : i ≠ .config)
    (hcfg : s.status.cfg = true)
    (h : AtOnce s.conf n a ((commandOf i s).2.todo ++ (commandOf i s).2.after) n' a') (hready : s.env.Ready n a)
    (hexec : exec i s = .next t) :
    t.trace.length = s.trace.length + ((commandOf i s).2.todo ++ (commandOf i s).2.after).length ∧
      elapsed t.trace = elapsed s.trace + seqTime s.conf ((commandOf i s).2.todo ++ (commandOf i s).2.after) := by
  rw [exec_eq, runGated_none (gate_none hwf hne hcfg)] at hexec
  obtain rfl := Host.Outcome.next.inj hexec
  obtain ⟨e, hbegin, -⟩ := commandOf_spec i s
  obtain ⟨u, new, hrun, ⟨htrace, -, -⟩, -, hlen, htime⟩ := h (s.setEng e) rfl hready
  obtain ⟨v, hfirst, hsecond⟩ := runSeq_append_eq_ok hrun
  rw [runJob, complete_trace, hbegin, hfirst, Ran.state, hsecond, Ran.state, htrace, List.length_append, elapsed_append,
    hlen, htime]
  exact ⟨rfl, rfl⟩

/-- Settles O39: the line events of each command are one per sub-operation, and the times of its parts add up. -/
theorem eventCountsAndDurations : Obligations.EventCountsAndDurations := by
  intro s t nib addr data rest rest' hcfg
  simp only [Nat.add_assoc (elapsed s.trace)]
  refine ⟨fun hscl hsda h => ?_, fun hscl hsda h => ?_, fun hscl h => ?_⟩
  · obtain ⟨hlen, htime⟩ := exec_atOnce (n := 29) (a := 1) rfl (by simp) hcfg (atOnce_readFrame _)
      ⟨⟨rest, hscl⟩, rest', hsda⟩ h
    rw [hlen, htime]
    exact ⟨congrArg _ (length_readFrame _), congrArg _ (seqTime_readFrame _ _)⟩
  · obtain ⟨hlen, htime⟩ := exec_atOnce (n := 38) (a := 4) rfl (by simp) hcfg (atOnce_writeFrame _ _ _ _)
      ⟨⟨rest, hscl⟩, rest', hsda⟩ h
    rw [hlen, htime]
    exact ⟨congrArg _ (length_writeFrame _ _ _ _), congrArg _ (seqTime_writeFrame _ _ _ _ _)⟩
  · have hrecover : AtOnce s.conf 10 0 (recoverSeq ++ []) 0 0 := by
      rw [List.append_nil]
      exact atOnce_recover
    obtain ⟨hlen, htime⟩ := exec_atOnce rfl (by simp) hcfg hrecover ⟨⟨rest, hscl⟩, s.env.sda, rfl⟩ h
    rw [hlen, htime]
    exact ⟨rfl, congrArg _ (seqTime_recover s.conf)⟩

end Sys2Proof.Machine

/-! The lines follow the drives on the trace (10_state.md R32), so that a frame's STOP says where it leaves them on
every draw (40_framing_engine.md R103; 70_reset_and_hazards.md R178). -/

namespace Sys2Proof.Machine

/-! ### The lines follow the drives -/

/-- SCL_O and SDA_O. -/
def State.lines (s : State) : Level × Level := (s.sclO, s.sdaO)

/-- The lines after a line event: a drive changes its line (R9, R32). -/
def LineEvent.drive (l : Level × Level) : LineEvent → Level × Level
  | .driveSCL v => (v, l.2)
  | .driveSDA v => (l.1, v)
  | .sampleSCL _ | .sampleSDA _ | .delay _ => l

/-- The lines after the line events `new`. -/
def linesAfter (l : Level × Level) (new : List LineEvent) : Level × Level := new.foldl LineEvent.drive l

theorem linesAfter_append (l : Level × Level) (xs ys : List LineEvent) :
    linesAfter l (xs ++ ys) = linesAfter (linesAfter l xs) ys := List.foldl_append

/-- Line events `new` lead from `s` to `t`, the lines as they drive them. -/
def LinesFollow (s t : State) (new : List LineEvent) : Prop :=
  t.trace = s.trace ++ new ∧ t.lines = linesAfter s.lines new

theorem LinesFollow.refl (s : State) : LinesFollow s s [] := ⟨(List.append_nil _).symm, rfl⟩

theorem LinesFollow.trans {s t u : State} {xs ys : List LineEvent} (h : LinesFollow s t xs) (k : LinesFollow t u ys) :
    LinesFollow s u (xs ++ ys) := by
  obtain ⟨htrace, hlines⟩ := h
  obtain ⟨ktrace, klines⟩ := k
  exact ⟨by rw [ktrace, htrace, List.append_assoc], by rw [klines, hlines, linesAfter_append]⟩

/-- A failure kept moves no line. -/
theorem LinesFollow.keepFailure {s t : State} {new : List LineEvent} (h : LinesFollow s t new) (x : Failure) :
    LinesFollow s (t.keepFailure x) new := by
  rw [State.keepFailure_eq]
  exact h

/-- An engine step moves the lines as its line event says (R91). -/
theorem fire_linesFollow (m : Micro) (s : State) : ∃ new, LinesFollow s (fire m s).state new := by
  cases m with
  | wait f =>
    obtain ⟨v, e, h⟩ := sampleSCL_spec s
    simp only [fire, poll, h]
    cases v with
    | true => exact ⟨[.sampleSCL true], rfl, rfl⟩
    | false =>
      simp only
      split
      · exact ⟨[.sampleSCL false], LinesFollow.keepFailure ⟨rfl, rfl⟩ _⟩
      · exact ⟨[.sampleSCL false], rfl, rfl⟩
  | pollDelay f =>
    obtain ⟨x, h⟩ | h := fire_pollDelay_cases f s <;> rw [h]
    · exact ⟨[.delay 1], LinesFollow.keepFailure ⟨rfl, rfl⟩ _⟩
    · exact ⟨[.delay 1], rfl, rfl⟩
  | closeAck k counted =>
    simp only [fire, endAck]
    split_ifs
    · exact ⟨[.delay _], LinesFollow.keepFailure ⟨rfl, rfl⟩ _⟩
    · exact ⟨[.delay _], rfl, rfl⟩
    · exact ⟨[.delay _], rfl, rfl⟩
  | closeByte dst => cases dst <;> exact ⟨[.delay _], rfl, rfl⟩
  | sampleBit | senseSDA =>
    obtain ⟨v, e, h⟩ := sampleSDA_spec s
    simp only [fire, h]
    exact ⟨[.sampleSDA v], rfl, rfl⟩
  | senseSCL =>
    obtain ⟨v, e, h⟩ := sampleSCL_spec s
    simp only [fire, h]
    exact ⟨[.sampleSCL v], rfl, rfl⟩
  | driveSCL v | releaseSCL v => exact ⟨[.driveSCL _], rfl, rfl⟩
  | driveSDA v | openWrite x i | nextWrite i | openRead i | nextRead i => exact ⟨[.driveSDA _], rfl, rfl⟩
  | hold p => exact ⟨[.delay _], rfl, rfl⟩

theorem runMicro_linesFollow (fuel : Nat) (m : Micro) (s : State) :
    ∃ new, LinesFollow s (runMicro fuel m s).state new := by
  induction fuel generalizing m s with
  | zero => exact ⟨[], .refl s⟩
  | succ fuel ih =>
    obtain ⟨xs, h⟩ := fire_linesFollow m s
    rw [runMicro]
    cases hfire : fire m s with
    | done t | failed t =>
      rw [hfire] at h
      exact ⟨xs, h⟩
    | again m' t =>
      rw [hfire] at h
      obtain ⟨ys, k⟩ := ih m' t
      exact ⟨xs ++ ys, h.trans k⟩

/-- A sequence of line events leaves the lines as its drives say, whatever its outcome (R32). -/
theorem runSeq_linesFollow (ms : List Micro) (s : State) : ∃ new, LinesFollow s (runSeq ms s).state new := by
  induction ms generalizing s with
  | nil => exact ⟨[], .refl s⟩
  | cons m ms ih =>
    obtain ⟨xs, h⟩ := runMicro_linesFollow (waitFuel s) m s
    cases hrun : runMicro (waitFuel s) m s with
    | ok t =>
      obtain ⟨ys, k⟩ := ih t
      rw [runSeq_cons_ok hrun]
      rw [hrun] at h
      exact ⟨xs ++ ys, h.trans k⟩
    | failed t =>
      rw [runSeq_cons_stopped hrun, ← hrun]
      exact ⟨xs, h⟩

/-- The lines after a sequence whose line events are known. -/
theorem runSeq_lines {ms : List Micro} {s : State} {new : List LineEvent}
    (h : (runSeq ms s).state.trace = s.trace ++ new) : (runSeq ms s).state.lines = linesAfter s.lines new := by
  obtain ⟨xs, htrace, hlines⟩ := runSeq_linesFollow ms s
  obtain rfl : new = xs := List.append_cancel_left (h.symm.trans htrace)
  exact hlines

/-- A bounded wait drives no line (R93). -/
theorem linesAfter_overrunTrace (l : Level × Level) (k : Nat) : linesAfter l (overrunTrace k) = l := by
  induction k with
  | zero => rfl
  | succ k ih =>
    rw [overrunTrace_succ, linesAfter_append]
    exact ih

theorem linesAfter_waitTrace (l : Level × Level) (k : Nat) : linesAfter l (waitTrace k) = l := by
  rw [waitTrace_eq, linesAfter_append, linesAfter_overrunTrace]
  rfl

theorem linesAfter_stuckTrace (l : Level × Level) (k : Nat) : linesAfter l (stuckTrace k) = l := by
  rw [stuckTrace_eq, linesAfter_append, linesAfter_overrunTrace]
  rfl

/-! ### STOP on every draw -/

/-- The events of a wait with a fresh accumulator that does not see SCL high (R93, R94). -/
def FailedWait (c : Conf) (new : List LineEvent) : Prop :=
  new = stuckTrace c.tBitTo.toNat ∨
    c.tByteTo.toNat < c.tBitTo.toNat ∧ new = overrunTrace (c.tByteTo.toNat + 1)

theorem WaitFailure.failedWait {c : Conf} {new : List LineEvent} {x : Count} (h : WaitFailure c 0 0 new x) :
    FailedWait c new := by
  cases h with
  | bit k hbit _ =>
    rw [Nat.zero_add] at hbit
    exact .inl (congrArg stuckTrace hbit)
  | byte k hbit hbyte =>
    rw [Nat.zero_add] at hbit hbyte
    exact .inr ⟨hbyte ▸ hbit, by rw [hbyte]⟩

theorem linesAfter_failedWait {c : Conf} {new : List LineEvent} (h : FailedWait c new) (l : Level × Level) :
    linesAfter l new = l := by
  obtain rfl | ⟨-, rfl⟩ := h
  · exact linesAfter_stuckTrace l _
  · exact linesAfter_overrunTrace l _

theorem linesAfter_stopTrace (c : Conf) (k : Nat) (l : Level × Level) :
    linesAfter l (stopTrace c k) = (true, true) := by
  rw [stopTrace, linesAfter_append, linesAfter_append, linesAfter_waitTrace]
  rfl

theorem linesAfter_stopHead (c : Conf) (l : Level × Level) : linesAfter l (stopHead c) = (true, false) := rfl

theorem happen_hold_of_conf {c : Conf} {s : State} (p : Hold) (h : s.conf = c) :
    Happen [.hold p] s (s.pause (p.us c)) [.delay (p.us c)] := by
  subst h
  exact happen_hold p s

/-- STOP_SEQ on every draw: its clock rises and both lines are released, or SDA is left low (R101, R103). -/
theorem runSeq_stop_ends (f : FailAs) (s : State) :
    (∃ k t, runSeq (stopSeq f) s = .ok t ∧ waitFits s.conf k ∧ t.trace = s.trace ++ stopTrace s.conf k ∧
      t.lines = (true, true)) ∨
    ∃ w t, runSeq (stopSeq f) s = .failed t ∧ FailedWait s.conf w ∧ t.trace = s.trace ++ (stopHead s.conf ++ w) ∧
      t.lines = (true, false) := by
  have head := (Happen.single (m := .driveSDA false) rfl (wireMoves_setSDA false s)).trans
    (happen_hold .stopHold (s.setSDA false))
  obtain ⟨k, t, hrise, hbit, hbyte, -⟩ | ⟨w, x, t, hlow, hfail⟩ :=
    release_ends true f ((s.setSDA false).pause (Hold.stopHold.us s.conf)) (a := 0) rfl (Nat.zero_le _)
  · have hconf : t.conf = s.conf := hrise.moves.conf
    have tail := (happen_hold_of_conf .stopHold hconf).trans
      ((Happen.single (m := .driveSDA true) rfl (wireMoves_setSDA true _)).trans
        (happen_hold_of_conf .stopHold (by exact hconf)))
    have hall := (head.trans hrise).trans tail
    have hrun : runSeq (stopSeq f) s = .ok _ := hall.run []
    have htrace := hall.moves.extends.trace
    have hlines := runSeq_lines (ms := stopSeq f) (s := s) (new := stopTrace s.conf k) (by rw [hrun]; exact htrace)
    rw [hrun, linesAfter_stopTrace] at hlines
    exact .inl ⟨k, _, hrun, ⟨hbit, (Nat.zero_add k).ge.trans hbyte⟩, htrace, hlines⟩
  · have hall := head.stops hlow
    have hrun : runSeq (stopSeq f) s = .failed (t.keepFailure (f.failure x)) :=
      hall.run [.hold .stopHold, .driveSDA true, .hold .stopHold]
    have htrace : (t.keepFailure (f.failure x)).trace = s.trace ++ (stopHead s.conf ++ w) :=
      (State.keepFailure_trace _ t).trans hall.moves.extends.trace
    have hlines := runSeq_lines (ms := stopSeq f) (s := s) (by rw [hrun]; exact htrace)
    rw [hrun, linesAfter_append, linesAfter_stopHead, linesAfter_failedWait hfail.failedWait] at hlines
    exact .inr ⟨w, _, hrun, hfail.failedWait, htrace, hlines⟩

/-! ### Frames on every draw -/

/-- A frame that kept a failure finishes with it (R126, R128). -/
theorem complete_frame_kind {p : Report} (hp : p = .readFrame ∨ p = .writeFrame) {s : State} {f : Failure}
    (h : s.eng.err = some f) : (complete p s).status.kind = f.kind := by
  obtain rfl | rfl := hp <;> rw [complete, concludeWith_some h] <;> rfl

/-- A frame ends with STOP_SEQ, released where it ran to its end and else with SDA low, and then with a failure (R103,
R126). -/
theorem runSeq_then_stop_ends {p : Report} (hp : p = .readFrame ∨ p = .writeFrame) (ms : List Micro) {s : State}
    (hs : s.eng.err = none) : ∃ t pre, complete p (runSeq (stopSeq .timeout) (runSeq ms s).state).state = t ∧
      ((∃ k, waitFits s.conf k ∧ t.trace = s.trace ++ pre ++ stopTrace s.conf k ∧ t.lines = (true, true)) ∨
        ∃ w, FailedWait s.conf w ∧ t.trace = s.trace ++ pre ++ stopHead s.conf ++ w ∧ t.lines = (true, false) ∧
          t.status.kind.ofLineEvents = true) := by
  obtain ⟨pre, hbefore⟩ := runSeq_spec ms s
  have hkept := hbefore.err_ofLineEvents (by simp [hs])
  obtain ⟨hconf, htrace⟩ : (runSeq ms s).state.conf = s.conf ∧ (runSeq ms s).state.trace = s.trace ++ pre := by
    obtain ⟨_, _, _, _, -, h⟩ := hbefore
    rw [h]
    exact ⟨rfl, rfl⟩
  obtain ⟨_, hstop⟩ := runSeq_spec (stopSeq .timeout) (runSeq ms s).state
  have hfails := runSeq_keepsFailure (stopSeq .timeout) (runSeq ms s).state
  have hends := runSeq_stop_ends .timeout (runSeq ms s).state
  rw [hconf, htrace] at hends
  refine ⟨_, pre, rfl, ?_⟩
  obtain ⟨k, u, hrun, hfits, hnew, hlines⟩ | ⟨w, u, hrun, hwait, hnew, hlines⟩ := hends
  · have hwire := complete_wire p u
    rw [hrun]
    exact .inl ⟨k, hfits, (congrArg WireView.trace hwire).trans hnew,
      (congrArg (fun v : WireView => (v.scl, v.sda)) hwire).trans hlines⟩
  · have hwire := complete_wire p u
    rw [hrun] at hfails hstop ⊢
    obtain ⟨f, hf⟩ := Option.isSome_iff_exists.mp (show u.eng.err.isSome = true from hfails)
    refine .inr ⟨w, hwait, (congrArg WireView.trace hwire).trans (hnew.trans (List.append_assoc _ _ _).symm),
      (congrArg (fun v : WireView => (v.scl, v.sda)) hwire).trans hlines, ?_⟩
    rw [Ran.state, complete_frame_kind hp hf]
    exact hstop.err_ofLineEvents hkept f hf

/-- A frame of a configured block performs its line events, its STOP and its `finish` (R126). -/
theorem exec_frame {i : Instr} {s : State} (hcfg : s.status.cfg = true)
    (hi : (∃ n, i = .rframe n) ∨ (∃ n a d, i = .wframe n a d)) : ∃ p ms s', (p = .readFrame ∨ p = .writeFrame) ∧
      s'.conf = s.conf ∧ s'.trace = s.trace ∧ s'.eng.err = none ∧
      exec i s = .next (complete p (runSeq (stopSeq .timeout) (runSeq ms s').state).state) := by
  obtain ⟨n, rfl⟩ | ⟨n, a, d, rfl⟩ := hi
  · exact ⟨.readFrame, readFrameSeq (controlByte n s.conf.devAddr true), (rframeCommand n s).1, .inl rfl, rfl, rfl, rfl,
      exec_rframe_eq n hcfg⟩
  · exact ⟨.writeFrame, writeFrameSeq (controlByte n s.conf.devAddr false) a d
      (checksumWrite (controlByte n s.conf.devAddr false) a d), (wframeCommand n a d s).1, .inr rfl, rfl, rfl, rfl,
      exec_wframe_eq n a d hcfg⟩

/-- Settles O38: the two ways in which a STOP ends say which lines are released. -/
theorem framesAlwaysRunStop : Obligations.FramesAlwaysRunStop := by
  intro s i hcfg hi
  obtain ⟨p, ms, s', hp, hconf, htrace, herr, hexec⟩ := exec_frame hcfg hi
  obtain ⟨t, pre, rfl, hends⟩ := runSeq_then_stop_ends hp ms herr
  rw [hconf, htrace] at hends
  refine ⟨_, pre, hexec, ?_⟩
  obtain ⟨k, hfits, hnew, hlines⟩ | ⟨w, hwait, hnew, hlines, hkind⟩ := hends <;>
    obtain ⟨hscl, hsda⟩ := Prod.mk.inj hlines
  · exact ⟨hscl, fun _ => hsda, fun _ => ⟨k, hfits, hnew⟩, fun h => nomatch hsda.symm.trans h⟩
  · refine ⟨hscl, fun h => ?_, (fun h => nomatch hsda.symm.trans h), fun _ => ⟨w, hwait, hnew⟩⟩
    obtain h | h := h <;> rw [h] at hkind <;> cases hkind

end Sys2Proof.Machine

/-! CONFIG and DECONFIG, and the words the decoder refuses (43_control_recovery.md R136 to R139, R145). -/

namespace Sys2Proof.Machine

/-! ### Refused words -/

/-- A refused word that the next step decodes finishes `InvalidParam` (R145). -/
theorem step_of_decode_error {s : State} {err : DecodeError} (hbusy : s.status.busy = true)
    (hphase : s.eng.phase = .decode) (hsched : s.sched = []) (hdec : decode s.cmd = .error err) :
    step s = .next (refuseWord s) := by
  simp only [step, nextTurn, hsched, runTurn, hbusy, hphase, State.fetch, hdec, if_true]

/-- Settles O6: no such word decodes to a command. -/
theorem refusedWordFinishesInvalidParam : Obligations.RefusedWordFinishesInvalidParam := by
  intro s hbusy hphase hsched hword
  obtain ⟨haccepted, hreserved, -⟩ := decoderFollowsOpcodeMap s.cmd
  have hrefused : ∃ err, decode s.cmd = .error err := by
    obtain hop | hrows := hword
    · exact ⟨_, hreserved.mpr hop⟩
    · cases hdec : decode s.cmd with
      | error err => exact ⟨err, rfl⟩
      | ok i =>
        obtain ⟨r, hr, hmatch⟩ := haccepted.mp ⟨i, hdec⟩
        exact absurd hmatch (hrows r hr)
  obtain ⟨err, hdec⟩ := hrefused
  exact ⟨_, Engine.settled_finish s.eng, Engine.keeps_finish s.eng, step_of_decode_error hbusy hphase hsched hdec⟩

/-! ### CONFIG -/

theorem getLsbD_flagBit_zero (v : Bool) : (flagBit v).getLsbD 0 = v := by cases v <;> rfl

theorem getLsbD_append_flagBit_zero {n : Nat} (x : BitVec n) (v : Bool) : (x ++ flagBit v).getLsbD 0 = v := by
  rw [BitVec.getLsbD_append, if_pos Nat.one_pos]
  exact getLsbD_flagBit_zero v

theorem getLsbD_append_flagBit_succ {n : Nat} (x : BitVec n) (v : Bool) (i : Nat) :
    (x ++ flagBit v).getLsbD (i + 1) = x.getLsbD i := by
  simp [BitVec.getLsbD_append]

/-- The bits of the mask of failed checks (R28, R136). -/
theorem configFaults_getLsbD (c : Conf) :
    (configFaults c).getLsbD 0 = decide (c.tLow.toNat < 100) ∧
    (configFaults c).getLsbD 1 = decide (c.tHigh.toNat < 100) ∧
    (configFaults c).getLsbD 2 = decide (c.tStartHold.toNat < 4) ∧
    (configFaults c).getLsbD 3 = decide (c.tStopHold.toNat < 4) ∧
    (configFaults c).getLsbD 4 = decide (c.tBitTo.toNat = 0) ∧
    (configFaults c).getLsbD 5 = decide (c.tByteTo.toNat = 0) ∧
    (configFaults c).getLsbD 6 = decide (c.tByteTo.toNat < c.tBitTo.toNat) ∧
    (configFaults c).getLsbD 7 = decide (7 < c.devAddr.toNat) := by
  have zero (x : Word) : x = 0#32 ↔ x.toNat = 0 := BitVec.toNat_inj.symm
  have bounds : Config.tClkMin.toNat = 100 ∧ Config.tHoldMin.toNat = 4 ∧ Config.devAddrMax.toNat = 7 := ⟨rfl, rfl, rfl⟩
  simp only [configFaults, getLsbD_append_flagBit_zero, getLsbD_append_flagBit_succ, getLsbD_flagBit_zero, zero,
    BitVec.lt_def, bounds, and_self]

/-- CONFIG of an unconfigured block has no line event: it is its checks and its `finish` (R136). -/
theorem exec_config {s : State} (hcfg : s.status.cfg = false) :
    exec .config s = .next (complete .configCheck s.beginCommand) := by
  rw [exec_eq, runGated_none (gate_config hcfg)]
  rfl

theorem complete_configCheck_legal {s : State} (h : ConfigLegal s.conf) :
    complete .configCheck s = finish .ok 0#32 {} (s.setCfg true) :=
  if_pos ((configFaults_eq_zero_iff s.conf).mpr h)

theorem complete_configCheck_illegal {s : State} (h : ¬ ConfigLegal s.conf) :
    complete .configCheck s = finish .invalidConfig ((configFaults s.conf).zeroExtend 32) {} s :=
  if_neg (mt (configFaults_eq_zero_iff s.conf).mp h)

/-- Settles O8: no bit of the mask is set. -/
theorem configAcceptsLegalConfiguration : Obligations.ConfigAcceptsLegalConfiguration := by
  intro s hcfg hlegal
  refine ⟨_, Engine.settled_finish s.eng, Engine.keeps_finish s.eng, ?_⟩
  exact (exec_config hcfg).trans (congrArg _ (complete_configCheck_legal (s := s.beginCommand) hlegal))

/-- Settles O9: the detail is the mask, bit by bit. -/
theorem configReportsEveryFailedCheck : Obligations.ConfigReportsEveryFailedCheck := by
  intro s hcfg hillegal
  obtain ⟨h0, h1, h2, h3, h4, h5, h6, h7⟩ := configFaults_getLsbD s.conf
  refine ⟨_, configFaults s.conf, Engine.settled_finish s.eng, Engine.keeps_finish s.eng, ?_⟩
  simp only [h0, h1, h2, h3, h4, h5, h6, h7, decide_eq_true_eq, true_and]
  exact (exec_config hcfg).trans (congrArg _ (complete_configCheck_illegal (s := s.beginCommand) hillegal))

/-- Settles O10: each corner case is one bit of the mask; after reset CONFIG finds every register 0. -/
theorem configCornerCases : Obligations.ConfigCornerCases := by
  refine ⟨fun c => ?_, _, exec_config rfl, rfl, by decide, rfl⟩
  obtain ⟨h0, -, -, -, h4, h5, h6, h7⟩ := configFaults_getLsbD c
  simp only [h0, h4, h5, h6, h7]
  refine ⟨fun h => ?_, fun h => ?_, fun h => ?_, fun h h' => ?_, fun h => ?_, fun h => ?_⟩ <;> simp [*]

/-! ### DECONFIG -/

/-- Settles O11: the gate refuses no DECONFIG, and its two drives cannot fail. -/
theorem deconfigReleasesAndUnconfigures : Obligations.DeconfigReleasesAndUnconfigures := by
  intro s
  refine ⟨_, Engine.settled_finish s.eng, Engine.keeps_finish s.eng, ?_⟩
  have hrun : runSeq [.driveSCL true, .driveSDA true] s.beginCommand =
      .ok ((s.beginCommand.setSCL true).setSDA true) := (runSeq_cons_done rfl).trans (runSeq_cons_done rfl)
  rw [exec_eq, runGated_none (gate_deconfig s)]
  refine congrArg _ ((runJob_ok hrun).trans ?_)
  simp [complete, finish, State.withRecord]

end Sys2Proof.Machine

/-! RECOVER and IDLE (43_control_recovery.md R140 to R143): the idle check on every draw, the recovery pulses on the
samples in store. -/

namespace Sys2Proof.Machine

/-! ### The idle check -/

/-- The idle bits as a number (R143). -/
theorem idleBits_eq_ofNat (l m : Level) :
    idleBits l m = BitVec.ofNat 8 (m.toNat * 4 + l.toNat * 2 + (l && m).toNat) := by
  revert l m
  decide

theorem srBit_idleBits_scl (l m : Level) : srBit (idleBits l m) 1#4 = l := by
  revert l m
  decide

theorem srBit_idleBits_idle (l m : Level) : srBit (idleBits l m) 0#4 = (l && m) := by
  revert l m
  decide

/-- The first sample of the idle check (R143). -/
theorem fire_senseSCL_sampled (s : State) : ∃ l xs n,
    Sampled Config.sclDraw (Config.wiredAnd && !s.sclO) s.env.scl xs s.env.drawn n l ∧
      fire .senseSCL s = .done { s with
        trace := s.trace ++ [.sampleSCL l], env := { s.env with scl := xs, drawn := n }
        eng := { s.eng with sr := idleBits l false } } := by
  obtain ⟨l, xs, n, hsampled, hlevel⟩ := levelSCL_sampled s
  exact ⟨l, xs, n, hsampled, by simp [fire, sampleSCL, hlevel, State.record, State.setEng]⟩

/-- The second sample of the idle check, with the level of SCL in the shift register (R143). -/
theorem fire_senseSDA_sampled {s : State} {l : Level} (hsr : s.eng.sr = idleBits l false) : ∃ m ys n,
    Sampled Config.sdaDraw (Config.wiredAnd && !s.sdaO) s.env.sda ys s.env.drawn n m ∧
      fire .senseSDA s = .done { s with
        trace := s.trace ++ [.sampleSDA m], env := { s.env with sda := ys, drawn := n }
        eng := { s.eng with sr := idleBits l m } } := by
  obtain ⟨m, ys, n, hsampled, hlevel⟩ := levelSDA_sampled s
  exact ⟨m, ys, n, hsampled,
    by simp [fire, sampleSDA, hlevel, State.record, State.setEng, hsr, srBit_idleBits_scl]⟩

/-- The idle check takes one sample of each line, SCL first, and leaves their idle bits in the shift register (R143). -/
theorem sense_happens (s : State) : ∃ (l m : Level) (env : Env) (n : Nat) (t : State),
    Sampled Config.sclDraw (Config.wiredAnd && !s.sclO) s.env.scl env.scl s.env.drawn n l ∧
      Sampled Config.sdaDraw (Config.wiredAnd && !s.sdaO) s.env.sda env.sda n env.drawn m ∧
      Happen senseSeq s t [.sampleSCL l, .sampleSDA m] ∧ t.lines = s.lines ∧ t.env = env ∧
      t.eng.sr = idleBits l m := by
  obtain ⟨l, xs, n, hl, hscl⟩ := fire_senseSCL_sampled s
  obtain ⟨m, ys, k, hm, hsda⟩ := fire_senseSDA_sampled (l := l) (s := { s with
    trace := s.trace ++ [.sampleSCL l], env := { s.env with scl := xs, drawn := n }
    eng := { s.eng with sr := idleBits l false } }) rfl
  exact ⟨l, m, ⟨xs, ys, k⟩, n, _, hl, hm, (Happen.single hscl ⟨_, _, _, _, _, _, _, rfl⟩).trans
    (Happen.single hsda ⟨_, _, _, _, _, _, _, rfl⟩), rfl, rfl, rfl⟩

/-- Settles O43: IDLE is the idle check, which cannot fail. -/
theorem idleReportsTheLines : Obligations.IdleReportsTheLines := by
  intro s hcfg
  obtain ⟨l, m, env, n, t, hl, hm, hsense, hlines, rfl, hsr⟩ := sense_happens s.beginCommand
  obtain ⟨hscl, hsda⟩ := Prod.mk.inj hlines
  have hcomplete : complete .idleBits t = finish .ok 0#32 { data := t.eng.sr } t :=
    concludeWith_none hsense.moves.err_eq_none
  obtain ⟨e, hsettled, hkeeps, hfinish⟩ := hsense.moves.finish .ok 0#32 { data := t.eng.sr }
  refine ⟨e, l, m, t.env, n, hsettled, hkeeps, hl, hm, ?_⟩
  rw [exec_eq, runGated_none (gate_none rfl (by decide) hcfg)]
  refine congrArg _ ((runJob_ok (hsense.run [])).trans (hcomplete.trans ?_))
  rw [hfinish, hscl, hsda, hsr, idleBits_eq_ofNat]
  rfl

/-! ### The line events of RECOVER -/

/-- The nine pulses of RECOVER are numbered from 1, and its STOP is step 10 (R140, R141). -/
theorem recoverSeq_eq :
    recoverSeq = [.driveSDA true] ++ (List.range' 1 9).flatMap pulseSeq ++ stopSeq (.stuck 10) ++ senseSeq := rfl

/-- One recovery pulse whose clock rises within the budgets (R140). -/
theorem pulse_happens {s : State} (p : Nat) {k : Nat} {rest : List Level}
    (hscl : s.env.scl = List.replicate k false ++ true :: rest) (hk : waitFits s.conf k) : ∃ t,
      Happen (pulseSeq p) s t (pulseTrace s.conf k) ∧ t.sdaO = s.sdaO ∧ t.env = { s.env with scl := rest } :=
  ⟨_, ⟨fun _ => runSeq_pulse hscl hk, _, _, _, _, _, _, _, rfl⟩, rfl, rfl⟩

/-- STOP_SEQ whose clock rises within the budgets (R101). -/
theorem stop_happens {s : State} (f : FailAs) {k : Nat} {rest : List Level}
    (hscl : s.env.scl = List.replicate k false ++ true :: rest) (hk : waitFits s.conf k) : ∃ t,
      Happen (stopSeq f) s t (stopTrace s.conf k) ∧ t.lines = (true, true) ∧ t.env = { s.env with scl := rest } :=
  ⟨_, ⟨fun _ => runSeq_stop hscl hk, _, _, _, _, _, _, _, rfl⟩, rfl, rfl⟩

/-- Pulses whose clocks rise within the budgets, numbered from `p` (R140). -/
theorem pulses_happen {rest : List Level} (ks : List Nat) : ∀ (p : Nat) (s : State), (∀ k ∈ ks, waitFits s.conf k) →
    s.env.scl = stretched ks ++ rest → ∃ t, Happen ((List.range' p ks.length).flatMap pulseSeq) s t
      (ks.map (pulseTrace s.conf)).flatten ∧ t.sdaO = s.sdaO ∧ t.env = { s.env with scl := rest } := by
  induction ks with
  | nil =>
    rintro p s - hscl
    exact ⟨s, .refl s, rfl, by rw [← show s.env.scl = rest from hscl]⟩
  | cons k ks ih =>
    intro p s hfits hscl
    obtain ⟨hk, hks⟩ := List.forall_mem_cons.mp hfits
    rw [stretched_cons] at hscl
    obtain ⟨u, hfirst, husda, huenv⟩ := pulse_happens p hscl hk
    have hconf := hfirst.moves.conf
    obtain ⟨t, hrest, hsda, henv⟩ := ih (p + 1) u (by rwa [hconf]) (by rw [huenv])
    rw [hconf] at hrest
    exact ⟨t, hfirst.trans hrest, hsda.trans husda, by rw [henv, huenv]⟩

/-- RECOVER up to a point where the pulses of `ks` have risen: SDA is released, and `rest` is left of the samples of SCL
(R140). -/
theorem recover_begins {s : State} {ks : List Nat} {rest : List Level} (hfits : ∀ k ∈ ks, waitFits s.conf k)
    (hscl : s.env.scl = stretched ks ++ rest) : ∃ t,
      Happen ([.driveSDA true] ++ (List.range' 1 ks.length).flatMap pulseSeq) s.beginCommand t
        ([LineEvent.driveSDA true] ++ (ks.map (pulseTrace s.conf)).flatten) ∧
      t.conf = s.conf ∧ t.sdaO = true ∧ t.env = { s.env with scl := rest } := by
  obtain ⟨t, hpulses, hsda, henv⟩ := pulses_happen ks 1 (s.beginCommand.setSDA true) hfits hscl
  exact ⟨t, (Happen.single rfl (wireMoves_setSDA true _)).trans hpulses, hpulses.moves.conf, hsda, henv⟩

/-! ### RECOVER whose clocks rise -/

/-- RECOVER finishes `Ok` exactly when both lines read high (R142). -/
theorem complete_recovery {s : State} {l m : Level} (herr : s.eng.err = none) (hsr : s.eng.sr = idleBits l m) :
    complete .recovery s = finish (if l && m then .ok else .busStuck) (if l && m then 0#32 else 11#32)
      { data := BitVec.ofNat 8 (m.toNat * 4 + l.toNat * 2 + (l && m).toNat) } s := by
  rw [complete, concludeWith_none herr, hsr, srBit_idleBits_idle, idleBits_eq_ofNat]
  cases (l && m) <;> rfl

/-- A released line with a sample in store reads that sample, and takes no free draw (R29). -/
theorem Sampled.of_released {free : Nat → Level} {v w : Level} {vs xs : List Level} {n k : Nat}
    (h : Sampled free (Config.wiredAnd && !true) (v :: vs) xs n k w) : w = v ∧ xs = vs ∧ k = n := by
  simpa [Sampled] using h

/-- Settles O41: the pulses, the STOP and the idle check all happen, and the idle bits decide the kind. -/
theorem recoverCompletes : Obligations.RecoverCompletes := by
  intro s ks kStop l m rest rest' hcfg hlen hfits hstopfits hscl hsda
  rw [stretched_append, List.append_assoc, stretched_cons] at hscl
  obtain ⟨t, hbegin, hconf, -, htenv⟩ := recover_begins hfits hscl
  obtain ⟨u, hstop, hulines, huenv⟩ := stop_happens (s := t) (.stuck 10) (k := kStop)
    (rest := l :: rest) (by rw [htenv]; rfl) (by rw [hconf]; exact hstopfits)
  obtain ⟨l', m', env, n, w, hl, hm, hsense, hlines, rfl, hsr⟩ := sense_happens u
  obtain ⟨huscl, husda⟩ := Prod.mk.inj hulines
  obtain ⟨hwscl, hwsda⟩ := Prod.mk.inj (hlines.trans hulines)
  simp only [huscl, husda, huenv, htenv, hsda] at hl hm
  obtain ⟨rfl, hscl', rfl⟩ := hl.of_released
  obtain ⟨rfl, hsda', hdrawn⟩ := hm.of_released
  have henv : w.env = { s.env with scl := rest, sda := rest' } := by
    have fields : w.env = ⟨w.env.scl, w.env.sda, w.env.drawn⟩ := rfl
    rw [fields, hscl', hsda', hdrawn]
  have hall := (hbegin.trans hstop).trans hsense
  rw [hlen, ← recoverSeq_eq, hconf] at hall
  obtain ⟨e, hsettled, hkeeps, hfinish⟩ := hall.moves.finish (if l' && m' then .ok else .busStuck)
    (if l' && m' then 0#32 else 11#32) { data := BitVec.ofNat 8 (m'.toNat * 4 + l'.toNat * 2 + (l' && m').toNat) }
  refine ⟨e, hsettled, hkeeps, ?_⟩
  rw [exec_eq, runGated_none (gate_none rfl (by decide) hcfg)]
  refine congrArg _ ((runJob_ok (hall.run [])).trans ((complete_recovery hall.moves.err_eq_none hsr).trans ?_))
  rw [hfinish, hwscl, hwsda, henv]

/-! ### RECOVER whose clock is held low -/

/-- RECOVER whose clock is held low in step `p` finishes `BusStuck` with `p` (R140, R141). -/
theorem StopsLow.exec_recover {s : State} {p : Nat} {b : Level} {new : List LineEvent} {env : Env} {x : Count}
    (hstop : StopsLow s.beginCommand recoverSeq (.stuck p) b new env x) (hcfg : s.status.cfg = true) :
    ∃ e : Engine, e.Settled s.eng ∧ e.KeepsFrameBytes s.eng ∧
      Machine.exec .recover s = .next { s.withRecord .busStuck (BitVec.ofNat 32 p) {} with
        sclO := true, sdaO := b, trace := s.trace ++ new, env := env, eng := e } := by
  obtain ⟨t, hrun, hmoves, hscl, hsda, henv⟩ := hstop
  have herr : (t.keepFailure ((FailAs.stuck p).failure x)).eng.err = some ⟨.busStuck, BitVec.ofNat 32 p⟩ := by
    rw [State.keepFailure_eng, hmoves.err_eq_none]
    rfl
  obtain ⟨e, hsettled, hkeeps, hfinish⟩ := hmoves.finish .busStuck (BitVec.ofNat 32 p) {}
  refine ⟨e, hsettled, hkeeps, ?_⟩
  rw [hscl, hsda, henv] at hfinish
  rw [exec_eq, runGated_none (gate_none rfl (by decide) hcfg)]
  refine congrArg _ ((runJob_failed hrun).trans ((concludeWith_some herr).trans ?_))
  rw [finish_keepFailure, hfinish]

/-- The pulse at which RECOVER stops after `n` pulses, and what comes before and after it. -/
theorem recoverSeq_split {n : Nat} (h : n < 9) : ∃ ms, recoverSeq =
    ([.driveSDA true] ++ (List.range' 1 n).flatMap pulseSeq) ++
      (.releaseSCL true :: .wait (.stuck (n + 1)) :: ms) := by
  interval_cases n <;> exact ⟨_, rfl⟩

/-- Settles O42: the clock is held low in a pulse or in the STOP, after the pulses that rise. -/
theorem recoverReportsStuckClock : Obligations.RecoverReportsStuckClock := by
  intro s ks rest hcfg hbudget hfits hscl
  rw [List.append_assoc] at hscl
  obtain ⟨t, hbegin, hconf, hsda, henv⟩ := recover_begins hfits hscl
  have hlow := holdsLow_bit (c := s.conf) (spent := 0) rest (by rwa [Nat.zero_add])
  obtain hlt | heq | hgt := lt_trichotomy ks.length 9
  · obtain ⟨ms, hseq⟩ := recoverSeq_split hlt
    have hstop := hbegin.stopsLow (hlow t true (.stuck (ks.length + 1)) ms hconf (by rw [henv]) rfl)
    rw [← hseq, hsda, henv] at hstop
    obtain ⟨e, hsettled, hkeeps, hexec⟩ := hstop.exec_recover hcfg
    refine ⟨e, hsettled, hkeeps, fun _ => ?_, fun h => absurd h hlt.ne⟩
    rw [hexec]
    simp
  · have head := (Happen.single (m := .driveSDA false) rfl (wireMoves_setSDA false t)).trans
      (happen_hold .stopHold (t.setSDA false))
    have hstop := (hbegin.trans head).stopsLow (hlow ((t.setSDA false).pause _) true (.stuck 10)
      ([.hold .stopHold, .driveSDA true, .hold .stopHold] ++ senseSeq) hconf (by simp [henv]) rfl)
    rw [heq] at hstop
    have hseq : StopsLow s.beginCommand recoverSeq (.stuck 10) false _ _ _ := hstop
    obtain ⟨e, hsettled, hkeeps, hexec⟩ := hseq.exec_recover hcfg
    refine ⟨e, hsettled, hkeeps, fun h => absurd heq h.ne, fun _ => ?_⟩
    rw [hexec]
    simp [stopHead, Hold.us, hconf, henv]
  · exact ⟨_, Engine.settled_finish s.eng, Engine.keeps_finish s.eng, fun h => absurd h hgt.not_gt,
      fun h => absurd h hgt.ne'⟩

end Sys2Proof.Machine

/-! What a command's outcome depends on (43_control_recovery.md R147). Two runs of a command from states that differ in
their history stay alike in the lines, the draws, the failure kept and those registers of the engine that the command
has written: it reads no other. -/

namespace Sys2Proof.Machine

/-! ### The registers of the engine that a command has written -/

/-- The registers of the engine that the running command has written (R31). -/
structure Known where
  n : Bool := false
  acc : Bool := false
  sr : Bool := false
  i : Bool := false
  ctrl : Bool := false
  d : Bool := false
  c : Bool := false
  acked : Bool := false

/-- Of the registers known, the frame bytes. -/
def Known.frame (k : Known) : Known := { ctrl := k.ctrl, d := k.d, c := k.c, acked := k.acked }

/-- The registers that an engine step reads are known. -/
def Known.reads (k : Known) : Micro → Bool
  | .wait _ | .pollDelay _ => k.n && k.acc
  | .nextWrite _ | .senseSDA => k.sr
  | .sampleBit => k.sr && k.i
  | .closeAck _ counted => k.sr && (!counted || k.acked)
  | .closeByte .d => k.sr && k.d
  | .closeByte .c => k.sr && k.c
  | _ => true

/-- The registers known after an engine step. -/
def Known.after (k : Known) : Micro → Known
  | .releaseSCL fresh => { k with n := true, acc := fresh || k.acc }
  | .openWrite _ _ | .openRead _ => { k with acc := true, sr := true, i := true }
  | .nextWrite _ | .nextRead _ => { k with i := true }
  | .senseSCL => { k with sr := true }
  | _ => k

/-- Every step of a sequence reads known registers only. -/
def Known.readsAll : Known → List Micro → Bool
  | _, [] => true
  | k, m :: ms => k.reads m && (k.after m).readsAll ms

def Known.afterAll (k : Known) (ms : List Micro) : Known := ms.foldl Known.after k

/-- The frame bytes are written before a frame's first event. -/
theorem Known.after_frame (k : Known) (m : Micro) : (k.after m).frame = k.frame := by cases m <;> rfl

theorem Known.afterAll_frame (ms : List Micro) (k : Known) : (k.afterAll ms).frame = k.frame := by
  induction ms generalizing k with
  | nil => rfl
  | cons m ms ih => exact (ih (k.after m)).trans (k.after_frame m)

/-! ### States that are alike -/

/-- The engine's known registers and its failure kept; the rest as after reset. -/
def Engine.known (k : Known) (e : Engine) : Engine :=
  { State.reset.eng with
    n := if k.n then e.n else 0#33, acc := if k.acc then e.acc else 0#33
    sr := if k.sr then e.sr else 0#8, i := if k.i then e.i else 0#4
    ctrl := if k.ctrl then e.ctrl else 0#8, d := if k.d then e.d else 0#8
    c := if k.c then e.c else 0#8, acked := if k.acked then e.acked else 0#3, err := e.err }

/-- The part of the state that a running command depends on: CFG, the configuration, the lines, the draws, and of the
engine what is known; the rest as after reset. -/
def State.known (k : Known) (s : State) : State :=
  { State.reset with
    status := { State.reset.status with cfg := s.status.cfg }
    conf := s.conf, sclO := s.sclO, sdaO := s.sdaO, env := s.env, eng := s.eng.known k }

/-- Two runs of a command, begun with the traces `p` and `q`, are alike: they have performed the same line events, and a
step that reads known registers only finds no difference. -/
structure Alike (k : Known) (p q : List LineEvent) (s t : State) : Prop where
  known : s.known k = t.known k
  trace : ∃ new, s.trace = p ++ new ∧ t.trace = q ++ new

section
variable {k k' : Known} {p q : List LineEvent} {s t s' t' : State}

theorem Alike.cfg (h : Alike k p q s t) : s.status.cfg = t.status.cfg := congrArg (fun u => u.status.cfg) h.known

theorem Alike.conf (h : Alike k p q s t) : s.conf = t.conf := congrArg (fun u => u.conf) h.known

theorem Alike.scl (h : Alike k p q s t) : s.sclO = t.sclO := congrArg (fun u => u.sclO) h.known

theorem Alike.sda (h : Alike k p q s t) : s.sdaO = t.sdaO := congrArg (fun u => u.sdaO) h.known

theorem Alike.env (h : Alike k p q s t) : s.env = t.env := congrArg (fun u => u.env) h.known

theorem Alike.err (h : Alike k p q s t) : s.eng.err = t.eng.err := congrArg (fun u => u.eng.err) h.known

theorem Alike.n (h : Alike k p q s t) (hk : k.n = true) : s.eng.n = t.eng.n := by
  simpa [State.known, Engine.known, hk] using congrArg (fun u => u.eng.n) h.known

theorem Alike.acc (h : Alike k p q s t) (hk : k.acc = true) : s.eng.acc = t.eng.acc := by
  simpa [State.known, Engine.known, hk] using congrArg (fun u => u.eng.acc) h.known

theorem Alike.sr (h : Alike k p q s t) (hk : k.sr = true) : s.eng.sr = t.eng.sr := by
  simpa [State.known, Engine.known, hk] using congrArg (fun u => u.eng.sr) h.known

theorem Alike.i (h : Alike k p q s t) (hk : k.i = true) : s.eng.i = t.eng.i := by
  simpa [State.known, Engine.known, hk] using congrArg (fun u => u.eng.i) h.known

theorem Alike.ctrl (h : Alike k p q s t) (hk : k.ctrl = true) : s.eng.ctrl = t.eng.ctrl := by
  simpa [State.known, Engine.known, hk] using congrArg (fun u => u.eng.ctrl) h.known

theorem Alike.d (h : Alike k p q s t) (hk : k.d = true) : s.eng.d = t.eng.d := by
  simpa [State.known, Engine.known, hk] using congrArg (fun u => u.eng.d) h.known

theorem Alike.c (h : Alike k p q s t) (hk : k.c = true) : s.eng.c = t.eng.c := by
  simpa [State.known, Engine.known, hk] using congrArg (fun u => u.eng.c) h.known

theorem Alike.acked (h : Alike k p q s t) (hk : k.acked = true) : s.eng.acked = t.eng.acked := by
  simpa [State.known, Engine.known, hk] using congrArg (fun u => u.eng.acked) h.known

/-- The same line event, with the same effect on what is known, keeps runs alike. -/
theorem Alike.event {ev ev' : LineEvent} (h : Alike k p q s t) (effect : State → State)
    (hs : s'.known k' = effect (s.known k)) (ht : t'.known k' = effect (t.known k))
    (hstrace : s'.trace = s.trace ++ [ev]) (httrace : t'.trace = t.trace ++ [ev']) (hev : ev = ev') :
    Alike k' p q s' t' := by
  obtain ⟨new, hp, hq⟩ := h.trace
  refine ⟨by rw [hs, ht, h.known], new ++ [ev], ?_, ?_⟩
  · rw [hstrace, hp, List.append_assoc]
  · rw [httrace, hq, List.append_assoc, hev]

theorem Alike.keepFailure {f g : Failure} (h : Alike k p q s t) (hf : f = g) :
    Alike k p q (s.keepFailure f) (t.keepFailure g) := by
  subst hf
  refine ⟨?_, by simpa only [State.keepFailure_trace] using h.trace⟩
  rw [State.keepFailure_eq, State.keepFailure_eq]
  exact congrArg (fun u : State => { u with eng := { u.eng with err := some (u.eng.err.getD f) } }) h.known

/-- After a failure only the frame bytes matter. -/
theorem Alike.frame (h : Alike k p q s t) : Alike k.frame p q s t :=
  ⟨congrArg (fun u : State => { u with eng := { u.eng with n := 0#33, acc := 0#33, sr := 0#8, i := 0#4 } }) h.known,
    h.trace⟩

theorem Alike.sampleSCL (h : Alike k p q s t) : ∃ v e,
    Machine.sampleSCL s = (v, { s with env := e, trace := s.trace ++ [.sampleSCL v] }) ∧
      Machine.sampleSCL t = (v, { t with env := e, trace := t.trace ++ [.sampleSCL v] }) := by
  obtain ⟨v, xs, n, hv, hs⟩ := levelSCL_sampled s
  obtain ⟨w, ys, k, hw, ht⟩ := levelSCL_sampled t
  rw [h.scl, h.env] at hv
  obtain ⟨rfl, rfl, rfl⟩ := hv.unique hw
  exact ⟨v, { t.env with scl := xs, drawn := n }, by simp [Machine.sampleSCL, hs, h.env, State.record],
    by simp [Machine.sampleSCL, ht, State.record]⟩

theorem Alike.sampleSDA (h : Alike k p q s t) : ∃ v e,
    Machine.sampleSDA s = (v, { s with env := e, trace := s.trace ++ [.sampleSDA v] }) ∧
      Machine.sampleSDA t = (v, { t with env := e, trace := t.trace ++ [.sampleSDA v] }) := by
  obtain ⟨v, xs, n, hv, hs⟩ := levelSDA_sampled s
  obtain ⟨w, ys, k, hw, ht⟩ := levelSDA_sampled t
  rw [h.sda, h.env] at hv
  obtain ⟨rfl, rfl, rfl⟩ := hv.unique hw
  exact ⟨v, { t.env with sda := xs, drawn := n }, by simp [Machine.sampleSDA, hs, h.env, State.record],
    by simp [Machine.sampleSDA, ht, State.record]⟩

/-! ### Line events keep runs alike -/

/-- Both steps end in the same way, in states that are alike; the step that follows in a wait reads and keeps what is
known. -/
def Fired.Alike (k : Known) (p q : List LineEvent) : Fired → Fired → Prop
  | .done s, .done t | .failed s, .failed t => Machine.Alike k p q s t
  | .again m s, .again m' t => m' = m ∧ k.reads m = true ∧ k.after m = k ∧ Machine.Alike k p q s t
  | _, _ => False

theorem Fired.Alike.ite {P Q : Prop} [Decidable P] [Decidable Q] {x x' y y' : Fired} (h : P = Q)
    (hx : x.Alike k p q x') (hy : y.Alike k p q y') : (if P then x else y).Alike k p q (if Q then x' else y') := by
  by_cases hP : P
  · rwa [if_pos hP, if_pos (h ▸ hP)]
  · rwa [if_neg hP, if_neg (h ▸ hP)]

theorem poll_alike (f : FailAs) (hn : k.n = true) (hacc : k.acc = true) (h : Alike k p q s t) :
    (poll f s).Alike k p q (poll f t) := by
  have hreads : k.reads (.pollDelay f) = true := Bool.and_eq_true_iff.mpr ⟨hn, hacc⟩
  obtain ⟨v, e, hs, ht⟩ := h.sampleSCL
  have sampled : Alike k p q { s with env := e, trace := s.trace ++ [.sampleSCL v] }
      { t with env := e, trace := t.trace ++ [.sampleSCL v] } :=
    h.event (fun u => { u with env := e }) rfl rfl rfl rfl rfl
  simp only [poll, hs, ht]
  cases v with
  | true =>
    obtain ⟨_, _, _, _, _, _, _, _⟩ := k
    obtain ⟨rfl, rfl⟩ : _ = true ∧ _ = true := ⟨hn, hacc⟩
    exact h.event (fun u => { u with env := e, eng := { u.eng with acc := u.eng.acc + u.eng.n } }) rfl rfl rfl rfl rfl
  | false =>
    exact .ite (by rw [h.n hn, h.conf]) (sampled.keepFailure (by rw [h.n hn])) ⟨rfl, hreads, rfl, sampled⟩

theorem pollPause_alike (f : FailAs) (hn : k.n = true) (hacc : k.acc = true) (h : Alike k p q s t) :
    (pollPause f s).Alike k p q (pollPause f t) := by
  have hreads : k.reads (.wait f) = true := Bool.and_eq_true_iff.mpr ⟨hn, hacc⟩
  have counted : s.eng.acc + (s.eng.n + Config.pollUs) = t.eng.acc + (t.eng.n + Config.pollUs) := by
    rw [h.acc hacc, h.n hn]
  have paused : Alike k p q ((s.pause Config.pollUs.toNat).setEng { s.eng with n := s.eng.n + Config.pollUs })
      ((t.pause Config.pollUs.toNat).setEng { t.eng with n := t.eng.n + Config.pollUs }) := by
    obtain ⟨_, _, _, _, _, _, _, _⟩ := k
    obtain rfl : _ = true := hn
    exact h.event (fun u => { u with eng := { u.eng with n := u.eng.n + Config.pollUs } }) rfl rfl rfl rfl rfl
  have budget := congrArg (fun c : Conf => c.tByteTo.zeroExtend 33) h.conf
  exact .ite (congrArg₂ (· < ·) budget counted) (paused.keepFailure (congrArg f.failure counted))
    ⟨rfl, hreads, rfl, paused⟩

/-- A named delay of the configuration. -/
theorem Alike.pause (h : Alike k p q s t) (x : Hold) :
    Alike k p q (s.pause (x.us s.conf)) (t.pause (x.us t.conf)) :=
  h.event id rfl rfl rfl rfl (by rw [h.conf])

theorem endAck_alike {j : Nat} {counted : Bool} (hsr : k.sr = true) (hacked : counted = true → k.acked = true)
    (h : Alike k p q s t) : (endAck j counted s).Alike k p q (endAck j counted t) := by
  have paused := h.pause .low
  refine .ite (congrArg (srBit · 0#4 = true) (h.sr hsr)) (paused.keepFailure rfl) ?_
  cases counted with
  | true =>
    obtain ⟨_, _, _, _, _, _, _, _⟩ := k
    obtain rfl : _ = true := hacked rfl
    exact h.event (fun u => { u with eng := { u.eng with acked := u.eng.acked + 1#3 } }) rfl rfl rfl rfl (by rw [h.conf])
  | false => exact paused

/-- ONE ENGINE STEP that reads known registers only keeps runs alike, in every register that it writes too. -/
theorem fire_alike (m : Micro) (hm : k.reads m = true) (h : Alike k p q s t) :
    (fire m s).Alike (k.after m) p q (fire m t) := by
  cases m with
  | driveSCL v => exact h.event (fun u => { u with sclO := v }) rfl rfl rfl rfl rfl
  | driveSDA v => exact h.event (fun u => { u with sdaO := v }) rfl rfl rfl rfl rfl
  | hold x => exact h.pause x
  | openWrite x i => exact h.event (fun u => { u with
      sdaO := srBit x i, eng := { u.eng with acc := 0#33, sr := x, i := i } }) rfl rfl rfl rfl rfl
  | openRead i => exact h.event (fun u => { u with
      sdaO := true, eng := { u.eng with acc := 0#33, sr := 0#8, i := i } }) rfl rfl rfl rfl rfl
  | nextRead i => exact h.event (fun u => { u with sdaO := true, eng := { u.eng with i := i } }) rfl rfl rfl rfl rfl
  | releaseSCL fresh =>
    cases fresh with
    | true => exact h.event (fun u => { u with
        sclO := true, eng := { u.eng with n := 0#33, acc := 0#33 } }) rfl rfl rfl rfl rfl
    | false => exact h.event (fun u => { u with sclO := true, eng := { u.eng with n := 0#33 } }) rfl rfl rfl rfl rfl
  | wait f =>
    obtain ⟨hn, hacc⟩ := Bool.and_eq_true_iff.mp hm
    exact poll_alike f hn hacc h
  | pollDelay f =>
    obtain ⟨hn, hacc⟩ := Bool.and_eq_true_iff.mp hm
    exact pollPause_alike f hn hacc h
  | closeAck j counted =>
    obtain ⟨hsr, hacked⟩ := Bool.and_eq_true_iff.mp hm
    exact endAck_alike hsr (fun hc => by rwa [hc] at hacked) h
  | nextWrite i =>
    obtain ⟨_, _, _, _, _, _, _, _⟩ := k
    obtain rfl : _ = true := hm
    exact h.event (fun u => { u with sdaO := srBit u.eng.sr i, eng := { u.eng with i := i } }) rfl rfl rfl rfl
      (by rw [h.sr rfl])
  | closeByte dst =>
    obtain ⟨_, _, _, _, _, _, _, _⟩ := k
    cases dst with
    | d =>
      obtain ⟨rfl, rfl⟩ := Bool.and_eq_true_iff.mp hm
      exact h.event (fun u => { u with eng := { u.eng with d := u.eng.sr } }) rfl rfl rfl rfl (by rw [h.conf])
    | c =>
      obtain ⟨rfl, rfl⟩ := Bool.and_eq_true_iff.mp hm
      exact h.event (fun u => { u with eng := { u.eng with c := u.eng.sr } }) rfl rfl rfl rfl (by rw [h.conf])
  | sampleBit =>
    obtain ⟨_, _, _, _, _, _, _, _⟩ := k
    obtain ⟨rfl, rfl⟩ := Bool.and_eq_true_iff.mp hm
    obtain ⟨v, e, hs, ht⟩ := h.sampleSDA
    simp only [fire, hs, ht]
    exact h.event (fun u => { u with env := e, eng := { u.eng with sr := setSrBit u.eng.sr u.eng.i v } })
      rfl rfl rfl rfl rfl
  | senseSCL =>
    obtain ⟨v, e, hs, ht⟩ := h.sampleSCL
    simp only [fire, hs, ht]
    exact h.event (fun u => { u with env := e, eng := { u.eng with sr := idleBits v false } }) rfl rfl rfl rfl rfl
  | senseSDA =>
    obtain ⟨_, _, _, _, _, _, _, _⟩ := k
    obtain rfl : _ = true := hm
    obtain ⟨v, e, hs, ht⟩ := h.sampleSDA
    simp only [fire, hs, ht]
    exact h.event (fun u => { u with env := e, eng := { u.eng with sr := idleBits (srBit u.eng.sr 1#4) v } })
      rfl rfl rfl rfl rfl

/-- Both runs end in the same way, in states that are alike; after a failure, in the frame bytes at least. -/
def Ran.Alike (k : Known) (p q : List LineEvent) : Ran → Ran → Prop
  | .ok s, .ok t => Machine.Alike k p q s t
  | .failed s, .failed t => Machine.Alike k.frame p q s t
  | _, _ => False

theorem runMicro_alike (fuel : Nat) (m : Micro) (hm : k.reads m = true) (h : Alike k p q s t) :
    (runMicro fuel m s).Alike (k.after m) p q (runMicro fuel m t) := by
  induction fuel generalizing k m s t with
  | zero =>
    rw [runMicro, runMicro, Ran.Alike, k.after_frame]
    exact h.frame
  | succ fuel ih =>
    have first := fire_alike m hm h
    rw [runMicro, runMicro]
    cases hs : fire m s with
    | done s' =>
      cases ht : fire m t with
      | done t' => rwa [hs, ht] at first
      | again m' t' | failed t' => rw [hs, ht] at first; exact first.elim
    | again m' s' =>
      cases ht : fire m t with
      | again m'' t' =>
        rw [hs, ht] at first
        obtain ⟨rfl, hreads, hafter, hnext⟩ := first
        rw [← hafter]
        exact ih m'' hreads hnext
      | done t' | failed t' => rw [hs, ht] at first; exact first.elim
    | failed s' =>
      cases ht : fire m t with
      | failed t' =>
        rw [hs, ht] at first
        exact first.frame
      | done t' | again m' t' => rw [hs, ht] at first; exact first.elim

theorem runSeq_alike (ms : List Micro) (hms : k.readsAll ms = true) (h : Alike k p q s t) :
    (runSeq ms s).Alike (k.afterAll ms) p q (runSeq ms t) := by
  induction ms generalizing k s t with
  | nil => exact h
  | cons m ms ih =>
    obtain ⟨hm, hrest⟩ := Bool.and_eq_true_iff.mp hms
    have hfuel : waitFuel s = waitFuel t := congrArg (fun c : Conf => 2 * c.tBitTo.toNat + 2) h.conf
    have first := runMicro_alike (waitFuel s) m hm h
    rw [runSeq, runSeq, ← hfuel]
    cases hs : runMicro (waitFuel s) m s with
    | ok s' =>
      cases ht : runMicro (waitFuel s) m t with
      | ok t' =>
        rw [hs, ht] at first
        exact ih hrest first
      | failed t' => rw [hs, ht] at first; exact first.elim
    | failed s' =>
      cases ht : runMicro (waitFuel s) m t with
      | ok t' => rw [hs, ht] at first; exact first.elim
      | failed t' =>
        rw [hs, ht] at first
        have hframe : (k.afterAll (m :: ms)).frame = (k.after m).frame := Known.afterAll_frame ms (k.after m)
        rw [Ran.Alike, hframe]
        exact first

/-! ### The `finish` of a command -/

/-- What R147 says of two outcomes, of runs begun with the traces `p` and `q`. -/
def SameOutcome (p q : List LineEvent) (s t : State) : Prop :=
  s.status.kind = t.status.kind ∧ s.status.cfg = t.status.cfg ∧ s.result = t.result ∧ s.detail = t.detail ∧
    s.sclO = t.sclO ∧ s.sdaO = t.sdaO ∧ s.env = t.env ∧ ∃ new, s.trace = p ++ new ∧ t.trace = q ++ new

theorem Alike.finish {r r' : Result} (h : Alike k p q s t) (x : Kind) (d : Word) (hr : r = r') :
    SameOutcome p q (finish x d r s) (finish x d r' t) :=
  ⟨rfl, h.cfg, hr, rfl, h.scl, h.sda, h.env, h.trace⟩

theorem Alike.concludeWith {r r' : Result} {u v : State} (h : Alike k p q s t) (hr : r = r')
    (hok : SameOutcome p q u v) : SameOutcome p q (concludeWith r s u) (concludeWith r' t v) := by
  cases hs : s.eng.err with
  | none =>
    rw [concludeWith_none hs, concludeWith_none (h.err.symm.trans hs)]
    exact hok
  | some f =>
    rw [concludeWith_some hs, concludeWith_some (h.err.symm.trans hs)]
    exact h.finish _ _ hr

/-- The registers that a `finish` reads are known. -/
def Known.reports (k : Known) : Report → Bool
  | .received | .ackFlag | .recovery | .idleBits => k.sr
  | .readFrame => k.d && (k.c && k.ctrl)
  | .writeFrame => k.acked && (k.c && k.ctrl)
  | .plain | .configCheck | .unconfigure => true

theorem Alike.readFrameResult (h : Alike k p q s t) (hk : k.reports .readFrame = true) :
    readFrameResult s.eng = readFrameResult t.eng := by
  obtain ⟨hd, hk⟩ := Bool.and_eq_true_iff.mp hk
  obtain ⟨hc, hctrl⟩ := Bool.and_eq_true_iff.mp hk
  rw [Machine.readFrameResult, h.d hd, h.c hc, h.ctrl hctrl]
  rfl

theorem Alike.writeFrameResult (h : Alike k p q s t) (hk : k.reports .writeFrame = true) :
    writeFrameResult s.eng = writeFrameResult t.eng := by
  obtain ⟨hacked, hk⟩ := Bool.and_eq_true_iff.mp hk
  obtain ⟨hc, hctrl⟩ := Bool.and_eq_true_iff.mp hk
  rw [Machine.writeFrameResult, h.acked hacked, h.c hc, h.ctrl hctrl]
  rfl

theorem SameOutcome.ite {P Q : Prop} [Decidable P] [Decidable Q] {u v : State} (h : P = Q) (hyes : SameOutcome p q s t)
    (hno : SameOutcome p q u v) : SameOutcome p q (if P then s else u) (if Q then t else v) := by
  by_cases hP : P
  · rwa [if_pos hP, if_pos (h ▸ hP)]
  · rwa [if_neg hP, if_neg (h ▸ hP)]

/-- A `finish` that reads known registers only has the same outcome in both runs. -/
theorem Alike.complete (h : Alike k p q s t) {x : Report} (hx : k.reports x = true) :
    SameOutcome p q (complete x s) (complete x t) := by
  cases x with
  | plain => exact h.concludeWith rfl (h.finish _ _ rfl)
  | received | idleBits => exact h.concludeWith rfl (h.finish _ _ (by rw [h.sr hx]))
  | ackFlag => exact h.concludeWith rfl (h.finish _ _ (by rw [h.sr hx]))
  | readFrame =>
    have hr := h.readFrameResult hx
    obtain ⟨hd, hc, hctrl⟩ := Result.mk.inj hr
    refine h.concludeWith hr (.ite (by rw [hd, hc, hctrl]) (h.finish _ _ hr) ?_)
    rw [hc]
    exact h.finish _ _ hr
  | writeFrame =>
    have hr := h.writeFrameResult hx
    exact h.concludeWith hr (h.finish _ _ hr)
  | recovery =>
    have hr : ({ data := s.eng.sr } : Result) = { data := t.eng.sr } := by rw [h.sr hx]
    exact h.concludeWith rfl (.ite (by rw [h.sr hx]) (h.finish _ _ hr) (h.finish _ _ hr))
  | configCheck =>
    rw [Machine.complete, Machine.complete, h.conf]
    exact .ite rfl ⟨rfl, rfl, rfl, rfl, h.scl, h.sda, h.env, h.trace⟩ (h.finish _ _ rfl)
  | unconfigure => exact ⟨rfl, rfl, rfl, rfl, h.scl, h.sda, h.env, h.trace⟩

/-- The registers that a `finish` reads after a failure are known: a frame's alone has RESULT fields then (R126). -/
def Known.reportsFailure (k : Known) : Report → Bool
  | .received | .ackFlag | .recovery | .idleBits => true
  | x => k.reports x

/-- The same, of a run that kept a failure. -/
theorem Alike.complete_failed (h : Alike k p q s t) {x : Report} (hx : k.reportsFailure x = true)
    (herr : s.eng.err.isSome = true) : SameOutcome p q (Machine.complete x s) (Machine.complete x t) := by
  obtain ⟨f, hs⟩ := Option.isSome_iff_exists.mp herr
  have ht := h.err.symm.trans hs
  cases x with
  | received | ackFlag | recovery | idleBits =>
    rw [Machine.complete, Machine.complete, concludeWith_some hs, concludeWith_some ht]
    exact h.finish _ _ rfl
  | _ => exact h.complete hx

/-! ### Whole commands -/

/-- With `k` known, a job reads known registers only: its events before and after a failure, and its `finish`. -/
def Known.suffices (k : Known) (j : Job) : Bool :=
  k.readsAll j.todo && ((k.afterAll j.todo).readsAll j.after && (k.frame.readsAll j.after &&
    (((k.afterAll j.todo).afterAll j.after).reports j.report && k.frame.reportsFailure j.report)))

theorem runSeq_err_isSome (ms : List Micro) (h : s.eng.err.isSome = true) :
    (runSeq ms s).state.eng.err.isSome = true := by
  have keeps := runSeq_keepsFailure ms s
  cases hrun : runSeq ms s with
  | ok t =>
    rw [hrun] at keeps
    exact (congrArg Option.isSome keeps).trans h
  | failed t =>
    rw [hrun] at keeps
    exact keeps

theorem runSeq_failed_isSome {ms : List Micro} (h : runSeq ms s = .failed t) : t.eng.err.isSome = true := by
  have keeps := runSeq_keepsFailure ms s
  rwa [h] at keeps

/-- Two runs of the same line events end in the same way. -/
theorem runSeq_alike_cases (ms : List Micro) (hms : k.readsAll ms = true) (h : Alike k p q s t) :
    (∃ s' t', runSeq ms s = .ok s' ∧ runSeq ms t = .ok t' ∧ Alike (k.afterAll ms) p q s' t') ∨
      ∃ s' t', runSeq ms s = .failed s' ∧ runSeq ms t = .failed t' ∧ Alike k.frame p q s' t' := by
  have alike := runSeq_alike ms hms h
  cases hs : runSeq ms s <;> cases ht : runSeq ms t <;> rw [hs, ht] at alike
  · exact .inl ⟨_, _, rfl, rfl, alike⟩
  · exact alike.elim
  · exact alike.elim
  · rw [Ran.Alike, Known.afterAll_frame] at alike
    exact .inr ⟨_, _, rfl, rfl, alike⟩

/-- Two runs of a job that reads known registers only have the same outcome. -/
theorem Alike.runJob {j : Job} (hj : k.suffices j = true) (h : Alike k p q s t) :
    SameOutcome p q (runJob j s) (runJob j t) := by
  simp only [Known.suffices, Bool.and_eq_true] at hj
  obtain ⟨htodo, hafter, hafterFailure, hreport, hreportFailure⟩ := hj
  rw [Machine.runJob, Machine.runJob]
  obtain ⟨s₁, t₁, hs, ht, h₁⟩ | ⟨s₁, t₁, hs, ht, h₁⟩ := runSeq_alike_cases j.todo htodo h <;> rw [hs, ht]
  · obtain ⟨s₂, t₂, hs₂, ht₂, h₂⟩ | ⟨s₂, t₂, hs₂, ht₂, h₂⟩ := runSeq_alike_cases j.after hafter h₁ <;>
      rw [Ran.state, Ran.state, hs₂, ht₂]
    · exact h₂.complete hreport
    · rw [Known.afterAll_frame] at h₂
      exact h₂.complete_failed hreportFailure (runSeq_failed_isSome hs₂)
  · have hkept := runSeq_err_isSome j.after (runSeq_failed_isSome hs)
    obtain ⟨s₂, t₂, hs₂, ht₂, h₂⟩ | ⟨s₂, t₂, hs₂, ht₂, h₂⟩ := runSeq_alike_cases j.after hafterFailure h₁
    · rw [hs₂] at hkept
      have h₃ := h₂.frame
      rw [Known.afterAll_frame] at h₃
      rw [Ran.state, Ran.state, hs₂, ht₂]
      exact h₃.complete_failed hreportFailure hkept
    · rw [hs₂] at hkept
      rw [Ran.state, Ran.state, hs₂, ht₂]
      exact h₂.complete_failed hreportFailure hkept

/-- The frame bytes that a command's decode step writes (log 9). -/
def decodeWrites : Instr → Known
  | .rframe _ => { ctrl := true, d := true, c := true }
  | .wframe _ _ _ => { ctrl := true, c := true, acked := true }
  | _ => {}

/-- The events `ms` read registers of `k` only, and those they write themselves; `k'` are known after them. -/
def Known.Leads (k : Known) (ms : List Micro) (k' : Known) : Prop := k.readsAll ms = true ∧ k.afterAll ms = k'

theorem Known.Leads.append {k₀ k₁ k₂ : Known} {ms ms' : List Micro} (h : k₀.Leads ms k₁) (h' : k₁.Leads ms' k₂) :
    k₀.Leads (ms ++ ms') k₂ := by
  obtain ⟨hreads, rfl⟩ := h
  obtain ⟨hreads', rfl⟩ := h'
  refine ⟨?_, List.foldl_append⟩
  induction ms generalizing k₀ with
  | nil => exact hreads'
  | cons m ms ih =>
    obtain ⟨hm, hms⟩ := Bool.and_eq_true_iff.mp hreads
    exact Bool.and_eq_true_iff.mpr ⟨hm, ih hms hreads'⟩

/-- The registers that are known after a bit cell. -/
def Known.clocked (k : Known) : Known := { k with n := true, acc := true, sr := true, i := true }

/-- The registers that are known after a bounded wait. -/
def Known.waited (k : Known) : Known := { k with n := true, acc := true }

theorem leads_start (k : Known) : k.Leads startSeq k.waited := ⟨rfl, rfl⟩

theorem leads_writeByte (k : Known) (x : Byte) : k.Leads (writeByteSeq x) k.clocked := ⟨rfl, rfl⟩

theorem leads_readByte (k : Known) {last : Micro} (hreads : k.clocked.reads last = true)
    (hafter : k.clocked.after last = k.clocked) : k.Leads (readByteSeq last) k.clocked :=
  ⟨(Bool.and_true _).trans hreads, hafter⟩

theorem leads_sendAck (k : Known) (x : Byte) : k.Leads (sendAckSeq x) k.clocked := ⟨rfl, rfl⟩

theorem leads_frameAck (k : Known) (j : Nat) {counted : Bool} (h : (!counted || k.acked) = true) :
    k.Leads (frameAckSeq j counted) k.clocked :=
  ⟨(Bool.and_true _).trans h, rfl⟩

theorem leads_readFrame (k : Known) (hd : k.d = true) (hc : k.c = true) (ctrl : Byte) :
    k.Leads (readFrameSeq ctrl) k.clocked :=
  ((((((leads_start k).append (leads_writeByte k.waited ctrl)).append (leads_frameAck k.clocked 0 rfl)).append
    (leads_readByte k.clocked (last := .closeByte .d) hd rfl)).append (leads_sendAck k.clocked _)).append
      (leads_readByte k.clocked (last := .closeByte .c) hc rfl)).append (leads_sendAck k.clocked _)

theorem leads_ackedByte (k : Known) (hacked : k.acked = true) (x : Byte) (j : Nat) :
    k.Leads (writeByteSeq x ++ frameAckSeq j true) k.clocked :=
  (leads_writeByte k x).append (leads_frameAck k.clocked j hacked)

theorem leads_writeFrame (k : Known) (hacked : k.acked = true) (ctrl addr data chk : Byte) :
    k.Leads (writeFrameSeq ctrl addr data chk) k.clocked :=
  ((((leads_start k).append (leads_ackedByte k.waited hacked ctrl 0)).append
    (leads_ackedByte k.clocked hacked addr 1)).append (leads_ackedByte k.clocked hacked data 2)).append
      (leads_ackedByte k.clocked hacked chk 3)

/-- A frame and its STOP read the frame bytes that its decode step writes. -/
theorem Known.Leads.suffices {k k' : Known} {ms : List Micro} {x : Report} (h : k.Leads ms k')
    (hreport : k'.reports x = true) (hx : x = .readFrame ∨ x = .writeFrame) :
    k.suffices { todo := ms, after := stopSeq .timeout, report := x } = true := by
  obtain ⟨hreads, rfl⟩ := h
  have hframe : k.frame.reportsFailure x = true := by
    rw [← Known.afterAll_frame ms k]
    obtain rfl | rfl := hx <;> exact hreport
  rw [Known.suffices, hreads, hframe]
  obtain rfl | rfl := hx <;> exact (Bool.and_true _).trans hreport

/-- No command reads a register of the engine before it has written it. -/
theorem decodeWrites_suffices (i : Instr) (s : State) : (decodeWrites i).suffices (commandOf i s).2 = true := by
  cases i with
  | rframe nib => exact (leads_readFrame _ rfl rfl _).suffices rfl (.inl rfl)
  | wframe nib addr data => exact (leads_writeFrame _ rfl _ _ _ _).suffices rfl (.inr rfl)
  | _ => rfl

/-- Runs that are alike before a command's decode step are alike after it, and perform the same job. -/
theorem Alike.commandOf (h : Alike {} p q s.beginCommand t.beginCommand) (i : Instr) :
    Alike (decodeWrites i) p q (commandOf i s).1 (commandOf i t).1 ∧ (commandOf i s).2 = (commandOf i t).2 := by
  have hconf : s.conf = t.conf := h.conf
  cases i with
  | rframe nib =>
    refine ⟨⟨congrArg (fun u : State => { u with eng := { u.eng with
      ctrl := controlByte nib u.conf.devAddr true, d := 0#8, c := 0#8 } }) h.known, h.trace⟩, ?_⟩
    simp only [Machine.commandOf, rframeCommand, hconf]
  | wframe nib addr data =>
    refine ⟨⟨congrArg (fun u : State => { u with eng := { u.eng with
      ctrl := controlByte nib u.conf.devAddr false
      c := checksumWrite (controlByte nib u.conf.devAddr false) addr data, acked := 0#3 } }) h.known, h.trace⟩, ?_⟩
    simp only [Machine.commandOf, wframeCommand, hconf]
  | _ => exact ⟨h, rfl⟩

end

/-- Settles O46: the two runs begin alike, and a command reads no register of the engine before it has written it. -/
theorem outcomeIgnoresHistory : Obligations.OutcomeIgnoresHistory := by
  intro i s s' t t' hcmd hcfg hconf hscl hsda henv hexec hexec'
  have begin : Alike {} s.trace s'.trace s.beginCommand s'.beginCommand :=
    ⟨by simp [State.known, Engine.known, hcfg, hconf, hscl, hsda, henv], [], by simp⟩
  have hgate : gate i s' = gate i s := by rw [gate, gate, hcmd, hcfg]
  rw [exec_eq] at hexec hexec'
  cases hg : gate i s with
  | some f =>
    rw [runGated_some hg] at hexec
    rw [runGated_some (hgate.trans hg)] at hexec'
    cases hexec
    cases hexec'
    exact begin.finish f.kind f.detail rfl
  | none =>
    rw [runGated_none hg] at hexec
    rw [runGated_none (hgate.trans hg)] at hexec'
    cases hexec
    cases hexec'
    obtain ⟨alike, hjob⟩ := begin.commandOf i
    rw [← hjob]
    exact alike.runJob (decodeWrites_suffices i s)

end Sys2Proof.Machine

/-! Reset and hazards: reset in the middle of a command (70_reset_and_hazards.md R171, R172), and the lines that a
primitive command leaves on every draw (70_reset_and_hazards.md R178; 40_framing_engine.md R95). -/

namespace Sys2Proof.Machine

/-! ### Reset -/

/-- Settles O56: the RST turn is one `assertRst`, whatever the phase of the engine. -/
theorem resetAbandonsTheCommand : Obligations.ResetAbandonsTheCommand := by
  intro s ts hsched
  have hturn : step s = takeTurn .rst { s with sched := ts } := by simp only [step, nextTurn, hsched]
  rw [hturn]
  rfl

/-! ### What the line events fix of the lines, whatever is sampled -/

/-- What is known of SCL_O, of SDA_O and of the shift register that bits are sent from; `none` where it depends on the
state before the command, or on a sample. -/
structure Pinned where
  scl : Option Level := none
  sda : Option Level := none
  sr : Option Byte := none

/-- The state has the values that are known. -/
structure Pinned.Of (p : Pinned) (s : State) : Prop where
  scl : ∀ v ∈ p.scl, s.sclO = v
  sda : ∀ v ∈ p.sda, s.sdaO = v
  sr : ∀ x ∈ p.sr, s.eng.sr = x

/-- What is known after a sub-operation: a drive fixes its line, and a sample that is kept unfixes the shift register. -/
def Pinned.after (p : Pinned) : Micro → Pinned
  | .driveSCL v => { p with scl := some v }
  | .releaseSCL _ => { p with scl := some true }
  | .driveSDA v => { p with sda := some v }
  | .openWrite x i => { p with sda := some (srBit x i), sr := some x }
  | .nextWrite i => { p with sda := p.sr.map (srBit · i) }
  | .openRead _ => { p with sda := some true, sr := some 0#8 }
  | .nextRead _ => { p with sda := some true }
  | .sampleBit | .senseSCL | .senseSDA => { p with sr := none }
  | .wait _ | .pollDelay _ | .hold _ | .closeAck _ _ | .closeByte _ => p

/-- The sub-operation can fail (R10, R93, R127). -/
def Micro.mayFail : Micro → Bool
  | .wait _ | .pollDelay _ | .closeAck _ _ => true
  | _ => false

/-- What is known at each point where a sequence can fail, before the sub-operation that fails there. -/
def Pinned.atFailures (p : Pinned) : List Micro → List Pinned
  | [] => []
  | m :: ms => (if m.mayFail then [p] else []) ++ (p.after m).atFailures ms

theorem Pinned.of_nothing (s : State) : ({} : Pinned).Of s := ⟨nofun, nofun, nofun⟩

theorem Pinned.Of.congr {p : Pinned} {s t : State} (h : p.Of s) (hlines : t.lines = s.lines)
    (hsr : t.eng.sr = s.eng.sr) : p.Of t := by
  obtain ⟨hscl, hsda⟩ := Prod.mk.inj hlines
  exact ⟨fun v hv => hscl.trans (h.scl v hv), fun v hv => hsda.trans (h.sda v hv), fun x hx => hsr.trans (h.sr x hx)⟩

/-- The events of a bounded wait drive no line (R93). -/
theorem linesAfter_of_wait (l : Level × Level) {new : List LineEvent} (h : ∀ ev ∈ new, ev.OfWait) :
    linesAfter l new = l := by
  induction new with
  | nil => rfl
  | cons ev new ih =>
    obtain ⟨hev, hnew⟩ := List.forall_mem_cons.mp h
    obtain ⟨v, rfl⟩ | ⟨us, rfl⟩ := hev <;> exact ih hnew

/-- A bounded wait, begun with its sample or with its poll delay, leaves the lines and the shift register alone, whatever
its outcome (R93). -/
theorem runMicro_wait_lines {m : Micro} {f : FailAs} (hm : m = .wait f ∨ m = .pollDelay f) (fuel : Nat) (s : State) :
    (runMicro fuel m s).state.lines = s.lines ∧ (runMicro fuel m s).state.eng.sr = s.eng.sr := by
  obtain ⟨new, htrace, hlines⟩ := runMicro_linesFollow fuel m s
  have quiet : (∃ xs, (runMicro fuel m s).state.trace = s.trace ++ xs ∧ ∀ ev ∈ xs, ev.OfWait) ∧
      Drives s (runMicro fuel m s).state [] := by
    obtain rfl | rfl := hm
    · exact ⟨(runMicro_wait_performs f fuel s).1, (drives_runMicro_wait f fuel s).1⟩
    · exact ⟨(runMicro_wait_performs f fuel s).2, (drives_runMicro_wait f fuel s).2⟩
  obtain ⟨⟨xs, htrace', hwait⟩, hsr, -⟩ := quiet
  obtain rfl : new = xs := List.append_cancel_left (htrace.symm.trans htrace')
  exact ⟨hlines.trans (linesAfter_of_wait _ hwait), hsr⟩

/-- The outcome agrees with `p` if all is done, and with one of `ps` if the run failed. -/
def Ran.Pinned (p : Pinned) (ps : List Pinned) : Ran → Prop
  | .ok t => p.Of t
  | .failed t => ∃ q ∈ ps, q.Of t

theorem runMicro_wait_pinned {m : Micro} {f : FailAs} (hm : m = .wait f ∨ m = .pollDelay f) {p : Pinned} {s : State}
    (h : p.Of s) (fuel : Nat) : (runMicro fuel m s).Pinned p [p] := by
  obtain ⟨hlines, hsr⟩ := runMicro_wait_lines hm fuel s
  have hstate := h.congr hlines hsr
  cases hrun : runMicro fuel m s with
  | ok t =>
    rw [hrun] at hstate
    exact hstate
  | failed t =>
    rw [hrun] at hstate
    exact ⟨p, List.mem_singleton_self p, hstate⟩

/-- A sub-operation drives what it drives on every draw; one that fails drives nothing (R91, R93). -/
theorem runMicro_pinned (m : Micro) {p : Pinned} {s : State} (h : p.Of s) :
    (runMicro (waitFuel s) m s).Pinned (p.after m) (if m.mayFail then [p] else []) := by
  cases m with
  | wait f => exact runMicro_wait_pinned (.inl rfl) h _
  | pollDelay f => exact runMicro_wait_pinned (.inr rfl) h _
  | closeAck k counted =>
    change Ran.Pinned p [p] _
    simp only [waitFuel_pos, runMicro, fire, endAck]
    split_ifs
    · exact ⟨p, List.mem_singleton_self p, h.congr (by simp [State.lines]) (by simp)⟩
    · exact h.congr rfl rfl
    · exact h.congr rfl rfl
  | closeByte dst => cases dst <;> exact h.congr rfl rfl
  | hold x => exact h.congr rfl rfl
  | driveSCL v | releaseSCL fresh => exact ⟨fun _ hv => Option.some.inj hv, h.sda, h.sr⟩
  | driveSDA v | nextRead i => exact ⟨h.scl, fun _ hv => Option.some.inj hv, h.sr⟩
  | openWrite x i | openRead i => exact ⟨h.scl, fun _ hv => Option.some.inj hv, fun _ hx => Option.some.inj hx⟩
  | nextWrite i =>
    refine ⟨h.scl, fun v hv => ?_, h.sr⟩
    obtain ⟨x, hx, rfl⟩ := Option.map_eq_some_iff.mp hv
    exact congrArg (srBit · i) (h.sr x hx)
  | sampleBit | senseSDA =>
    obtain ⟨v, e, hsample⟩ := sampleSDA_spec s
    simp only [waitFuel_pos, runMicro, fire, hsample]
    exact ⟨h.scl, h.sda, nofun⟩
  | senseSCL =>
    obtain ⟨v, e, hsample⟩ := sampleSCL_spec s
    simp only [waitFuel_pos, runMicro, fire, hsample]
    exact ⟨h.scl, h.sda, nofun⟩

/-- What a sequence of line events fixes, on every draw, if it ends and if it fails (R95). -/
theorem runSeq_pinned (ms : List Micro) {p : Pinned} {s : State} (h : p.Of s) :
    (runSeq ms s).Pinned (ms.foldl Pinned.after p) (p.atFailures ms) := by
  induction ms generalizing p s with
  | nil => exact h
  | cons m ms ih =>
    have first := runMicro_pinned m h
    cases hrun : runMicro (waitFuel s) m s with
    | ok t =>
      rw [hrun] at first
      have rest := ih first
      rw [runSeq_cons_ok hrun]
      cases hms : runSeq ms t with
      | ok u =>
        rw [hms] at rest
        exact rest
      | failed u =>
        rw [hms] at rest
        obtain ⟨q, hq, hu⟩ := rest
        exact ⟨q, List.mem_append_right _ hq, hu⟩
    | failed t =>
      rw [hrun] at first
      obtain ⟨q, hq, ht⟩ := first
      rw [runSeq_cons_stopped hrun]
      exact ⟨q, List.mem_append_left _ hq, ht⟩

/-! ### Primitive commands -/

/-- A primitive command finishes `Ok` or `Timeout` (R10, R93). -/
theorem exec_primitive_kind {i : Instr} (hi : isBitCommand i = true ∨ isByteCommand i = true) {s t : State}
    (hcfg : s.status.cfg = true) (hwf : i.wellFormed = true) (h : exec i s = .next t) :
    t.status.kind = .ok ∨ t.status.kind = .timeout := by
  obtain hi | hi := hi
  · refine (exec_lineOrBit hi hcfg hwf h).imp_right ?_
    rintro ⟨x, hx, hkind, -⟩
    exact hkind.trans hx.kind
  · refine (exec_byte hi hcfg h).imp_right ?_
    rintro ⟨x, hx, hkind, -⟩
    exact hkind.trans hx.timeout.1

/-- The `finish` moves no line. -/
theorem Pinned.Of.complete {q : Pinned} {s : State} (h : q.Of s) (p : Report) : q.Of (complete p s) := by
  have hwire := complete_wire p s
  exact h.congr (congrArg (fun w : WireView => (w.scl, w.sda)) hwire) (congrArg WireView.sr hwire)

/-- A primitive command that kept a failure finishes with it (R10). -/
theorem IsPrimitive.complete_failed {i : Instr} {ms : List Micro} {p : Report} (h : IsPrimitive i ms p) {s : State}
    {f : Failure} (hf : s.eng.err = some f) : (Machine.complete p s).status.kind = f.kind := by
  obtain rfl | rfl | rfl := h.report <;> rw [Machine.complete, concludeWith_some hf] <;> rfl

/-- The lines that a primitive command leaves, on every draw: what its line events fix after `Ok`, and what they fix
before one of its waits after `Timeout` (R95, R178). -/
theorem exec_primitive_pinned {i : Instr} {ms : List Micro} {p : Report} (h : IsPrimitive i ms p)
    (hi : isBitCommand i = true ∨ isByteCommand i = true) {s : State} (hcfg : s.status.cfg = true) :
    ∃ t, exec i s = .next t ∧
      ((t.status.kind = .ok ∧ ((ms.map Micro.asPrimitive).foldl Pinned.after {}).Of t) ∨
        (t.status.kind = .timeout ∧ ∃ q ∈ ({} : Pinned).atFailures (ms.map Micro.asPrimitive), q.Of t)) := by
  have hexec := exec_of_isPrimitive h hcfg
  have hkind := exec_primitive_kind hi hcfg h.wellFormed hexec
  have hkeeps := runSeq_keepsFailure (ms.map Micro.asPrimitive) s.beginCommand
  have hpinned := runSeq_pinned (ms.map Micro.asPrimitive) (Pinned.of_nothing s.beginCommand)
  refine ⟨_, hexec, ?_⟩
  cases hrun : runSeq (ms.map Micro.asPrimitive) s.beginCommand with
  | ok t =>
    rw [hrun] at hkeeps hpinned
    obtain ⟨r, hfinish, -⟩ := h.complete (s := t) hkeeps
    exact .inl ⟨congrArg (fun u : State => u.status.kind) hfinish, Pinned.Of.complete hpinned p⟩
  | failed t =>
    rw [hrun] at hkind hpinned
    obtain ⟨q, hq, ht⟩ := hpinned
    obtain ⟨f, hf, hline⟩ := runSeq_failed_err rfl hrun
    refine .inr ⟨hkind.resolve_left fun hok => ?_, q, hq, ht.complete p⟩
    rw [Ran.state, h.complete_failed hf] at hok
    rw [hok] at hline
    cases hline

/-- The lines of a primitive command: `scl` and `sda` after `Ok`, and SCL high with SDA as `P` says after `Timeout`. -/
theorem exec_primitive_lines {i : Instr} {ms : List Micro} {p : Report} (h : IsPrimitive i ms p)
    (hi : isBitCommand i = true ∨ isByteCommand i = true) {scl sda : Level} {P : Level → Prop}
    (hok : ∃ sr, (ms.map Micro.asPrimitive).foldl Pinned.after {} = ⟨some scl, some sda, sr⟩)
    (hfail : ∀ q ∈ ({} : Pinned).atFailures (ms.map Micro.asPrimitive), q.scl = some true ∧ ∃ b ∈ q.sda, P b)
    {s : State} (hcfg : s.status.cfg = true) : ∃ t, exec i s = .next t ∧
      ((t.status.kind = .ok ∧ t.sclO = scl ∧ t.sdaO = sda) ∨ (t.status.kind = .timeout ∧ t.sclO = true ∧ P t.sdaO)) := by
  obtain ⟨t, hexec, ⟨hkind, ht⟩ | ⟨hkind, q, hq, ht⟩⟩ := exec_primitive_pinned h hi hcfg
  · obtain ⟨sr, hall⟩ := hok
    rw [hall] at ht
    exact ⟨t, hexec, .inl ⟨hkind, ht.scl scl rfl, ht.sda sda rfl⟩⟩
  · obtain ⟨hscl, b, hb, hP⟩ := hfail q hq
    obtain rfl := ht.sda b hb
    exact ⟨t, hexec, .inr ⟨hkind, ht.scl true hscl, hP⟩⟩

/-- A primitive command that drives SDA to `b` in every bit cell leaves it so, whatever its outcome (R107). -/
theorem exec_cell_lines {i : Instr} {ms : List Micro} {p : Report} (h : IsPrimitive i ms p)
    (hi : isBitCommand i = true ∨ isByteCommand i = true) {b : Level}
    (hok : ∃ sr, (ms.map Micro.asPrimitive).foldl Pinned.after {} = ⟨some false, some b, sr⟩)
    (hfail : ∀ q ∈ ({} : Pinned).atFailures (ms.map Micro.asPrimitive), q.scl = some true ∧ q.sda = some b)
    {s : State} (hcfg : s.status.cfg = true) : ∃ t, exec i s = .next t ∧ t.sdaO = b ∧
      ((t.status.kind = .ok ∧ t.sclO = false) ∨ (t.status.kind = .timeout ∧ t.sclO = true)) := by
  obtain ⟨t, hexec, ⟨hkind, hscl, hsda⟩ | ⟨hkind, hscl, hsda⟩⟩ := exec_primitive_lines h hi (P := (· = b)) hok
    (fun q hq => (hfail q hq).imp_right fun hsda => ⟨b, hsda, rfl⟩) hcfg
  · exact ⟨t, hexec, hsda, .inl ⟨hkind, hscl⟩⟩
  · exact ⟨t, hexec, hsda, .inr ⟨hkind, hscl⟩⟩

/-- A byte sent can fail in each of its eight waits, with SDA at the bit of that cell (R107, R110). -/
theorem atFailures_writeByteSeq (x : Byte) : ({} : Pinned).atFailures ((writeByteSeq x).map Micro.asPrimitive) =
    bitIndices.map fun i => ⟨some true, some (srBit x i), some x⟩ := by
  rfl

theorem toNat_lt_of_mem_bitIndices : ∀ i ∈ bitIndices, i.toNat < 8 := by decide

/-- Settles O24: each primitive command's line events say which levels it drives before each of its waits and at its
end. -/
theorem primitivesLeaveDefinedLines : Obligations.PrimitivesLeaveDefinedLines := by
  intro s hcfg
  refine ⟨?start, ?stop, fun a ha => ?wbit, fun a ha => ?sack, fun x => ?wbyte, fun i hi => ?reads⟩
  case start =>
    exact exec_primitive_lines isPrimitive_start (.inl rfl) (P := (· = true)) ⟨_, rfl⟩ (by decide) hcfg
  case stop =>
    exact exec_primitive_lines isPrimitive_stop (.inl rfl) (P := (· = false)) ⟨_, rfl⟩ (by decide) hcfg
  case wbit =>
    rw [← srBit_bitOperand a]
    exact exec_cell_lines (isPrimitive_wbit ha) (.inl rfl) ⟨_, rfl⟩ (List.forall_mem_singleton.mpr ⟨rfl, rfl⟩) hcfg
  case sack =>
    rw [← srBit_ackOperand a]
    exact exec_cell_lines (isPrimitive_sack ha) (.inl rfl) ⟨_, rfl⟩ (List.forall_mem_singleton.mpr ⟨rfl, rfl⟩) hcfg
  case wbyte =>
    refine exec_primitive_lines (isPrimitive_wbyte x) (.inr rfl) (P := fun b => ∃ k < 8, b = x.getLsbD k) ⟨_, rfl⟩ ?_ hcfg
    rw [atFailures_writeByteSeq, List.forall_mem_map]
    exact fun i hi => ⟨rfl, _, rfl, i.toNat, toNat_lt_of_mem_bitIndices i hi, rfl⟩
  case reads =>
    obtain rfl | rfl | rfl : i = .rbit ∨ i = .rbyte ∨ i = .rack := by simpa using hi
    · exact exec_cell_lines isPrimitive_rbit (.inl rfl) ⟨_, rfl⟩ (by decide) hcfg
    · exact exec_cell_lines isPrimitive_rbyte (.inr rfl) ⟨_, rfl⟩ (by decide) hcfg
    · exact exec_cell_lines isPrimitive_rack (.inl rfl) ⟨_, rfl⟩ (by decide) hcfg

end Sys2Proof.Machine
